-- ==== Sys2Proof/Word.lean ====
section
/-! DEFINITION. The word types of the MC68000, the three operand sizes and their plainest arithmetic
(`00_scope.md` R7, R8). -/

namespace Sys2Proof

/-- A byte, 8 bits (R7). -/
abbrev Byte := BitVec 8

/-- A word, 16 bits (R7). -/
abbrev Word := BitVec 16

/-- A long word, 32 bits (R7): the width of every register and address (`00_scope.md` R6). -/
abbrev Long := BitVec 32

/-- An instruction's size: byte, word or long (R8). -/
inductive Size where
  | b
  | w
  | l
deriving DecidableEq, Repr

/-- The operand width `n` in bits (R8). -/
@[reducible] def Size.bits : Size → Nat
  | .b => 8
  | .w => 16
  | .l => 32

/-- The operand length in bytes, `n / 8` (R8). -/
@[reducible] def Size.bytes : Size → Nat
  | .b => 1
  | .w => 2
  | .l => 4

end Sys2Proof
end

