-- ==== Sys2Proof/Config.lean ====
section
/-! DEFINITION. What is fixed for this hardware (`00_scope.md` R6), and the one free value of the model. -/

namespace Sys2Proof.Config

/-- `ADDR_BITS` of the MC68000: 24 address bits reach memory (R6, R72; `92_eei_decisions.md` D2). It is the value of
the platform's argument, `Machine.Memory.addrBits`, at reset. -/
def addrBits : Nat := 24

/-- `VECTOR_BASE`: the address of exception vector 0 (R6, R430, D19). -/
def vectorBase : Long := 0x00000000#32

/-- What a byte of memory that nothing has written reads as.
DESIGN CHOICE (log entry 3), unsafe: R49 leaves the contents of memory to the platform. -/
def unlistedByte : Byte := 0x00#8

/-- `draw(k)` of R9: a value under no law. The `n`-th use of a free value in a run is the low bits of
`free n`, where `n` is the counter `State.draws`. It has no body: nothing can be proved of its value
(log entry 1). -/
opaque free : Nat → Long

end Sys2Proof.Config
end

