-- ==== Sys2Proof/Syntax.lean ====
section
/-! DEFINITION. The instructions of the MC68000 as data: one constructor of `Instr` per row of
spec/opcode_table.json, with the operand forms of `30_encoding.md`. -/

namespace Sys2Proof

/-- The number of a data or address register, three bits of an instruction word (`30_encoding.md` R112). -/
abbrev Reg := BitVec 3

/-- The sixteen condition tests, in the order of their 4-bit field (`10_state.md` R45, R46). -/
inductive Cond where
  | t | f | hi | ls | cc | cs | ne | eq | vc | vs | pl | mi | ge | lt | gt | le
deriving DecidableEq, Repr

/-- The brief extension word of the two indexed modes (`30_encoding.md` R117). Bits 10..8 are ignored by
the hardware and are not kept. -/
structure Brief where
  /-- bit 15: the index is an address register -/
  isA  : Bool
  /-- bits 14..12: the index register's number -/
  reg  : Reg
  /-- bit 11: all 32 bits of the index register are used -/
  long : Bool
  /-- bits 7..0: the displacement -/
  disp : Byte
deriving DecidableEq, Repr

/-- An effective-address operand: the twelve modes of `30_encoding.md` R112 with what their extension words
hold (`40_addressing_modes.md` R180 to R192). -/
inductive EA where
  /-- `Dn` -/
  | dn     (r : Reg)
  /-- `An` -/
  | an     (r : Reg)
  /-- `(An)` -/
  | ind    (r : Reg)
  /-- `(An)+` -/
  | post   (r : Reg)
  /-- `-(An)` -/
  | pre    (r : Reg)
  /-- `(d16,An)` -/
  | disp   (r : Reg) (d : Word)
  /-- `(d8,An,Xn)` -/
  | idx    (r : Reg) (x : Brief)
  /-- `(xxx).W` -/
  | absW   (a : Word)
  /-- `(xxx).L` -/
  | absL   (a : Long)
  /-- `(d16,PC)` -/
  | pcDisp (d : Word)
  /-- `(d8,PC,Xn)` -/
  | pcIdx  (x : Brief)
  /-- `#xxx`: the immediate value, zero above the operand size -/
  | imm    (v : Long)
deriving DecidableEq, Repr

/-- The twelve addressing modes without their operands (R112). -/
inductive EaMode where
  | dn | an | ind | post | pre | disp | idx | absW | absL | pcDisp | pcIdx | imm
deriving DecidableEq, Repr

/-- The displacement of Bcc, BRA and BSR (`45_program_control.md` R339): the 8-bit field, or the word that
follows when the field is zero. -/
inductive Disp where
  | byte (d : Byte)
  | word (d : Word)
deriving DecidableEq, Repr

/-- The count of a register shift or rotate (`44_shift_rotate.md` R300): the 3-bit field, where 0 means 8,
or the register that holds it. -/
inductive ShiftCount where
  | imm (c : BitVec 3)
  | reg (r : Reg)
deriving DecidableEq, Repr

/-- The instructions: one constructor per row of spec/opcode_table.json, in the table's order. -/
inductive Instr where
  | ori  (sz : Size) (v : Long) (ea : EA)
  | andi (sz : Size) (v : Long) (ea : EA)
  | subi (sz : Size) (v : Long) (ea : EA)
  | addi (sz : Size) (v : Long) (ea : EA)
  | eori (sz : Size) (v : Long) (ea : EA)
  | cmpi (sz : Size) (v : Long) (ea : EA)
  | btst (n : Byte) (ea : EA)
  | bchg (n : Byte) (ea : EA)
  | bclr (n : Byte) (ea : EA)
  | bset (n : Byte) (ea : EA)
  | btstDn (d : Reg) (ea : EA)
  | bchgDn (d : Reg) (ea : EA)
  | bclrDn (d : Reg) (ea : EA)
  | bsetDn (d : Reg) (ea : EA)
  | movep (toMem long : Bool) (d a : Reg) (disp : Word)
  | oriToCcr  (v : Word)
  | oriToSr   (v : Word)
  | andiToCcr (v : Word)
  | andiToSr  (v : Word)
  | eoriToCcr (v : Word)
  | eoriToSr  (v : Word)
  | moveB (src dst : EA)
  | moveW (src dst : EA)
  | moveaW (src : EA) (a : Reg)
  | moveL (src dst : EA)
  | moveaL (src : EA) (a : Reg)
  | negx (sz : Size) (ea : EA)
  | clr  (sz : Size) (ea : EA)
  | neg  (sz : Size) (ea : EA)
  | not  (sz : Size) (ea : EA)
  | tst  (sz : Size) (ea : EA)
  | moveFromSr (ea : EA)
  | moveToCcr  (ea : EA)
  | moveToSr   (ea : EA)
  | nbcd (ea : EA)
  | swap (r : Reg)
  | pea  (ea : EA)
  | extW (r : Reg)
  | extL (r : Reg)
  | movemToMem  (long : Bool) (mask : Word) (ea : EA)
  | movemToRegs (long : Bool) (mask : Word) (ea : EA)
  | tas (ea : EA)
  | illegal
  | trap (v : BitVec 4)
  | link (r : Reg) (d : Word)
  | unlk (r : Reg)
  | moveUsp (toReg : Bool) (r : Reg)
  | reset
  | nop
  | stop (v : Word)
  | rte
  | rts
  | trapv
  | rtr
  | jsr (ea : EA)
  | jmp (ea : EA)
  | lea (ea : EA) (a : Reg)
  | chk (ea : EA) (d : Reg)
  | addq (sz : Size) (q : BitVec 3) (ea : EA)
  | subq (sz : Size) (q : BitVec 3) (ea : EA)
  | scc  (c : Cond) (ea : EA)
  | dbcc (c : Cond) (r : Reg) (d : Word)
  | bra (d : Disp)
  | bsr (d : Disp)
  | bcc (c : Cond) (d : Disp)
  | moveq (v : Byte) (r : Reg)
  | orEaDn (sz : Size) (ea : EA) (d : Reg)
  | orDnEa (sz : Size) (d : Reg) (ea : EA)
  | divu (ea : EA) (d : Reg)
  | divs (ea : EA) (d : Reg)
  | sbcd (mem : Bool) (y x : Reg)
  | subEaDn (sz : Size) (ea : EA) (d : Reg)
  | subDnEa (sz : Size) (d : Reg) (ea : EA)
  | suba (long : Bool) (ea : EA) (a : Reg)
  | subx (sz : Size) (mem : Bool) (y x : Reg)
  | cmp  (sz : Size) (ea : EA) (d : Reg)
  | cmpa (long : Bool) (ea : EA) (a : Reg)
  | eor  (sz : Size) (d : Reg) (ea : EA)
  | cmpm (sz : Size) (y x : Reg)
  | andEaDn (sz : Size) (ea : EA) (d : Reg)
  | andDnEa (sz : Size) (d : Reg) (ea : EA)
  | mulu (ea : EA) (d : Reg)
  | muls (ea : EA) (d : Reg)
  | abcd (mem : Bool) (y x : Reg)
  | exgDD (x y : Reg)
  | exgAA (x y : Reg)
  | exgDA (x y : Reg)
  | addEaDn (sz : Size) (ea : EA) (d : Reg)
  | addDnEa (sz : Size) (d : Reg) (ea : EA)
  | adda (long : Bool) (ea : EA) (a : Reg)
  | addx (sz : Size) (mem : Bool) (y x : Reg)
  | asrReg (sz : Size) (c : ShiftCount) (r : Reg)
  | asrMem (ea : EA)
  | aslReg (sz : Size) (c : ShiftCount) (r : Reg)
  | aslMem (ea : EA)
  | lsrReg (sz : Size) (c : ShiftCount) (r : Reg)
  | lsrMem (ea : EA)
  | lslReg (sz : Size) (c : ShiftCount) (r : Reg)
  | lslMem (ea : EA)
  | roxrReg (sz : Size) (c : ShiftCount) (r : Reg)
  | roxrMem (ea : EA)
  | roxlReg (sz : Size) (c : ShiftCount) (r : Reg)
  | roxlMem (ea : EA)
  | rorReg (sz : Size) (c : ShiftCount) (r : Reg)
  | rorMem (ea : EA)
  | rolReg (sz : Size) (c : ShiftCount) (r : Reg)
  | rolMem (ea : EA)
  | lineA (x : BitVec 12)
  | lineF (x : BitVec 12)
deriving DecidableEq, Repr

end Sys2Proof
end

