-- ==== Sys2Proof/WellFormed.lean ====
section
/-! DEFINITION. Which terms of `Instr` are instructions of the MC68000: the classes of addressing modes
(`30_encoding.md` R119) and, per instruction, the modes and operand values its rows admit (R120 to R128). -/

namespace Sys2Proof

/-- The addressing mode of an operand. -/
def EA.mode : EA → EaMode
  | .dn _ => .dn
  | .an _ => .an
  | .ind _ => .ind
  | .post _ => .post
  | .pre _ => .pre
  | .disp _ _ => .disp
  | .idx _ _ => .idx
  | .absW _ => .absW
  | .absL _ => .absL
  | .pcDisp _ => .pcDisp
  | .pcIdx _ => .pcIdx
  | .imm _ => .imm

/-- Class "all" (R119). -/
def EaMode.isAll : EaMode → Bool
  | _ => true

/-- Class "data": all but `An`. -/
def EaMode.isData : EaMode → Bool
  | .an => false
  | _ => true

/-- Class "data" without the immediate mode: the operands of `BTST #` (R121). -/
def EaMode.isDataNotImm : EaMode → Bool
  | .an | .imm => false
  | _ => true

/-- Class "control". -/
def EaMode.isControl : EaMode → Bool
  | .ind | .disp | .idx | .absW | .absL | .pcDisp | .pcIdx => true
  | _ => false

/-- Class "alterable": neither PC-relative nor immediate. -/
def EaMode.isAlterable : EaMode → Bool
  | .pcDisp | .pcIdx | .imm => false
  | _ => true

/-- Class "data alterable": alterable but `An`. -/
def EaMode.isDataAlterable : EaMode → Bool
  | .an | .pcDisp | .pcIdx | .imm => false
  | _ => true

/-- Class "memory alterable": alterable but `Dn`, `An`. -/
def EaMode.isMemAlterable : EaMode → Bool
  | .dn | .an | .pcDisp | .pcIdx | .imm => false
  | _ => true

/-- The destinations of MOVEM registers to memory: control alterable, or `-(An)` (R123, R385). -/
def EaMode.isMovemStore : EaMode → Bool
  | .ind | .pre | .disp | .idx | .absW | .absL => true
  | _ => false

/-- The sources of MOVEM memory to registers: control, or `(An)+` (R123, R386). -/
def EaMode.isMovemLoad : EaMode → Bool
  | .ind | .post | .disp | .idx | .absW | .absL | .pcDisp | .pcIdx => true
  | _ => false

/-- An immediate value fits the operand size (R116: one word for byte and word, two for long). -/
def immFits (sz : Size) (v : Long) : Bool := decide (v.toNat < 2 ^ sz.bits)

/-- An operand of the given class and size: `An` is not allowed with byte size (R119), and an immediate
fits the size. -/
def EA.ok (cls : EaMode → Bool) (sz : Size) (ea : EA) : Bool :=
  cls ea.mode &&
    match ea with
    | .an _ => decide (sz ≠ .b)
    | .imm v => immFits sz v
    | _ => true

/-- A branch displacement: a byte displacement is not zero, since zero selects the word form (R339). -/
def Disp.ok : Disp → Bool
  | .byte d => decide (d ≠ 0)
  | .word _ => true

/-- The word or long size of ADDA, SUBA, CMPA, MOVEM and MOVEP: bit `s` of R113. -/
def wordOrLong (long : Bool) : Size := if long then .l else .w

/-- The operands an instruction's row of the opcode table admits (R120 to R128, R150). -/
def Instr.wellFormed : Instr → Bool
  | .ori sz v ea | .andi sz v ea | .subi sz v ea | .addi sz v ea | .eori sz v ea | .cmpi sz v ea =>
    immFits sz v && ea.ok EaMode.isDataAlterable sz
  | .btst _ ea => ea.ok EaMode.isDataNotImm .b
  | .bchg _ ea | .bclr _ ea | .bset _ ea => ea.ok EaMode.isDataAlterable .b
  | .btstDn _ ea => ea.ok EaMode.isData .b
  | .bchgDn _ ea | .bclrDn _ ea | .bsetDn _ ea => ea.ok EaMode.isDataAlterable .b
  | .movep _ _ _ _ _ => true
  | .oriToCcr _ | .oriToSr _ | .andiToCcr _ | .andiToSr _ | .eoriToCcr _ | .eoriToSr _ => true
  | .moveB src dst => src.ok EaMode.isAll .b && dst.ok EaMode.isDataAlterable .b
  | .moveW src dst => src.ok EaMode.isAll .w && dst.ok EaMode.isDataAlterable .w
  | .moveaW src _ => src.ok EaMode.isAll .w
  | .moveL src dst => src.ok EaMode.isAll .l && dst.ok EaMode.isDataAlterable .l
  | .moveaL src _ => src.ok EaMode.isAll .l
  | .negx sz ea | .clr sz ea | .neg sz ea | .not sz ea | .tst sz ea => ea.ok EaMode.isDataAlterable sz
  | .moveFromSr ea => ea.ok EaMode.isDataAlterable .w
  | .moveToCcr ea | .moveToSr ea => ea.ok EaMode.isData .w
  | .nbcd ea => ea.ok EaMode.isDataAlterable .b
  | .swap _ | .extW _ | .extL _ => true
  | .pea ea => ea.ok EaMode.isControl .l
  | .movemToMem long _ ea => ea.ok EaMode.isMovemStore (wordOrLong long)
  | .movemToRegs long _ ea => ea.ok EaMode.isMovemLoad (wordOrLong long)
  | .tas ea => ea.ok EaMode.isDataAlterable .b
  | .illegal | .trap _ | .link _ _ | .unlk _ | .moveUsp _ _ => true
  | .reset | .nop | .stop _ | .rte | .rts | .trapv | .rtr => true
  | .jsr ea | .jmp ea => ea.ok EaMode.isControl .l
  | .lea ea _ => ea.ok EaMode.isControl .l
  | .chk ea _ => ea.ok EaMode.isData .w
  | .addq sz _ ea | .subq sz _ ea => ea.ok EaMode.isAlterable sz
  | .scc _ ea => ea.ok EaMode.isDataAlterable .b
  | .dbcc _ _ _ => true
  | .bra d | .bsr d => d.ok
  | .bcc c d => decide (c ≠ .t) && decide (c ≠ .f) && d.ok
  | .moveq _ _ => true
  | .orEaDn sz ea _ | .andEaDn sz ea _ => ea.ok EaMode.isData sz
  | .subEaDn sz ea _ | .addEaDn sz ea _ | .cmp sz ea _ => ea.ok EaMode.isAll sz
  | .orDnEa sz _ ea | .subDnEa sz _ ea | .andDnEa sz _ ea | .addDnEa sz _ ea => ea.ok EaMode.isMemAlterable sz
  | .divu ea _ | .divs ea _ | .mulu ea _ | .muls ea _ => ea.ok EaMode.isData .w
  | .sbcd _ _ _ | .abcd _ _ _ | .subx _ _ _ _ | .addx _ _ _ _ | .cmpm _ _ _ => true
  | .suba long ea _ | .cmpa long ea _ | .adda long ea _ => ea.ok EaMode.isAll (wordOrLong long)
  | .eor sz _ ea => ea.ok EaMode.isDataAlterable sz
  | .exgDD _ _ | .exgAA _ _ | .exgDA _ _ => true
  | .asrReg _ _ _ | .aslReg _ _ _ | .lsrReg _ _ _ | .lslReg _ _ _ => true
  | .roxrReg _ _ _ | .roxlReg _ _ _ | .rorReg _ _ _ | .rolReg _ _ _ => true
  | .asrMem ea | .aslMem ea | .lsrMem ea | .lslMem ea => ea.ok EaMode.isMemAlterable .w
  | .roxrMem ea | .roxlMem ea | .rorMem ea | .rolMem ea => ea.ok EaMode.isMemAlterable .w
  | .lineA _ | .lineF _ => true

end Sys2Proof
end

