-- ==== Sys2Proof/Decode.lean ====
section
/-! DEFINITION. From instruction words to `Instr` (`30_encoding.md` R110 to R128, R150 to R152) and back. The
decoder is total: it refuses by name what is no instruction. -/

namespace Sys2Proof

/-- Why a sequence of words is not read as an instruction. -/
inductive Reject where
  /-- the operation word matches no row of the opcode table: an illegal instruction (R151) -/
  | illegal
  /-- fewer extension words are given than the operation word asks for (R118) -/
  | truncated
deriving DecidableEq, Repr

/-- The result of decoding: the instruction and the words after it. -/
abbrev Decoded := Except Reject (Instr × List Word)

/-! ### Lengths (R118) -/

/-- Extension words of an immediate of the given size (R116). -/
def immWords : Size → Nat
  | .b => 1
  | .w => 1
  | .l => 2

/-- `ea_words`: extension words of an operand (R118). -/
def EA.words (sz : Size) : EA → Nat
  | .dn _ | .an _ | .ind _ | .post _ | .pre _ => 0
  | .disp _ _ | .idx _ _ | .absW _ | .pcDisp _ | .pcIdx _ => 1
  | .absL _ => 2
  | .imm _ => immWords sz

/-- Extension words of a branch displacement (R118, BRANCH). -/
def Disp.words : Disp → Nat
  | .byte _ => 0
  | .word _ => 1

/-- `own_words`: the instruction's own extension words, before those of its operands (R118). -/
def Instr.ownWords : Instr → Nat
  | .ori sz _ _ | .andi sz _ _ | .subi sz _ _ | .addi sz _ _ | .eori sz _ _ | .cmpi sz _ _ => immWords sz
  | .btst _ _ | .bchg _ _ | .bclr _ _ | .bset _ _ => 1
  | .movep _ _ _ _ _ => 1
  | .oriToCcr _ | .oriToSr _ | .andiToCcr _ | .andiToSr _ | .eoriToCcr _ | .eoriToSr _ => 1
  | .movemToMem _ _ _ | .movemToRegs _ _ _ => 1
  | .link _ _ | .stop _ | .dbcc _ _ _ => 1
  | .bra d | .bsr d | .bcc _ d => d.words
  | _ => 0

/-- Extension words of the instruction's operands: the source's, then the destination's (R115, R118). -/
def Instr.operandWords : Instr → Nat
  | .ori sz _ ea | .andi sz _ ea | .subi sz _ ea | .addi sz _ ea | .eori sz _ ea | .cmpi sz _ ea => ea.words sz
  | .btst _ ea | .bchg _ ea | .bclr _ ea | .bset _ ea => ea.words .b
  | .btstDn _ ea | .bchgDn _ ea | .bclrDn _ ea | .bsetDn _ ea => ea.words .b
  | .moveB src dst => src.words .b + dst.words .b
  | .moveW src dst => src.words .w + dst.words .w
  | .moveL src dst => src.words .l + dst.words .l
  | .moveaW src _ => src.words .w
  | .moveaL src _ => src.words .l
  | .negx sz ea | .clr sz ea | .neg sz ea | .not sz ea | .tst sz ea => ea.words sz
  | .moveFromSr ea | .moveToCcr ea | .moveToSr ea => ea.words .w
  | .nbcd ea | .tas ea => ea.words .b
  | .pea ea | .jsr ea | .jmp ea | .lea ea _ => ea.words .l
  | .movemToMem long _ ea | .movemToRegs long _ ea => ea.words (wordOrLong long)
  | .chk ea _ => ea.words .w
  | .addq sz _ ea | .subq sz _ ea => ea.words sz
  | .scc _ ea => ea.words .b
  | .orEaDn sz ea _ | .andEaDn sz ea _ | .subEaDn sz ea _ | .addEaDn sz ea _ | .cmp sz ea _ => ea.words sz
  | .orDnEa sz _ ea | .andDnEa sz _ ea | .subDnEa sz _ ea | .addDnEa sz _ ea | .eor sz _ ea => ea.words sz
  | .divu ea _ | .divs ea _ | .mulu ea _ | .muls ea _ => ea.words .w
  | .suba long ea _ | .cmpa long ea _ | .adda long ea _ => ea.words (wordOrLong long)
  | .asrMem ea | .aslMem ea | .lsrMem ea | .lslMem ea => ea.words .w
  | .roxrMem ea | .roxlMem ea | .rorMem ea | .rolMem ea => ea.words .w
  | _ => 0

/-- The length of an instruction in words: the operation word and its extension words (R110, R118). -/
def Instr.words (i : Instr) : Nat := 1 + i.ownWords + i.operandWords

/-! ### The fields of the operation word -/

/-- The operation word as its five fields: bits 15..12, 11..9, 8..6, 5..3 and 2..0. -/
def pack (line : BitVec 4) (r9 op m r : BitVec 3) : Word := line ++ r9 ++ op ++ m ++ r

/-- Bits 15..12, the line (R111). -/
def lineOf (w : Word) : BitVec 4 := w.extractLsb' 12 4
/-- Bits 11..9. -/
def r9Of (w : Word) : BitVec 3 := w.extractLsb' 9 3
/-- Bits 8..6. -/
def opOf (w : Word) : BitVec 3 := w.extractLsb' 6 3
/-- Bits 5..3, the mode. -/
def modeOf (w : Word) : BitVec 3 := w.extractLsb' 3 3
/-- Bits 2..0, the register. -/
def regOf (w : Word) : BitVec 3 := w.extractLsb' 0 3

/-- The size field `ss` (R113), from the low two bits of bits 8..6; `11` is no size. -/
def sizeOf : BitVec 3 → Option Size
  | 0b000 | 0b100 => some .b
  | 0b001 | 0b101 => some .w
  | 0b010 | 0b110 => some .l
  | _ => none

/-- The code of a size in `ss` (R113). -/
def Size.code : Size → BitVec 3
  | .b => 0b000
  | .w => 0b001
  | .l => 0b010

/-- The condition of a 4-bit field (`10_state.md` R46). -/
def condOf : BitVec 4 → Cond
  | 0 => .t | 1 => .f | 2 => .hi | 3 => .ls | 4 => .cc | 5 => .cs | 6 => .ne | 7 => .eq
  | 8 => .vc | 9 => .vs | 10 => .pl | 11 => .mi | 12 => .ge | 13 => .lt | 14 => .gt | _ => .le

/-- The 4-bit field of a condition (`10_state.md` R46). -/
def Cond.code : Cond → BitVec 4
  | .t => 0 | .f => 1 | .hi => 2 | .ls => 3 | .cc => 4 | .cs => 5 | .ne => 6 | .eq => 7
  | .vc => 8 | .vs => 9 | .pl => 10 | .mi => 11 | .ge => 12 | .lt => 13 | .gt => 14 | .le => 15

/-- The addressing mode of a mode and register field (R112); `111` with `101` to `111` is none. -/
def eaModeOf (m r : BitVec 3) : Option EaMode :=
  match m with
  | 0 => some .dn
  | 1 => some .an
  | 2 => some .ind
  | 3 => some .post
  | 4 => some .pre
  | 5 => some .disp
  | 6 => some .idx
  | _ =>
    match r with
    | 0 => some .absW
    | 1 => some .absL
    | 2 => some .pcDisp
    | 3 => some .pcIdx
    | 4 => some .imm
    | _ => none

/-- The fields of the brief extension word (R117). -/
def briefOf (w : Word) : Brief :=
  { isA := w.getLsbD 15, reg := w.extractLsb' 12 3, long := w.getLsbD 11, disp := w.extractLsb' 0 8 }

/-- A brief extension word, bits 10..8 zero as assemblers write them (R117). -/
def Brief.word (x : Brief) : Word := BitVec.ofBool x.isA ++ x.reg ++ BitVec.ofBool x.long ++ 0#3 ++ x.disp

/-! ### Operands -/

/-- The next extension word. -/
def takeWord : List Word → Except Reject (Word × List Word)
  | w :: ws => .ok (w, ws)
  | [] => .error .truncated

/-- The next two extension words, the high word first (R73, R116). -/
def takeLong : List Word → Except Reject (Long × List Word)
  | h :: l :: ws => .ok (h ++ l, ws)
  | _ => .error .truncated

/-- The next immediate: the low byte of one word, one word, or two words (R116). -/
def takeImm (sz : Size) (ws : List Word) : Except Reject (Long × List Word) :=
  match sz with
  | .b => do let (w, ws) ← takeWord ws; return ((w.extractLsb' 0 8).setWidth 32, ws)
  | .w => do let (w, ws) ← takeWord ws; return (w.setWidth 32, ws)
  | .l => takeLong ws

/-- An operand of a class and size from its mode and register fields and the extension words (R112, R115,
R119). A mode that the class or the size does not admit makes the operation word illegal (R120, R151). -/
def takeEA (cls : EaMode → Bool) (sz : Size) (m r : BitVec 3) (ws : List Word) : Except Reject (EA × List Word) :=
  match eaModeOf m r with
  | none => .error .illegal
  | some md =>
    if !cls md || (decide (md = .an) && decide (sz = .b)) then .error .illegal
    else
      match md with
      | .dn => .ok (.dn r, ws)
      | .an => .ok (.an r, ws)
      | .ind => .ok (.ind r, ws)
      | .post => .ok (.post r, ws)
      | .pre => .ok (.pre r, ws)
      | .disp => do let (w, ws) ← takeWord ws; return (.disp r w, ws)
      | .idx => do let (w, ws) ← takeWord ws; return (.idx r (briefOf w), ws)
      | .absW => do let (w, ws) ← takeWord ws; return (.absW w, ws)
      | .absL => do let (a, ws) ← takeLong ws; return (.absL a, ws)
      | .pcDisp => do let (w, ws) ← takeWord ws; return (.pcDisp w, ws)
      | .pcIdx => do let (w, ws) ← takeWord ws; return (.pcIdx (briefOf w), ws)
      | .imm => do let (v, ws) ← takeImm sz ws; return (.imm v, ws)

/-- The displacement of a branch (R339): the 8-bit field, or the word after it when the field is zero. -/
def takeDisp (d : Byte) (ws : List Word) : Except Reject (Disp × List Word) :=
  if d = 0 then do let (w, ws) ← takeWord ws; return (.word w, ws) else .ok (.byte d, ws)

/-- The count of a register shift: bit 5 selects the register (R300). -/
def countOf (i : BitVec 1) (c : BitVec 3) : ShiftCount := if i = 1 then .reg c else .imm c

/-! ### Instruction shapes -/

/-- An instruction whose one operand is an effective address. -/
def oneEA (cls : EaMode → Bool) (sz : Size) (m r : BitVec 3) (ws : List Word) (k : EA → Instr) : Decoded := do
  let (ea, ws) ← takeEA cls sz m r ws
  return (k ea, ws)

/-- Format IMM (R114): the immediate, then the data alterable operand. -/
def immEA (sz : Size) (m r : BitVec 3) (ws : List Word) (k : Size → Long → EA → Instr) : Decoded := do
  let (v, rest) ← takeImm sz ws
  let (ea, ws) ← takeEA EaMode.isDataAlterable sz m r rest
  return (k sz v ea, ws)

/-- Format BIT_STATIC (R114): the low byte of one word, then the operand. -/
def bitEA (cls : EaMode → Bool) (m r : BitVec 3) (ws : List Word) (k : Byte → EA → Instr) : Decoded := do
  let (w, ws) ← takeWord ws
  let (ea, ws) ← takeEA cls .b m r ws
  return (k (w.extractLsb' 0 8) ea, ws)

/-- An instruction whose own extension word is its last operand. -/
def oneWord (ws : List Word) (k : Word → Instr) : Decoded := do
  let (w, ws) ← takeWord ws
  return (k w, ws)

/-- MOVE (R122): the source operand, then the destination, which is data alterable. -/
def moveEA (sz : Size) (r9 op m r : BitVec 3) (ws : List Word) (k : EA → EA → Instr) : Decoded := do
  let (src, ws) ← takeEA EaMode.isAll sz m r ws
  let (dst, ws) ← takeEA EaMode.isDataAlterable sz op r9 ws
  return (k src dst, ws)

/-! ### The sixteen lines (R111, R121 to R128) -/

/-- Line 0000 (R121). -/
def decodeLine0 (r9 op m r : BitVec 3) (ws : List Word) : Decoded :=
  match op with
  | 4 =>
    if m = 1 then oneWord ws (.movep false false r9 r ·) else oneEA EaMode.isData .b m r ws (.btstDn r9 ·)
  | 5 =>
    if m = 1 then oneWord ws (.movep false true r9 r ·) else oneEA EaMode.isDataAlterable .b m r ws (.bchgDn r9 ·)
  | 6 =>
    if m = 1 then oneWord ws (.movep true false r9 r ·) else oneEA EaMode.isDataAlterable .b m r ws (.bclrDn r9 ·)
  | 7 =>
    if m = 1 then oneWord ws (.movep true true r9 r ·) else oneEA EaMode.isDataAlterable .b m r ws (.bsetDn r9 ·)
  | 0 =>
    match r9 with
    | 0 => if m = 7 ∧ r = 4 then oneWord ws .oriToCcr else immEA .b m r ws .ori
    | 1 => if m = 7 ∧ r = 4 then oneWord ws .andiToCcr else immEA .b m r ws .andi
    | 2 => immEA .b m r ws .subi
    | 3 => immEA .b m r ws .addi
    | 4 => bitEA EaMode.isDataNotImm m r ws .btst
    | 5 => if m = 7 ∧ r = 4 then oneWord ws .eoriToCcr else immEA .b m r ws .eori
    | 6 => immEA .b m r ws .cmpi
    | _ => .error .illegal
  | 1 =>
    match r9 with
    | 0 => if m = 7 ∧ r = 4 then oneWord ws .oriToSr else immEA .w m r ws .ori
    | 1 => if m = 7 ∧ r = 4 then oneWord ws .andiToSr else immEA .w m r ws .andi
    | 2 => immEA .w m r ws .subi
    | 3 => immEA .w m r ws .addi
    | 4 => bitEA EaMode.isDataAlterable m r ws .bchg
    | 5 => if m = 7 ∧ r = 4 then oneWord ws .eoriToSr else immEA .w m r ws .eori
    | 6 => immEA .w m r ws .cmpi
    | _ => .error .illegal
  | 2 =>
    match r9 with
    | 0 => immEA .l m r ws .ori
    | 1 => immEA .l m r ws .andi
    | 2 => immEA .l m r ws .subi
    | 3 => immEA .l m r ws .addi
    | 4 => bitEA EaMode.isDataAlterable m r ws .bclr
    | 5 => immEA .l m r ws .eori
    | 6 => immEA .l m r ws .cmpi
    | _ => .error .illegal
  | _ =>
    match r9 with
    | 4 => bitEA EaMode.isDataAlterable m r ws .bset
    | _ => .error .illegal

/-- Line 0001, MOVE.B (R122). -/
def decodeLine1 (r9 op m r : BitVec 3) (ws : List Word) : Decoded := moveEA .b r9 op m r ws .moveB

/-- Line 0010, MOVE.L and MOVEA.L (R122). -/
def decodeLine2 (r9 op m r : BitVec 3) (ws : List Word) : Decoded :=
  if op = 1 then oneEA EaMode.isAll .l m r ws (.moveaL · r9) else moveEA .l r9 op m r ws .moveL

/-- Line 0011, MOVE.W and MOVEA.W (R122). -/
def decodeLine3 (r9 op m r : BitVec 3) (ws : List Word) : Decoded :=
  if op = 1 then oneEA EaMode.isAll .w m r ws (.moveaW · r9) else moveEA .w r9 op m r ws .moveW

/-- The words 0x4E40 to 0x4E7F (R123, R150). -/
def decodeSystem (m r : BitVec 3) (ws : List Word) : Decoded :=
  match m with
  | 0 => .ok (.trap (0#1 ++ r), ws)
  | 1 => .ok (.trap (1#1 ++ r), ws)
  | 2 => oneWord ws (.link r ·)
  | 3 => .ok (.unlk r, ws)
  | 4 => .ok (.moveUsp false r, ws)
  | 5 => .ok (.moveUsp true r, ws)
  | 6 =>
    match r with
    | 0 => .ok (.reset, ws)
    | 1 => .ok (.nop, ws)
    | 2 => oneWord ws .stop
    | 3 => .ok (.rte, ws)
    | 5 => .ok (.rts, ws)
    | 6 => .ok (.trapv, ws)
    | 7 => .ok (.rtr, ws)
    | _ => .error .illegal
  | _ => .error .illegal

/-- A UNARY instruction of line 0100 (R114): size, then a data alterable operand. -/
def unaryEA (sz : Size) (m r : BitVec 3) (ws : List Word) (k : Size → EA → Instr) : Decoded :=
  oneEA EaMode.isDataAlterable sz m r ws (k sz)

/-- MOVEM (R123): the mask word, then the operand. -/
def movemEA (cls : EaMode → Bool) (long : Bool) (m r : BitVec 3) (ws : List Word) (k : Bool → Word → EA → Instr) : Decoded := do
  let (mask, ws) ← takeWord ws
  let (ea, ws) ← takeEA cls (wordOrLong long) m r ws
  return (k long mask ea, ws)

/-- Line 0100 (R123, R150). -/
def decodeLine4 (r9 op m r : BitVec 3) (ws : List Word) : Decoded :=
  match op with
  | 7 => oneEA EaMode.isControl .l m r ws (.lea · r9)
  | 6 => oneEA EaMode.isData .w m r ws (.chk · r9)
  | 0 =>
    match r9 with
    | 0 => unaryEA .b m r ws .negx
    | 1 => unaryEA .b m r ws .clr
    | 2 => unaryEA .b m r ws .neg
    | 3 => unaryEA .b m r ws .not
    | 4 => oneEA EaMode.isDataAlterable .b m r ws .nbcd
    | 5 => unaryEA .b m r ws .tst
    | _ => .error .illegal
  | 1 =>
    match r9 with
    | 0 => unaryEA .w m r ws .negx
    | 1 => unaryEA .w m r ws .clr
    | 2 => unaryEA .w m r ws .neg
    | 3 => unaryEA .w m r ws .not
    | 4 => if m = 0 then .ok (.swap r, ws) else oneEA EaMode.isControl .l m r ws .pea
    | 5 => unaryEA .w m r ws .tst
    | 7 => decodeSystem m r ws
    | _ => .error .illegal
  | 2 =>
    match r9 with
    | 0 => unaryEA .l m r ws .negx
    | 1 => unaryEA .l m r ws .clr
    | 2 => unaryEA .l m r ws .neg
    | 3 => unaryEA .l m r ws .not
    | 4 => if m = 0 then .ok (.extW r, ws) else movemEA EaMode.isMovemStore false m r ws .movemToMem
    | 5 => unaryEA .l m r ws .tst
    | 6 => movemEA EaMode.isMovemLoad false m r ws .movemToRegs
    | _ => oneEA EaMode.isControl .l m r ws .jsr
  | 3 =>
    match r9 with
    | 0 => oneEA EaMode.isDataAlterable .w m r ws .moveFromSr
    | 1 => .error .illegal
    | 2 => oneEA EaMode.isData .w m r ws .moveToCcr
    | 3 => oneEA EaMode.isData .w m r ws .moveToSr
    | 4 => if m = 0 then .ok (.extL r, ws) else movemEA EaMode.isMovemStore true m r ws .movemToMem
    | 5 => if m = 7 ∧ r = 4 then .ok (.illegal, ws) else oneEA EaMode.isDataAlterable .b m r ws .tas
    | 6 => movemEA EaMode.isMovemLoad true m r ws .movemToRegs
    | _ => oneEA EaMode.isControl .l m r ws .jmp
  | _ => .error .illegal

/-- Line 0101 (R124). -/
def decodeLine5 (r9 op m r : BitVec 3) (ws : List Word) : Decoded :=
  match sizeOf op with
  | some sz =>
    oneEA EaMode.isAlterable sz m r ws (fun ea => if op.getLsbD 2 then .subq sz r9 ea else .addq sz r9 ea)
  | none =>
    if m = 1 then oneWord ws (.dbcc (condOf (r9 ++ op.extractLsb' 2 1)) r ·)
    else oneEA EaMode.isDataAlterable .b m r ws (.scc (condOf (r9 ++ op.extractLsb' 2 1)) ·)

/-- Line 0110 (R125). -/
def decodeLine6 (r9 op m r : BitVec 3) (ws : List Word) : Decoded := do
  let (d, ws) ← takeDisp (op.extractLsb' 0 2 ++ m ++ r) ws
  match condOf (r9 ++ op.extractLsb' 2 1) with
  | .t => return (.bra d, ws)
  | .f => return (.bsr d, ws)
  | c => return (.bcc c d, ws)

/-- Line 0111 (R126). -/
def decodeLine7 (r9 op m r : BitVec 3) (ws : List Word) : Decoded :=
  if op.getLsbD 2 then .error .illegal else .ok (.moveq (op.extractLsb' 0 2 ++ m ++ r) r9, ws)

/-- Line 1000 (R127, R150). -/
def decodeLine8 (r9 op m r : BitVec 3) (ws : List Word) : Decoded :=
  match op with
  | 3 => oneEA EaMode.isData .w m r ws (.divu · r9)
  | 7 => oneEA EaMode.isData .w m r ws (.divs · r9)
  | 0 => oneEA EaMode.isData .b m r ws (.orEaDn .b · r9)
  | 1 => oneEA EaMode.isData .w m r ws (.orEaDn .w · r9)
  | 2 => oneEA EaMode.isData .l m r ws (.orEaDn .l · r9)
  | 4 =>
    match m with
    | 0 => .ok (.sbcd false r r9, ws)
    | 1 => .ok (.sbcd true r r9, ws)
    | _ => oneEA EaMode.isMemAlterable .b m r ws (.orDnEa .b r9 ·)
  | 5 => oneEA EaMode.isMemAlterable .w m r ws (.orDnEa .w r9 ·)
  | _ => oneEA EaMode.isMemAlterable .l m r ws (.orDnEa .l r9 ·)

/-- The two-operand forms of lines 1001 and 1101 (R127): `<ea>,Dn`; `Dn,<ea>`; the register-pair forms; the
address-register forms. -/
def decodeAddSub (r9 op m r : BitVec 3) (ws : List Word) (eaDn : Size → EA → Reg → Instr)
    (dnEa : Size → Reg → EA → Instr) (toA : Bool → EA → Reg → Instr) (ext : Size → Bool → Reg → Reg → Instr) : Decoded :=
  match op with
  | 3 => oneEA EaMode.isAll .w m r ws (toA false · r9)
  | 7 => oneEA EaMode.isAll .l m r ws (toA true · r9)
  | 0 => oneEA EaMode.isAll .b m r ws (eaDn .b · r9)
  | 1 => oneEA EaMode.isAll .w m r ws (eaDn .w · r9)
  | 2 => oneEA EaMode.isAll .l m r ws (eaDn .l · r9)
  | _ =>
    match sizeOf op with
    | none => .error .illegal
    | some sz =>
      match m with
      | 0 => .ok (ext sz false r r9, ws)
      | 1 => .ok (ext sz true r r9, ws)
      | _ => oneEA EaMode.isMemAlterable sz m r ws (dnEa sz r9 ·)

/-- Line 1001 (R127). -/
def decodeLine9 (r9 op m r : BitVec 3) (ws : List Word) : Decoded :=
  decodeAddSub r9 op m r ws .subEaDn .subDnEa .suba .subx

/-- Line 1011 (R127). -/
def decodeLineB (r9 op m r : BitVec 3) (ws : List Word) : Decoded :=
  match op with
  | 3 => oneEA EaMode.isAll .w m r ws (.cmpa false · r9)
  | 7 => oneEA EaMode.isAll .l m r ws (.cmpa true · r9)
  | 0 => oneEA EaMode.isAll .b m r ws (.cmp .b · r9)
  | 1 => oneEA EaMode.isAll .w m r ws (.cmp .w · r9)
  | 2 => oneEA EaMode.isAll .l m r ws (.cmp .l · r9)
  | _ =>
    match sizeOf op with
    | none => .error .illegal
    | some sz =>
      if m = 1 then .ok (.cmpm sz r r9, ws) else oneEA EaMode.isDataAlterable sz m r ws (.eor sz r9 ·)

/-- Line 1100 (R127). -/
def decodeLineC (r9 op m r : BitVec 3) (ws : List Word) : Decoded :=
  match op with
  | 3 => oneEA EaMode.isData .w m r ws (.mulu · r9)
  | 7 => oneEA EaMode.isData .w m r ws (.muls · r9)
  | 0 => oneEA EaMode.isData .b m r ws (.andEaDn .b · r9)
  | 1 => oneEA EaMode.isData .w m r ws (.andEaDn .w · r9)
  | 2 => oneEA EaMode.isData .l m r ws (.andEaDn .l · r9)
  | 4 =>
    match m with
    | 0 => .ok (.abcd false r r9, ws)
    | 1 => .ok (.abcd true r r9, ws)
    | _ => oneEA EaMode.isMemAlterable .b m r ws (.andDnEa .b r9 ·)
  | 5 =>
    match m with
    | 0 => .ok (.exgDD r9 r, ws)
    | 1 => .ok (.exgAA r9 r, ws)
    | _ => oneEA EaMode.isMemAlterable .w m r ws (.andDnEa .w r9 ·)
  | _ =>
    match m with
    | 1 => .ok (.exgDA r9 r, ws)
    | _ => oneEA EaMode.isMemAlterable .l m r ws (.andDnEa .l r9 ·)

/-- Line 1101 (R127). -/
def decodeLineD (r9 op m r : BitVec 3) (ws : List Word) : Decoded :=
  decodeAddSub r9 op m r ws .addEaDn .addDnEa .adda .addx

/-- Line 1110 (R128). -/
def decodeLineE (r9 op m r : BitVec 3) (ws : List Word) : Decoded :=
  match sizeOf op with
  | some sz =>
    let c := countOf (m.extractLsb' 2 1) r9
    match m.extractLsb' 0 2, op.getLsbD 2 with
    | 0, false => .ok (.asrReg sz c r, ws)
    | 0, true => .ok (.aslReg sz c r, ws)
    | 1, false => .ok (.lsrReg sz c r, ws)
    | 1, true => .ok (.lslReg sz c r, ws)
    | 2, false => .ok (.roxrReg sz c r, ws)
    | 2, true => .ok (.roxlReg sz c r, ws)
    | _, false => .ok (.rorReg sz c r, ws)
    | _, true => .ok (.rolReg sz c r, ws)
  | none =>
    match r9, op.getLsbD 2 with
    | 0, false => oneEA EaMode.isMemAlterable .w m r ws .asrMem
    | 0, true => oneEA EaMode.isMemAlterable .w m r ws .aslMem
    | 1, false => oneEA EaMode.isMemAlterable .w m r ws .lsrMem
    | 1, true => oneEA EaMode.isMemAlterable .w m r ws .lslMem
    | 2, false => oneEA EaMode.isMemAlterable .w m r ws .roxrMem
    | 2, true => oneEA EaMode.isMemAlterable .w m r ws .roxlMem
    | 3, false => oneEA EaMode.isMemAlterable .w m r ws .rorMem
    | 3, true => oneEA EaMode.isMemAlterable .w m r ws .rolMem
    | _, _ => .error .illegal

/-- The decoder on the five fields of the operation word and the extension words (R111, R120). -/
def decodeFields (line : BitVec 4) (r9 op m r : BitVec 3) (ws : List Word) : Decoded :=
  match line with
  | 0x0 => decodeLine0 r9 op m r ws
  | 0x1 => decodeLine1 r9 op m r ws
  | 0x2 => decodeLine2 r9 op m r ws
  | 0x3 => decodeLine3 r9 op m r ws
  | 0x4 => decodeLine4 r9 op m r ws
  | 0x5 => decodeLine5 r9 op m r ws
  | 0x6 => decodeLine6 r9 op m r ws
  | 0x7 => decodeLine7 r9 op m r ws
  | 0x8 => decodeLine8 r9 op m r ws
  | 0x9 => decodeLine9 r9 op m r ws
  | 0xA => .ok (.lineA (r9 ++ op ++ m ++ r), ws)
  | 0xB => decodeLineB r9 op m r ws
  | 0xC => decodeLineC r9 op m r ws
  | 0xD => decodeLineD r9 op m r ws
  | 0xE => decodeLineE r9 op m r ws
  | _ => .ok (.lineF (r9 ++ op ++ m ++ r), ws)

/-- The instruction that an operation word and the words after it begin with, and the words that are left
(R120). -/
def decodeWords : List Word → Decoded
  | [] => .error .truncated
  | w :: ws => decodeFields (lineOf w) (r9Of w) (opOf w) (modeOf w) (regOf w) ws

/-- Words from bytes, the most significant byte first (`20_memory.md` R73). -/
def wordsOfBytes : List Byte → List Word
  | h :: l :: bs => (h ++ l) :: wordsOfBytes bs
  | _ => []

/-- The decoder on bytes as they lie in memory. -/
def decode (bytes : List Byte) : Decoded := decodeWords (wordsOfBytes bytes)

/-! ### The encoder -/

/-- The mode and register fields of an operand (R112). -/
def EA.fields : EA → BitVec 3 × BitVec 3
  | .dn r => (0, r)
  | .an r => (1, r)
  | .ind r => (2, r)
  | .post r => (3, r)
  | .pre r => (4, r)
  | .disp r _ => (5, r)
  | .idx r _ => (6, r)
  | .absW _ => (7, 0)
  | .absL _ => (7, 1)
  | .pcDisp _ => (7, 2)
  | .pcIdx _ => (7, 3)
  | .imm _ => (7, 4)

/-- The two words of a long, high word first (R73). -/
def longWords (v : Long) : List Word := [v.extractLsb' 16 16, v.extractLsb' 0 16]

/-- The extension words of an immediate (R116). -/
def immExt (sz : Size) (v : Long) : List Word :=
  match sz with
  | .b => [v.extractLsb' 0 16]
  | .w => [v.extractLsb' 0 16]
  | .l => longWords v

/-- The extension words of an operand (R112, R116, R117). -/
def EA.ext (sz : Size) : EA → List Word
  | .dn _ | .an _ | .ind _ | .post _ | .pre _ => []
  | .disp _ d => [d]
  | .idx _ x => [x.word]
  | .absW a => [a]
  | .absL a => longWords a
  | .pcDisp d => [d]
  | .pcIdx x => [x.word]
  | .imm v => immExt sz v

/-- The words of an instruction with one operand, given its line, bits 11..9 and bits 8..6. -/
def encEA (line : BitVec 4) (r9 op : BitVec 3) (own : List Word) (sz : Size) (ea : EA) : List Word :=
  pack line r9 op ea.fields.1 ea.fields.2 :: (own ++ ea.ext sz)

/-- The words of a MOVE (R114, R115): the destination's fields lie in bits 11..6, register first. -/
def encMove (line : BitVec 4) (sz : Size) (src dst : EA) : List Word :=
  pack line dst.fields.2 dst.fields.1 src.fields.1 src.fields.2 :: (src.ext sz ++ dst.ext sz)

/-- The words of a branch (R339). -/
def encBranch (c : Cond) (d : Disp) : List Word :=
  match d with
  | .byte v => [0x6#4 ++ c.code ++ v]
  | .word w => [0x6#4 ++ c.code ++ 0#8, w]

/-- The register-pair forms ADDX and SUBX (R114, XFORM). -/
def encPair (line : BitVec 4) (x : Reg) (op : BitVec 3) (mem : Bool) (y : Reg) : List Word :=
  [pack line x op (0#2 ++ BitVec.ofBool mem) y]

/-- A register shift or rotate (R128): `tt` its type, `d` its direction. -/
def encShift (tt : BitVec 2) (d : BitVec 1) (sz : Size) (c : ShiftCount) (r : Reg) : List Word :=
  match c with
  | .imm n => [pack 0xE n (d ++ sz.code.extractLsb' 0 2) (0#1 ++ tt) r]
  | .reg n => [pack 0xE n (d ++ sz.code.extractLsb' 0 2) (1#1 ++ tt) r]

/-- Bits 8..6 of the `Dn,<ea>` and register-pair forms: bit 8 set and the size (R114). -/
def Size.code1 (sz : Size) : BitVec 3 := sz.code ||| 4

/-- Bits 8..6 of the address-register forms (R114, ADDR_ARITH). -/
def codeA (long : Bool) : BitVec 3 := if long then 7 else 3

/-- The words of an instruction (`30_encoding.md` R114, R115 and section 4). -/
def encode : Instr → List Word
  | .ori sz v ea => encEA 0 0 sz.code (immExt sz v) sz ea
  | .andi sz v ea => encEA 0 1 sz.code (immExt sz v) sz ea
  | .subi sz v ea => encEA 0 2 sz.code (immExt sz v) sz ea
  | .addi sz v ea => encEA 0 3 sz.code (immExt sz v) sz ea
  | .eori sz v ea => encEA 0 5 sz.code (immExt sz v) sz ea
  | .cmpi sz v ea => encEA 0 6 sz.code (immExt sz v) sz ea
  | .btst n ea => encEA 0 4 0 [n.setWidth 16] .b ea
  | .bchg n ea => encEA 0 4 1 [n.setWidth 16] .b ea
  | .bclr n ea => encEA 0 4 2 [n.setWidth 16] .b ea
  | .bset n ea => encEA 0 4 3 [n.setWidth 16] .b ea
  | .btstDn d ea => encEA 0 d 4 [] .b ea
  | .bchgDn d ea => encEA 0 d 5 [] .b ea
  | .bclrDn d ea => encEA 0 d 6 [] .b ea
  | .bsetDn d ea => encEA 0 d 7 [] .b ea
  | .movep toMem long d a disp => [pack 0 d (1#1 ++ BitVec.ofBool toMem ++ BitVec.ofBool long) 1 a, disp]
  | .oriToCcr v => [pack 0 0 0 7 4, v]
  | .oriToSr v => [pack 0 0 1 7 4, v]
  | .andiToCcr v => [pack 0 1 0 7 4, v]
  | .andiToSr v => [pack 0 1 1 7 4, v]
  | .eoriToCcr v => [pack 0 5 0 7 4, v]
  | .eoriToSr v => [pack 0 5 1 7 4, v]
  | .moveB src dst => encMove 1 .b src dst
  | .moveW src dst => encMove 3 .w src dst
  | .moveaW src a => encEA 3 a 1 [] .w src
  | .moveL src dst => encMove 2 .l src dst
  | .moveaL src a => encEA 2 a 1 [] .l src
  | .negx sz ea => encEA 4 0 sz.code [] sz ea
  | .clr sz ea => encEA 4 1 sz.code [] sz ea
  | .neg sz ea => encEA 4 2 sz.code [] sz ea
  | .not sz ea => encEA 4 3 sz.code [] sz ea
  | .tst sz ea => encEA 4 5 sz.code [] sz ea
  | .moveFromSr ea => encEA 4 0 3 [] .w ea
  | .moveToCcr ea => encEA 4 2 3 [] .w ea
  | .moveToSr ea => encEA 4 3 3 [] .w ea
  | .nbcd ea => encEA 4 4 0 [] .b ea
  | .swap r => [pack 4 4 1 0 r]
  | .pea ea => encEA 4 4 1 [] .l ea
  | .extW r => [pack 4 4 2 0 r]
  | .extL r => [pack 4 4 3 0 r]
  | .movemToMem long mask ea => encEA 4 4 (1#2 ++ BitVec.ofBool long) [mask] (wordOrLong long) ea
  | .movemToRegs long mask ea => encEA 4 6 (1#2 ++ BitVec.ofBool long) [mask] (wordOrLong long) ea
  | .tas ea => encEA 4 5 3 [] .b ea
  | .illegal => [pack 4 5 3 7 4]
  | .trap v => [pack 4 7 1 (0#2 ++ v.extractLsb' 3 1) (v.extractLsb' 0 3)]
  | .link r d => [pack 4 7 1 2 r, d]
  | .unlk r => [pack 4 7 1 3 r]
  | .moveUsp toReg r => [pack 4 7 1 (2#2 ++ BitVec.ofBool toReg) r]
  | .reset => [pack 4 7 1 6 0]
  | .nop => [pack 4 7 1 6 1]
  | .stop v => [pack 4 7 1 6 2, v]
  | .rte => [pack 4 7 1 6 3]
  | .rts => [pack 4 7 1 6 5]
  | .trapv => [pack 4 7 1 6 6]
  | .rtr => [pack 4 7 1 6 7]
  | .jsr ea => encEA 4 7 2 [] .l ea
  | .jmp ea => encEA 4 7 3 [] .l ea
  | .lea ea a => encEA 4 a 7 [] .l ea
  | .chk ea d => encEA 4 d 6 [] .w ea
  | .addq sz q ea => encEA 5 q sz.code [] sz ea
  | .subq sz q ea => encEA 5 q sz.code1 [] sz ea
  | .scc c ea => encEA 5 (c.code.extractLsb' 1 3) (c.code.extractLsb' 0 1 ++ 3#2) [] .b ea
  | .dbcc c r d => [pack 5 (c.code.extractLsb' 1 3) (c.code.extractLsb' 0 1 ++ 3#2) 1 r, d]
  | .bra d => encBranch .t d
  | .bsr d => encBranch .f d
  | .bcc c d => encBranch c d
  | .moveq v r => [0x7#4 ++ r ++ 0#1 ++ v]
  | .orEaDn sz ea d => encEA 8 d sz.code [] sz ea
  | .orDnEa sz d ea => encEA 8 d sz.code1 [] sz ea
  | .divu ea d => encEA 8 d 3 [] .w ea
  | .divs ea d => encEA 8 d 7 [] .w ea
  | .sbcd mem y x => encPair 8 x 4 mem y
  | .subEaDn sz ea d => encEA 9 d sz.code [] sz ea
  | .subDnEa sz d ea => encEA 9 d sz.code1 [] sz ea
  | .suba long ea a => encEA 9 a (codeA long) [] (wordOrLong long) ea
  | .subx sz mem y x => encPair 9 x sz.code1 mem y
  | .cmp sz ea d => encEA 0xB d sz.code [] sz ea
  | .cmpa long ea a => encEA 0xB a (codeA long) [] (wordOrLong long) ea
  | .eor sz d ea => encEA 0xB d sz.code1 [] sz ea
  | .cmpm sz y x => [pack 0xB x sz.code1 1 y]
  | .andEaDn sz ea d => encEA 0xC d sz.code [] sz ea
  | .andDnEa sz d ea => encEA 0xC d sz.code1 [] sz ea
  | .mulu ea d => encEA 0xC d 3 [] .w ea
  | .muls ea d => encEA 0xC d 7 [] .w ea
  | .abcd mem y x => encPair 0xC x 4 mem y
  | .exgDD x y => [pack 0xC x 5 0 y]
  | .exgAA x y => [pack 0xC x 5 1 y]
  | .exgDA x y => [pack 0xC x 6 1 y]
  | .addEaDn sz ea d => encEA 0xD d sz.code [] sz ea
  | .addDnEa sz d ea => encEA 0xD d sz.code1 [] sz ea
  | .adda long ea a => encEA 0xD a (codeA long) [] (wordOrLong long) ea
  | .addx sz mem y x => encPair 0xD x sz.code1 mem y
  | .asrReg sz c r => encShift 0 0 sz c r
  | .asrMem ea => encEA 0xE 0 3 [] .w ea
  | .aslReg sz c r => encShift 0 1 sz c r
  | .aslMem ea => encEA 0xE 0 7 [] .w ea
  | .lsrReg sz c r => encShift 1 0 sz c r
  | .lsrMem ea => encEA 0xE 1 3 [] .w ea
  | .lslReg sz c r => encShift 1 1 sz c r
  | .lslMem ea => encEA 0xE 1 7 [] .w ea
  | .roxrReg sz c r => encShift 2 0 sz c r
  | .roxrMem ea => encEA 0xE 2 3 [] .w ea
  | .roxlReg sz c r => encShift 2 1 sz c r
  | .roxlMem ea => encEA 0xE 2 7 [] .w ea
  | .rorReg sz c r => encShift 3 0 sz c r
  | .rorMem ea => encEA 0xE 3 3 [] .w ea
  | .rolReg sz c r => encShift 3 1 sz c r
  | .rolMem ea => encEA 0xE 3 7 [] .w ea
  | .lineA x => [0xA#4 ++ x]
  | .lineF x => [0xF#4 ++ x]

/-- The bytes of an instruction as they lie in memory (`20_memory.md` R73). -/
def bytesOfWords : List Word → List Byte
  | [] => []
  | w :: ws => w.extractLsb' 8 8 :: w.extractLsb' 0 8 :: bytesOfWords ws

/-! ### The opcode table's words -/

/-- The longest instruction: five words (R110). -/
def maxWords : Nat := 5

/-- The words of an instruction of the opcode table whose bits are `w`: bits 15..0 are the first word, and
every bit from `nbits` up is zero. -/
def tableWords (nbits w : Nat) : List Word :=
  (List.range maxWords).map fun k => BitVec.ofNat 16 ((w % 2 ^ nbits) / 2 ^ (16 * k))

/-- The instruction the decoder reads from a word of the opcode table, its words laid out in memory order. -/
def decodeTableWord (nbits w : Nat) : Option Instr :=
  match decode (bytesOfWords (tableWords nbits w)) with
  | .ok (i, _) => some i
  | .error _ => none

end Sys2Proof
end

