-- ==== Sys2Proof/Machine/Memory.lean ====
section
/-! DEFINITION. Memory: the bytes of the one address space (`20_memory.md` R70), as a list of address and byte
pairs in one canonical form, with big-endian words and longs (R73), and how many address bits reach them (R72). -/

namespace Sys2Proof.Machine

/-- The bytes that are not `Config.unlistedByte`, with their addresses, which rise (R70). -/
abbrev Cells := List Host.Cell

/-- The byte at an address; an unlisted address reads as `Config.unlistedByte` (log entry 3). -/
def Cells.cell : Cells → Nat → Byte
  | [], _ => Config.unlistedByte
  | c :: m, k => if c.1 = k then c.2 else Cells.cell m k

/-- The cells without those of an address. -/
def Cells.without (m : Cells) (k : Nat) : Cells := m.filter fun c => c.1 != k

/-- The cells with one more, in its place by address. -/
def Cells.addCell : Cells → Nat → Byte → Cells
  | [], k, v => [(k, v)]
  | c :: m, k, v => if k < c.1 then (k, v) :: c :: m else c :: Cells.addCell m k v

/-- The cells with a byte written; a byte equal to what an unlisted address reads as leaves no cell. -/
def Cells.setCell (m : Cells) (k : Nat) (v : Byte) : Cells :=
  if v = Config.unlistedByte then m.without k else (m.without k).addCell k v

/-- Memory: the one address space, as wide as the platform's address bus (R70, R72). -/
structure Memory where
  /-- `ADDR_BITS`, the platform's argument: how many low address bits select a byte (`00_scope.md` R6, D2) -/
  addrBits : Nat
  /-- the bytes -/
  cells : Cells
deriving DecidableEq, Repr

/-- Memory with nothing listed, at the MC68000's address width (log entry 3). -/
def Memory.empty : Memory := { addrBits := Config.addrBits, cells := [] }

/-- `addr_mask`: the low `ADDR_BITS` bits (`00_scope.md` R6). -/
def Memory.addrMask (m : Memory) : Long := BitVec.ofNat 32 (2 ^ m.addrBits - 1)

/-- The memory byte that an address selects: `addr & addr_mask` (R72). -/
def Memory.key (m : Memory) (a : Long) : Nat := (a &&& m.addrMask).toNat

/-- The address width is one that a processor can have: the vector table's 1024 bytes fit (`60_exceptions.md` R430), and
an address has 32 bits (R72; log entry 25). -/
abbrev Memory.addressable (m : Memory) : Prop := 10 ≤ m.addrBits ∧ m.addrBits ≤ 32

/-- The canonical form: addresses strictly rising and inside the address space, no cell equal to what an
unlisted address reads as. -/
abbrev Memory.wf (m : Memory) : Prop :=
  m.addressable ∧ m.cells.Pairwise (fun c d => c.1 < d.1) ∧
    ∀ c ∈ m.cells, c.2 ≠ Config.unlistedByte ∧ c.1 < 2 ^ m.addrBits

/-- The byte at an address of the bus (R72, R74). -/
def Memory.byte (m : Memory) (a : Long) : Byte := m.cells.cell (m.key a)

/-- The word at an address, most significant byte first (R73, R74). -/
def Memory.word (m : Memory) (a : Long) : Word := m.byte a ++ m.byte (a + 1)

/-- The long at an address, most significant byte first (R73, R74). -/
def Memory.long (m : Memory) (a : Long) : Long := m.word a ++ m.word (a + 2)

/-- The memory with a byte stored (R75). -/
def Memory.setByte (m : Memory) (a : Long) (v : Byte) : Memory := { m with cells := m.cells.setCell (m.key a) v }

/-- The memory with a word stored, most significant byte first (R73, R75). -/
def Memory.setWord (m : Memory) (a : Long) (v : Word) : Memory :=
  (m.setByte a (v.extractLsb' 8 8)).setByte (a + 1) (v.extractLsb' 0 8)

/-- The memory with a long stored, most significant byte first (R73, R75). -/
def Memory.setLong (m : Memory) (a : Long) (v : Long) : Memory :=
  (m.setWord a (v.extractLsb' 16 16)).setWord (a + 2) (v.extractLsb' 0 16)

/-- `b` is one of the `n` bytes from `a` upward, on the bus (R72). -/
abbrev Memory.inRange (m : Memory) (a : Long) (n : Nat) (b : Long) : Prop :=
  ∃ i, i < n ∧ m.key (a + BitVec.ofNat 32 i) = m.key b

/-- `MemRead` of an operand of a size, without its checks (R74). -/
def Memory.load (m : Memory) (sz : Size) (a : Long) : BitVec sz.bits :=
  match sz with
  | .b => m.byte a
  | .w => m.word a
  | .l => m.long a

/-- `MemWrite` of an operand of a size, without its checks (R75). -/
def Memory.store (m : Memory) (sz : Size) (a : Long) (v : BitVec sz.bits) : Memory :=
  match sz with
  | .b => m.setByte a v
  | .w => m.setWord a v
  | .l => m.setLong a v

end Sys2Proof.Machine
end

