-- ==== Sys2Proof/Machine/State.lean ====
section
/-! DEFINITION. The state of the machine as plain data: all that `10_state.md` gives it, the platform's
arguments of `00_scope.md` R6, and the reasons a step could stop, of which none arises. -/

namespace Sys2Proof.Machine

/-- The implemented bits of the status register (`10_state.md` R40); the others read 0 and ignore writes, so
they hold nothing (log entry 17). -/
structure StatusReg where
  /-- bit 15: trace enable -/
  t : Bool
  /-- bit 13: supervisor state -/
  s : Bool
  /-- bits 10..8: interrupt priority mask -/
  i : BitVec 3
  /-- bit 4: extend -/
  x : Bool
  /-- bit 3: negative -/
  n : Bool
  /-- bit 2: zero -/
  z : Bool
  /-- bit 1: overflow -/
  v : Bool
  /-- bit 0: carry -/
  c : Bool
deriving DecidableEq, Repr

/-- The run states (R48, `60_exceptions.md` R452). -/
inductive RunState where
  | running
  /-- entered by STOP; left by an interrupt, a trace exception or a reset (`49_not_documented.md` R609) -/
  | stopped
  /-- entered by a double bus fault; left by a reset only -/
  | halted
deriving DecidableEq, Repr

/-- What the platform answers to an interrupt acknowledge, `ivec` of R460. -/
inductive Acknowledge where
  /-- the device asks for an autovector: 24 + level -/
  | autovector
  /-- the device supplies a number: 64..255, or 15 when it was never given one. Any other byte is taken as the vector number
  too: DESIGN CHOICE (log entry 28), unsafe -/
  | vector (v : Byte)
  /-- the acknowledge cycle ends in a bus error: 24 -/
  | spurious
deriving DecidableEq, Repr

/-- What the platform presents at one instruction boundary (R460, `70_reset_and_hazards.md` R490). -/
structure BusInput where
  /-- `ipl`: the interrupt request level, 0 for none -/
  ipl : BitVec 3
  /-- `ivec`: the answer if that interrupt is acknowledged -/
  ack : Acknowledge
  /-- an external reset -/
  reset : Bool
deriving DecidableEq, Repr

/-- A range of memory bytes at which the platform does not answer some accesses: where `mapped(addr, kind, S)`
of `20_memory.md` R83 is false. -/
structure Hole where
  /-- the first byte of the range -/
  first : Nat
  /-- the last byte of the range -/
  last : Nat
  /-- instruction fetches are not answered -/
  fetch : Bool
  /-- reads are not answered -/
  read : Bool
  /-- writes are not answered -/
  write : Bool
  /-- the range is so in user state (S = 0) -/
  user : Bool
  /-- the range is so in supervisor state (S = 1) -/
  supervisor : Bool
deriving DecidableEq, Repr

/-- The machine. -/
structure State where
  /-- D0 to D7 (R30) -/
  d : Vector Long 8
  /-- A0 to A6 (R31); A7 is `usp` or `ssp` (R33) -/
  a : Vector Long 7
  /-- the user stack pointer (R33) -/
  usp : Long
  /-- the supervisor stack pointer (R33) -/
  ssp : Long
  /-- the program counter (R35) -/
  pc : Long
  /-- the status register (R40) -/
  sr : StatusReg
  /-- memory (`20_memory.md` R70), with the platform's `addr_mask` (`00_scope.md` R6) -/
  mem : Memory
  /-- the prefetch queue: words read ahead with their addresses (R48, R92) -/
  prefetch : List (Long × Word)
  /-- the instruction register: the operation word last fetched, which a bus or address error stacks
  (`60_exceptions.md` R443) -/
  ir : Word
  /-- the run state (R48) -/
  run : RunState
  /-- the model's own latch, set only inside a step: the instruction began with T = 1 and a trace exception is
  due after it (R470; log entry 10) -/
  traceDue : Bool
  /-- what the platform will present at the next instruction boundaries, one entry each; none is level 0
  (R460; log entry 12) -/
  inputs : List BusInput
  /-- `ipl(t-1)`: the level at the last boundary (R460) -/
  lastIpl : BitVec 3
  /-- the addresses that do not answer (`20_memory.md` R83; log entry 6) -/
  holes : List Hole
  /-- `halt_addr`, where a run is deemed finished (`70_reset_and_hazards.md` R510; log entry 13) -/
  haltAddr : Option Long
  /-- the model's own counter of the free values used so far (`00_scope.md` R9 `draw`; log entry 1) -/
  draws : Nat
deriving DecidableEq, Repr

/-- Why a step can stop with a fault: nothing, so this type has no constructor. The spec describes the hardware's effect
wherever its own model has a terminal fault, and a halted processor waits for a reset (`60_exceptions.md` R452; log
entries 5, 6, 9 and 11). -/
inductive Fault where
deriving DecidableEq, Repr

/-- Why a step can be refused. -/
inductive Refusal where
  /-- The instruction has no meaning in this model. Raised by an arm of `exec` alone; every arm has a meaning, so
  nothing raises it. Safe: the machine would stop where the hardware goes on. -/
  | notModelled (mnemonic : String)
deriving DecidableEq, Repr

/-- The status register after reset: supervisor state, no trace, mask 7 (R49, `70_reset_and_hazards.md` R490).
The five flags, for which the spec gives no value, are 0. DESIGN CHOICE (log entry 2), unsafe. -/
def StatusReg.reset : StatusReg :=
  { t := false, s := true, i := 7, x := false, n := false, z := false, v := false, c := false }

/-- The machine right after reset over a given memory: SSP and PC are the longs at addresses 0 and 4 (R49,
`70_reset_and_hazards.md` R490). D0 to D7, A0 to A6 and USP, for which the spec gives no value, are 0.
DESIGN CHOICE (log entry 2), unsafe. -/
def State.resetOver (m : Memory) : State :=
  { d := Vector.replicate 8 0
    a := Vector.replicate 7 0
    usp := 0
    ssp := m.long Config.vectorBase
    pc := m.long (Config.vectorBase + 4)
    sr := StatusReg.reset
    mem := m
    prefetch := []
    ir := 0
    run := .running
    traceDue := false
    inputs := []
    lastIpl := 0
    holes := []
    haltAddr := none
    draws := 0 }

/-- The machine right after reset, with nothing in memory (log entry 15). -/
def State.reset : State := State.resetOver Memory.empty

end Sys2Proof.Machine
end

