-- ==== Sys2Proof/Machine/Flags.lean ====
section
/-! DEFINITION. The status register as a word, the condition tests, and what every operation computes: its
result and its flags (`10_state.md` section 3, `41_arithmetic.md`, `43_logic.md`, `44_shift_rotate.md`). -/

namespace Sys2Proof.Machine

/-! ### The status register as a word (R40) -/

/-- The low five bits of SR, the flags X N Z V C (R40). -/
def StatusReg.flags (f : StatusReg) : BitVec 5 :=
  BitVec.ofBool f.x ++ BitVec.ofBool f.n ++ BitVec.ofBool f.z ++ BitVec.ofBool f.v ++ BitVec.ofBool f.c

/-- SR as the word a read returns: the unimplemented bits are 0 (R40). -/
def StatusReg.toWord (f : StatusReg) : Word :=
  BitVec.ofBool f.t ++ 0#1 ++ BitVec.ofBool f.s ++ 0#2 ++ f.i ++ 0#3 ++ f.flags

/-- The status register with its low byte CCR written: bits 7..5 are dropped (R40,
`49_not_documented.md` R603). -/
def StatusReg.setCcr (f : StatusReg) (w : Word) : StatusReg :=
  { f with x := w.getLsbD 4, n := w.getLsbD 3, z := w.getLsbD 2, v := w.getLsbD 1, c := w.getLsbD 0 }

/-- SR after a word is written to it: the unimplemented bits are dropped, which is `w & 0xA71F` (R40). -/
def StatusReg.ofWord (w : Word) : StatusReg :=
  { t := w.getLsbD 15, s := w.getLsbD 13, i := w.extractLsb' 8 3,
    x := w.getLsbD 4, n := w.getLsbD 3, z := w.getLsbD 2, v := w.getLsbD 1, c := w.getLsbD 0 }

/-- CCR as a word: the flags, zero above (R40). -/
def StatusReg.ccr (f : StatusReg) : Word := 0#11 ++ f.flags

/-- `cond(cc)` (R46). -/
def condHolds (f : StatusReg) : Cond → Bool
  | .t => true
  | .f => false
  | .hi => !f.c && !f.z
  | .ls => f.c || f.z
  | .cc => !f.c
  | .cs => f.c
  | .ne => !f.z
  | .eq => f.z
  | .vc => !f.v
  | .vs => f.v
  | .pl => !f.n
  | .mi => f.n
  | .ge => f.n == f.v
  | .lt => f.n != f.v
  | .gt => !f.z && f.n == f.v
  | .le => f.z || f.n != f.v

/-! ### Carry and overflow (`00_scope.md` R11) -/

/-- A bit as a value of any width. -/
def bit (n : Nat) (x : Bool) : BitVec n := if x then 1 else 0

/-- `carry` of an addition (R11): the sum as integers reaches 2^n. -/
def carryAdd {n : Nat} (s d : BitVec n) (x : Bool) : Bool := decide (2 ^ n ≤ d.toNat + s.toNat + x.toNat)

/-- `overflow` of an addition with result `r` (R11). -/
def overflowAdd {n : Nat} (s d r : BitVec n) : Bool := s.msb == d.msb && r.msb != d.msb

/-- `borrow` of a subtraction `d - s - x` (R11): as integers `s + x` exceeds `d`. -/
def borrowSub {n : Nat} (s d : BitVec n) (x : Bool) : Bool := decide (d.toNat < s.toNat + x.toNat)

/-- `overflow` of a subtraction `d - s - x` with result `r` (R11). -/
def overflowSub {n : Nat} (s d r : BitVec n) : Bool := s.msb != d.msb && r.msb != d.msb

/-- `AddFlags(s, d, x, r, n)` (`41_arithmetic.md` R206): C, V and N. -/
def StatusReg.addFlags {n : Nat} (f : StatusReg) (s d : BitVec n) (x : Bool) (r : BitVec n) : StatusReg :=
  { f with c := carryAdd s d x, v := overflowAdd s d r, n := r.msb }

/-- `SubFlags(s, d, x, r, n)` (`41_arithmetic.md` R207): C, V and N. -/
def StatusReg.subFlags {n : Nat} (f : StatusReg) (s d : BitVec n) (x : Bool) (r : BitVec n) : StatusReg :=
  { f with c := borrowSub s d x, v := overflowSub s d r, n := r.msb }

/-- `Z <- (r = 0)`. -/
def StatusReg.zero {n : Nat} (f : StatusReg) (r : BitVec n) : StatusReg := { f with z := decide (r = 0) }

/-- `if r != 0 then Z <- 0`, else Z is unchanged (R210, R215, R223, R228). -/
def StatusReg.stickyZero {n : Nat} (f : StatusReg) (r : BitVec n) : StatusReg := { f with z := f.z && decide (r = 0) }

/-- `X <- C`. -/
def StatusReg.copyCarry (f : StatusReg) : StatusReg := { f with x := f.c }

/-- `LogicFlags(r, n)` (`43_logic.md` R287): N and Z from the result, V and C cleared. -/
def StatusReg.logicFlags {n : Nat} (f : StatusReg) (r : BitVec n) : StatusReg :=
  { f with n := r.msb, z := decide (r = 0), v := false, c := false }

/-! ### Addition, subtraction and comparison (`41_arithmetic.md`) -/

/-- An operation's result and the status register after it. -/
abbrev Result (n : Nat) := BitVec n × StatusReg

/-- ADD, ADDI, ADDQ: `d + s` and all five flags (R211, R213, R214). -/
def addResult {n : Nat} (s d : BitVec n) (f : StatusReg) : Result n :=
  (d + s, ((f.addFlags s d false (d + s)).zero (d + s)).copyCarry)

/-- ADDX: `d + s + X`; Z is only ever cleared (R215). -/
def addxResult {n : Nat} (s d : BitVec n) (f : StatusReg) : Result n :=
  let r := d + s + bit n f.x
  (r, ((f.addFlags s d f.x r).stickyZero r).copyCarry)

/-- SUB, SUBI, SUBQ: `d - s` and all five flags (R224, R226, R227). -/
def subResult {n : Nat} (s d : BitVec n) (f : StatusReg) : Result n :=
  (d - s, ((f.subFlags s d false (d - s)).zero (d - s)).copyCarry)

/-- SUBX: `d - s - X`; Z is only ever cleared (R228). -/
def subxResult {n : Nat} (s d : BitVec n) (f : StatusReg) : Result n :=
  let r := d - s - bit n f.x
  (r, ((f.subFlags s d f.x r).stickyZero r).copyCarry)

/-- CMP, CMPA, CMPI, CMPM: the flags of `d - s`; X is unchanged (R217 to R220). -/
def cmpFlags {n : Nat} (s d : BitVec n) (f : StatusReg) : StatusReg := (f.subFlags s d false (d - s)).zero (d - s)

/-- NEG: `0 - d`, by `SubFlags` with the operand as the subtrahend (R222). -/
def negResult {n : Nat} (d : BitVec n) (f : StatusReg) : Result n := subResult d 0 f

/-- NEGX: `0 - d - X`; Z is only ever cleared (R223). -/
def negxResult {n : Nat} (d : BitVec n) (f : StatusReg) : Result n := subxResult d 0 f

/-- A logical operation's result with its flags (R280 to R286). -/
def logicResult {n : Nat} (r : BitVec n) (f : StatusReg) : Result n := (r, f.logicFlags r)

/-! ### Decimal arithmetic (`41_arithmetic.md` R210, `49_not_documented.md` R607) -/

/-- A byte is packed BCD: both digits are at most 9 (R210). -/
def isBcd (v : Byte) : Bool := decide ((v.extractLsb' 4 4).toNat ≤ 9) && decide ((v.extractLsb' 0 4).toNat ≤ 9)

/-- The number a packed BCD byte stands for (R210). -/
def bcdValue (v : Byte) : Nat := 10 * (v.extractLsb' 4 4).toNat + (v.extractLsb' 0 4).toNat

/-- The packed BCD byte of a number below 100: the tens digit in bits 7..4 (R210). -/
def bcdByte (u : Nat) : Byte := BitVec.ofNat 4 (u / 10) ++ BitVec.ofNat 4 (u % 10)

/-- The decimal sum of two packed BCD bytes and X, and its carry (R210). -/
def bcdAdd (s d : Byte) (x : Bool) : Byte × Bool :=
  let t := bcdValue s + bcdValue d + x.toNat
  (bcdByte (t % 100), decide (100 ≤ t))

/-- The decimal difference `d - s - X` of two packed BCD bytes, and its borrow: the counterpart of `bcdAdd`
(R607). -/
def bcdSub (s d : Byte) (x : Bool) : Byte × Bool :=
  let t := 100 + bcdValue d - bcdValue s - x.toNat
  (bcdByte (t % 100), decide (t < 100))

/-- The flags of a decimal operation with result `r` and carry `c`; `n` and `v` are the values of N and V, which
the source calls undefined (R210). -/
def StatusReg.decimalFlags (f : StatusReg) (r : Byte) (c n v : Bool) : StatusReg :=
  { f.stickyZero r with c := c, x := c, n := n, v := v }

/-! ### Multiplication and division (`42_multiply_divide.md`) -/

/-- The unsigned product of two words (R263). -/
def muluProduct (s d : Word) : Long := s.setWidth 32 * d.setWidth 32

/-- The signed product of two words (R262). -/
def mulsProduct (s d : Word) : Long := s.signExtend 32 * d.signExtend 32

/-- The quotient and remainder of DIVU as they stand in the register, remainder in the upper word (R260); none
when the quotient exceeds 16 bits. The divisor is not zero. -/
def divuResult (s : Word) (d : Long) : Option (Word × Word) :=
  if d.toNat / s.toNat ≤ 0xFFFF then
    some (BitVec.ofNat 16 (d.toNat / s.toNat), BitVec.ofNat 16 (d.toNat % s.toNat))
  else none

/-- The quotient, rounded toward zero, and the remainder of DIVS (R261); none when the quotient is no signed
16-bit number. The divisor is not zero. -/
def divsResult (s : Word) (d : Long) : Option (Word × Word) :=
  let q := d.toInt.tdiv s.toInt
  if -32768 ≤ q ∧ q ≤ 32767 then some (BitVec.ofInt 16 q, BitVec.ofInt 16 (d.toInt - q * s.toInt)) else none

/-- The flags after a division that fits: N and Z from the 16-bit quotient, V and C cleared (R260, R261). -/
def StatusReg.quotientFlags (f : StatusReg) (q : Word) : StatusReg := f.logicFlags q

/-- The flags after a division that overflows: V set, C cleared; `n` and `z` are the values of N and Z, which the
source calls undefined (R260, R261). -/
def StatusReg.divOverflowFlags (f : StatusReg) (n z : Bool) : StatusReg := { f with n := n, z := z, v := true, c := false }

/-- The flags after a division by zero: C cleared; `n`, `z` and `v` are the values of N, Z and V, which the source
calls undefined (R260, R261). -/
def StatusReg.divZeroFlags (f : StatusReg) (n z v : Bool) : StatusReg := { f with n := n, z := z, v := v, c := false }

/-! ### Bits (`46_bit.md`) -/

/-- `Z <- (v[b] = 0)`; no other flag changes (R364, R365). -/
def StatusReg.bitFlag {n : Nat} (f : StatusReg) (v : BitVec n) (b : Nat) : StatusReg := { f with z := !v.getLsbD b }

/-- BCHG: the bit inverted (R360). -/
def bitChange {n : Nat} (v : BitVec n) (b : Nat) : BitVec n := v ^^^ (1#n <<< b)

/-- BCLR: the bit cleared (R361). -/
def bitClear {n : Nat} (v : BitVec n) (b : Nat) : BitVec n := v &&& ~~~(1#n <<< b)

/-- BSET: the bit set (R362). -/
def bitSet {n : Nat} (v : BitVec n) (b : Nat) : BitVec n := v ||| (1#n <<< b)

/-! ### Shifts and rotates (`44_shift_rotate.md`): `c` repetitions of a one-bit step (R301) -/

/-- `repeat c times`. -/
def repeatStep {α : Type} (step : α → α) : Nat → α → α
  | 0, p => p
  | c + 1, p => repeatStep step c (step p)

/-- One step of ASL: V is set when the most significant bit changes (R302). -/
def aslStep {n : Nat} (p : Result n) : Result n :=
  let v := p.1 <<< 1
  (v, { p.2 with v := p.2.v || v.msb != p.1.msb, c := p.1.msb, x := p.1.msb })

/-- One step of ASR: the sign is replicated (R303). -/
def asrStep {n : Nat} (p : Result n) : Result n :=
  (p.1.sshiftRight 1, { p.2 with c := p.1.getLsbD 0, x := p.1.getLsbD 0 })

/-- One step of LSL (R304). -/
def lslStep {n : Nat} (p : Result n) : Result n := (p.1 <<< 1, { p.2 with c := p.1.msb, x := p.1.msb })

/-- One step of LSR (R305). -/
def lsrStep {n : Nat} (p : Result n) : Result n := (p.1 >>> 1, { p.2 with c := p.1.getLsbD 0, x := p.1.getLsbD 0 })

/-- One step of ROL: the bit out goes to C and back into bit 0 (R306). -/
def rolStep {n : Nat} (p : Result n) : Result n := ((p.1 <<< 1) ||| bit n p.1.msb, { p.2 with c := p.1.msb })

/-- One step of ROR: the bit out goes to C and back into the most significant bit (R307). -/
def rorStep {n : Nat} (p : Result n) : Result n :=
  ((p.1 >>> 1) ||| (bit n (p.1.getLsbD 0) <<< (n - 1)), { p.2 with c := p.1.getLsbD 0 })

/-- One step of ROXL: X goes into bit 0, the bit out goes to X (R308). -/
def roxlStep {n : Nat} (p : Result n) : Result n := ((p.1 <<< 1) ||| bit n p.2.x, { p.2 with x := p.1.msb })

/-- One step of ROXR: X goes into the most significant bit, the bit out goes to X (R309). -/
def roxrStep {n : Nat} (p : Result n) : Result n :=
  ((p.1 >>> 1) ||| (bit n p.2.x <<< (n - 1)), { p.2 with x := p.1.getLsbD 0 })

/-- `N <- r[n-1]; Z <- (r = 0)`, also for a count of zero (R301). -/
def signZero {n : Nat} (p : Result n) : Result n := (p.1, { p.2 with n := p.1.msb, z := decide (p.1 = 0) })

/-- A shift or a rotate without extend: V and C are cleared first, so that a count of zero leaves them 0. -/
def shiftBy {n : Nat} (step : Result n → Result n) (v : BitVec n) (c : Nat) (f : StatusReg) : Result n :=
  signZero (repeatStep step c (v, { f with v := false, c := false }))

/-- A rotate through extend: V is cleared, and C is X at the end, also for a count of zero (R308, R309). -/
def rotateExtendBy {n : Nat} (step : Result n → Result n) (v : BitVec n) (c : Nat) (f : StatusReg) : Result n :=
  let p := signZero (repeatStep step c (v, { f with v := false }))
  (p.1, { p.2 with c := p.2.x })

/-- What a shift or rotate computes from its operand, its count and the flags. -/
abbrev ShiftOp := (n : Nat) → BitVec n → Nat → StatusReg → Result n

/-- ASL (R302). -/
def aslResult : ShiftOp := fun _ => shiftBy aslStep
/-- ASR (R303). -/
def asrResult : ShiftOp := fun _ => shiftBy asrStep
/-- LSL (R304). -/
def lslResult : ShiftOp := fun _ => shiftBy lslStep
/-- LSR (R305). -/
def lsrResult : ShiftOp := fun _ => shiftBy lsrStep
/-- ROL (R306). -/
def rolResult : ShiftOp := fun _ => shiftBy rolStep
/-- ROR (R307). -/
def rorResult : ShiftOp := fun _ => shiftBy rorStep
/-- ROXL (R308). -/
def roxlResult : ShiftOp := fun _ => rotateExtendBy roxlStep
/-- ROXR (R309). -/
def roxrResult : ShiftOp := fun _ => rotateExtendBy roxrStep

end Sys2Proof.Machine
end

