-- ==== Sys2Proof/Machine/Ops.lean ====
section
/-! DEFINITION. The named operations over registers and memory, taking an exception and returning from one
(`10_state.md`, `20_memory.md`, `60_exceptions.md`). -/

namespace Sys2Proof.Machine

/-! ### Registers (R30, R31, R33) -/

/-- `D[r]` (R30). -/
def State.getD (s : State) (r : Reg) : Long := s.d[r.toFin]

/-- `D[r] <- v`, all 32 bits (R30). -/
def State.setD (s : State) (r : Reg) (v : Long) : State := { s with d := s.d.set r.toNat v r.isLt }

/-- SP, the active stack pointer: SSP in supervisor state, else USP (R33). -/
def State.sp (s : State) : Long := if s.sr.s then s.ssp else s.usp

/-- `SP <- v` (R33). -/
def State.setSp (s : State) (v : Long) : State := if s.sr.s then { s with ssp := v } else { s with usp := v }

/-- `A[r]`; A7 is the active stack pointer (R31, R33). -/
def State.getA (s : State) (r : Reg) : Long := if h : r.toNat < 7 then s.a[r.toNat] else s.sp

/-- `A[r] <- v`, all 32 bits; A7 is the active stack pointer (R31, R33). -/
def State.setA (s : State) (r : Reg) (v : Long) : State :=
  if h : r.toNat < 7 then { s with a := s.a.set r.toNat v h } else s.setSp v

/-- The low bits of a register that an operation of a size reads (R30, R31). -/
def low (sz : Size) (v : Long) : BitVec sz.bits := v.setWidth sz.bits

/-- A register with its low bits replaced; the higher bits keep their value (R30). -/
def merge (sz : Size) (old : Long) (v : BitVec sz.bits) : Long :=
  match sz with
  | .b => old.extractLsb' 8 24 ++ v
  | .w => old.extractLsb' 16 16 ++ v
  | .l => v

/-- `D[r][n-1:0]` (R30). -/
def State.getDn (s : State) (sz : Size) (r : Reg) : BitVec sz.bits := low sz (s.getD r)

/-- `D[r][n-1:0] <- v` (R30). -/
def State.setDn (s : State) (sz : Size) (r : Reg) (v : BitVec sz.bits) : State := s.setD r (merge sz (s.getD r) v)

/-- SR or its flags written. -/
def State.setSr (s : State) (f : StatusReg) : State := { s with sr := f }

/-- `pc <- npc`: past an instruction of `n` words (R37). -/
def State.advance (s : State) (n : Nat) : State := { s with pc := s.pc + 2 * BitVec.ofNat 32 n }

/-- `npc` of an instruction of `n` words at `pc` (R37). -/
def State.npc (s : State) (n : Nat) : Long := s.pc + 2 * BitVec.ofNat 32 n

/-- A transfer of control: `pc <- a`, and the prefetch queue is refilled from memory (R92). -/
def State.jump (s : State) (a : Long) : State := { s with pc := a, prefetch := [] }

/-! ### Accesses that memory does not answer (`20_memory.md` R71, R74 to R79, R83) -/

/-- The kinds of access (R71). -/
inductive AccessKind where
  | fetch | read | write
deriving DecidableEq, Repr

/-- The two spaces the function code tells apart (R71). -/
inductive Space where
  | data | program
deriving DecidableEq, Repr

/-- An access that ends in an address error (vector 3) or a bus error (vector 2), with what its frame records
(`60_exceptions.md` R431, R432, R443). -/
structure AccessError where
  /-- the vector number: 3 for an odd address, 2 for one that nothing answers -/
  vector : Nat
  /-- the address of the access -/
  address : Long
  /-- its kind -/
  kind : AccessKind
  /-- its function code -/
  fc : BitVec 3
deriving DecidableEq, Repr

/-- The function code of an access (R71): user data 1, user program 2, supervisor data 5, supervisor program 6. -/
def functionCode (sp : Space) (super : Bool) : BitVec 3 :=
  match sp, super with
  | .data, false => 1
  | .program, false => 2
  | .data, true => 5
  | .program, true => 6

/-- A range does not answer an access of a kind in a state (R83). -/
def Hole.blocks (h : Hole) (kind : AccessKind) (super : Bool) : Bool :=
  (match kind with | .fetch => h.fetch | .read => h.read | .write => h.write) &&
    (if super then h.supervisor else h.user)

/-- `mapped(a, kind, S)` (R71, R83). -/
def State.mapped (s : State) (kind : AccessKind) (a : Long) : Bool :=
  !s.holes.any fun h => decide (h.first ≤ s.mem.key a) && decide (s.mem.key a ≤ h.last) && h.blocks kind s.sr.s

/-- The checks of `MemRead`, `MemWrite` and `FetchWord` for `k` bytes at `a` (R74, R75, R78): an odd address for
a word or long is an address error; else the first byte that is not mapped is a bus error. -/
def State.accessError (s : State) (kind : AccessKind) (sp : Space) (k : Nat) (a : Long) : Option AccessError :=
  if 2 ≤ k ∧ a.getLsbD 0 = true then
    some { vector := 3, address := a, kind := kind, fc := functionCode sp s.sr.s }
  else
    match (List.range k).find? fun i => !s.mapped kind (a + BitVec.ofNat 32 i) with
    | none => none
    | some i =>
      some { vector := 2, kind := kind, fc := functionCode sp s.sr.s
             address := if kind = .fetch then a else (a + BitVec.ofNat 32 i) &&& s.mem.addrMask }

/-! ### Running an instruction -/

/-- What an instruction does: it goes on, or an access ends it in a bus or address error; either way with the
state it has reached (log entry 7). -/
abbrev Exec := EStateM AccessError State

/-- `draw(k)` (`00_scope.md` R9): a free value; the next one is another (log entry 1). -/
def draw (k : Nat) : Exec (BitVec k) := fun s => .ok ((Config.free s.draws).setWidth k) { s with draws := s.draws + 1 }

/-- `draw(1)` as a flag. -/
def drawFlag : Exec Bool := do
  let b ← draw 1
  return b.getLsbD 0

/-- `MemRead` of an operand of a size (R74). -/
def readMem (sz : Size) (sp : Space) (a : Long) : Exec (BitVec sz.bits) := fun s =>
  match s.accessError .read sp sz.bytes a with
  | none => .ok (s.mem.load sz a) s
  | some e => .error e s

/-- `MemWrite` of an operand of a size (R75). -/
def writeMem (sz : Size) (a : Long) (v : BitVec sz.bits) : Exec Unit := fun s =>
  match s.accessError .write .data sz.bytes a with
  | none => .ok () { s with mem := s.mem.store sz a v }
  | some e => .error e s

/-- The checks of `FetchWord` on `n` words from an address, in order (R78). -/
def checkFetch : Nat → Long → Exec Unit
  | 0, _ => pure ()
  | n + 1, a => do
    match (← get).accessError .fetch .program 2 a with
    | some e => throw e
    | none => checkFetch n (a + 2)

/-- A push on the active stack (R85): the pointer moves first. -/
def push (sz : Size) (v : BitVec sz.bits) : Exec Unit := do
  modify fun s => s.setSp (s.sp - BitVec.ofNat 32 sz.bytes)
  writeMem sz (← get).sp v

/-- A pop from the active stack (R85): the pointer moves after the read. -/
def pop (sz : Size) : Exec (BitVec sz.bits) := do
  let v ← readMem sz .data (← get).sp
  modify fun s => s.setSp (s.sp + BitVec.ofNat 32 sz.bytes)
  return v

/-! ### Taking an exception (`60_exceptions.md` R440 to R443, R461) -/

/-- The address of an exception vector (R430). -/
def vectorAddress (v : Nat) : Long := Config.vectorBase + 4 * BitVec.ofNat 32 v

/-- SR during exception processing: supervisor state, tracing off (R440). -/
def StatusReg.enter (f : StatusReg) : StatusReg := { f with s := true, t := false }

/-- The end of exception processing: the handler's address is read from the vector (R440). -/
def loadVector (v : Nat) : Exec Unit := do
  let a ← readMem .l .data (vectorAddress v)
  modify fun s => s.jump a

/-- Exception entry with the change `enter` makes to SR: SR is changed, the saved PC and the old SR are pushed on
the supervisor stack, and control goes to the vector (R440). A stopped processor runs again (R474). -/
def enterException (enter : StatusReg → StatusReg) (v : Nat) (savedPc : Long) : Exec Unit := do
  let old := (← get).sr
  modify fun s => { s with sr := enter old, run := .running }
  push .l savedPc
  push .w old.toWord
  loadVector v

/-- `Exception(v, saved_pc)` (R440). -/
def exception (v : Nat) (savedPc : Long) : Exec Unit := enterException StatusReg.enter v savedPc

/-- An exception instead of an instruction, of which nothing is executed: vectors 4, 8, 10 and 11, saved PC
`pc0` (R442, R444). The instruction has not completed, so no trace exception follows it (R470). -/
def abortTo (v : Nat) : Exec Unit := do
  modify fun s => { s with traceDue := false }
  exception v (← get).pc

/-- `Interrupt(l, v)` (R461): the exception entry with the mask raised to the level taken. -/
def interrupt (level : BitVec 3) (v : Nat) : Exec Unit := do
  enterException (fun f => { f.enter with i := level }) v (← get).pc

/-- The first word of the frame of a bus or address error (R443): bit 4 is 1 for a read, bit 3 is 0 for an instruction
fetch and 1 for any other access, bits 2..0 are the function code. Bits 15..5, which it does not give, are free (log
entry 8). -/
def accessWord (u : Long) (e : AccessError) : Word :=
  u.extractLsb' 0 11 ++ BitVec.ofBool (decide (e.kind ≠ .write)) ++ BitVec.ofBool (decide (e.kind ≠ .fetch)) ++ e.fc

/-- The exception processing of a bus or address error: the frame of 14 bytes (R443), then the vector. The saved
PC is free: it lies somewhere in or after the instruction (R442; log entry 5). -/
def groupZeroEntry (e : AccessError) : Exec Unit := do
  let old ← get
  modify fun s => { s with sr := s.sr.enter, run := .running, traceDue := false }
  push .l (← draw 32)
  push .w old.sr.toWord
  push .w old.ir
  push .l e.address
  push .w (accessWord (← draw 32) e)
  loadVector e.vector

/-- The state after a bus or address error: its exception, or the halted state when that exception meets another
(R452; log entry 9). -/
def groupZero (e : AccessError) (s : State) : State :=
  match (groupZeroEntry e).run s with
  | .ok _ t => t
  | .error _ t => { t with run := .halted }

/-- The state after an instruction or an exception entry: where it ends, or the exception of the access error that
ended it. -/
def complete (m : Exec Unit) (s : State) : State :=
  match m.run s with
  | .ok _ t => t
  | .error e t => groupZero e t

/-- A step's outcome. -/
abbrev Outcome := Host.Outcome State Fault Refusal

/-- The meaning of an instruction: it always has a next state, in a handler if an access fails. -/
def run (m : Exec Unit) (s : State) : Outcome := .next (complete m s)

/-- A privileged instruction (`48_system.md` R411): in user state the privilege violation, vector 8, and nothing
else. -/
def privileged (m : Exec Unit) : Exec Unit := do
  if (← get).sr.s then m else abortTo 8

/-- Return from exception (`48_system.md` R412): SR and PC from the six bytes on the supervisor stack, whose
pointer moves before the new SR takes effect. -/
def returnFromException : Exec Unit := do
  let p := (← get).ssp
  let w ← readMem .w .data p
  let a ← readMem .l .data (p + 2)
  modify fun s => ({ s with ssp := p + 6, sr := StatusReg.ofWord w }).jump a

end Sys2Proof.Machine
end

