-- ==== Sys2Proof/Machine/Operands.lean ====
section
/-! DEFINITION. Effective addresses and operand access: the twelve addressing modes (`40_addressing_modes.md`). -/

namespace Sys2Proof.Machine

/-- What an effective address designates (R170). A memory operand of a PC-relative mode lies in program space
(`20_memory.md` R71). -/
inductive Loc where
  | dreg (r : Reg)
  | areg (r : Reg)
  | mem (a : Long) (sp : Space)
  | imm (v : Long)
deriving DecidableEq, Repr

/-- `step(i, size)`: by how much `(An)+` and `-(An)` move the register; 2 for a byte with A7 (R172). -/
def stepOf (r : Reg) (sz : Size) : Long := if sz = .b ∧ r = 7 then 2 else BitVec.ofNat 32 sz.bytes

/-- `index(w)`: the index register, all of it or its low word sign-extended (R180). -/
def indexOf (x : Brief) (s : State) : Long :=
  let v := if x.isA then s.getA x.reg else s.getD x.reg
  if x.long then v else (v.setWidth 16).signExtend 32

/-- `EA(mode, reg, size)`: the operand's location, and the state after the address register is stepped; `xp` is
the address of the operand's first extension word (R180 to R192). -/
def evalEA (xp : Long) (sz : Size) (ea : EA) (s : State) : Loc × State :=
  match ea with
  | .dn r => (.dreg r, s)
  | .an r => (.areg r, s)
  | .ind r => (.mem (s.getA r) .data, s)
  | .post r => (.mem (s.getA r) .data, s.setA r (s.getA r + stepOf r sz))
  | .pre r => (.mem (s.getA r - stepOf r sz) .data, s.setA r (s.getA r - stepOf r sz))
  | .disp r d => (.mem (s.getA r + d.signExtend 32) .data, s)
  | .idx r x => (.mem (s.getA r + indexOf x s + x.disp.signExtend 32) .data, s)
  | .absW a => (.mem (a.signExtend 32) .data, s)
  | .absL a => (.mem a .data, s)
  | .pcDisp d => (.mem (xp + d.signExtend 32) .program, s)
  | .pcIdx x => (.mem (xp + indexOf x s + x.disp.signExtend 32) .program, s)
  | .imm v => (.imm v, s)

/-- The address of a memory operand: `AddrEA` of R197. -/
def Loc.addr : Loc → Long
  | .mem a _ => a
  | .dreg _ | .areg _ | .imm _ => 0

/-- The operand is in memory. -/
def Loc.inMemory : Loc → Bool
  | .mem _ _ => true
  | .dreg _ | .areg _ | .imm _ => false

/-- The value of an operand, `ReadEA` without its checks (R195). -/
def Loc.value (sz : Size) (l : Loc) (s : State) : BitVec sz.bits :=
  match l with
  | .dreg r => s.getDn sz r
  | .areg r => low sz (s.getA r)
  | .mem a _ => s.mem.load sz a
  | .imm v => low sz v

/-- The access error that reading the operand meets, if any (R195). -/
def Loc.readError (sz : Size) (l : Loc) (s : State) : Option AccessError :=
  match l with
  | .mem a sp => s.accessError .read sp sz.bytes a
  | .dreg _ | .areg _ | .imm _ => none

/-- The state with the operand written, `WriteEA` without its checks (R196). An address register is written whole,
a word sign-extended. No instruction writes an immediate. -/
def Loc.put (sz : Size) (l : Loc) (v : BitVec sz.bits) (s : State) : State :=
  match l with
  | .dreg r => s.setDn sz r v
  | .areg r => s.setA r (v.signExtend 32)
  | .mem a _ => { s with mem := s.mem.store sz a v }
  | .imm _ => s

/-- The access error that writing the operand meets, if any (R196). -/
def Loc.writeError (sz : Size) (l : Loc) (s : State) : Option AccessError :=
  match l with
  | .mem a _ => s.accessError .write .data sz.bytes a
  | .dreg _ | .areg _ | .imm _ => none

/-- `EA` in an instruction: `own` words stand between the operation word and the operand's own extension words
(R180, `30_encoding.md` R115). -/
def place (own : Nat) (sz : Size) (ea : EA) : Exec Loc := fun s =>
  let p := evalEA (s.npc (1 + own)) sz ea s
  .ok p.1 p.2

/-- `ReadEA` (R195). -/
def readLoc (sz : Size) (l : Loc) : Exec (BitVec sz.bits) := fun s =>
  match l.readError sz s with
  | none => .ok (l.value sz s) s
  | some e => .error e s

/-- `WriteEA` (R196). -/
def writeLoc (sz : Size) (l : Loc) (v : BitVec sz.bits) : Exec Unit := fun s =>
  match l.writeError sz s with
  | none => .ok () (l.put sz v s)
  | some e => .error e s

/-- A source operand, evaluated and read (R198). -/
def source (own : Nat) (sz : Size) (ea : EA) : Exec (BitVec sz.bits) := do
  let l ← place own sz ea
  readLoc sz l

/-- An operand read, changed by `op` together with the flags, and written back at the one location (R171). -/
def modifyEA (own : Nat) (sz : Size) (ea : EA) (op : BitVec sz.bits → StatusReg → Result sz.bits) : Exec Unit := do
  let l ← place own sz ea
  let v ← readLoc sz l
  let p := op v (← get).sr
  writeLoc sz l p.1
  modify fun s => (s.setSr p.2).advance (1 + own + ea.words sz)

/-- An operand read for its flags only. -/
def testEA (own : Nat) (sz : Size) (ea : EA) (op : BitVec sz.bits → StatusReg → StatusReg) : Exec Unit := do
  let v ← source own sz ea
  modify fun s => (s.setSr (op v s.sr)).advance (1 + own + ea.words sz)

/-- An operation with a source operand and a data register: `op` gives the register's new low bits and the flags
from the operand and the register (`<ea>,Dn` forms). -/
def sourceToDn (sz : Size) (ea : EA) (r : Reg) (op : BitVec sz.bits → BitVec sz.bits → StatusReg → Result sz.bits) : Exec Unit := do
  let v ← source 0 sz ea
  modify fun s =>
    let p := op v (s.getDn sz r) s.sr
    ((s.setDn sz r p.1).setSr p.2).advance (1 + ea.words sz)

/-- An operation with a source operand and an address register, no flags: the source is sign-extended to 32 bits
(`<ea>,An` forms). -/
def sourceToAn (sz : Size) (ea : EA) (r : Reg) (op : Long → Long → Long) : Exec Unit := do
  let v ← source 0 sz ea
  modify fun s => (s.setA r (op (v.signExtend 32) (s.getA r))).advance (1 + ea.words sz)

/-- The two operands of a register-pair form and where the result goes: the low bits of Dy and Dx, or the operands
at `-(Ay)` and `-(Ax)`, Ay first (R198; `41_arithmetic.md` R210, R215). -/
def pairOperands (sz : Size) (mem : Bool) (y x : Reg) : Exec (BitVec sz.bits × BitVec sz.bits × Loc) := do
  let ly ← place 0 sz (if mem then .pre y else .dn y)
  let vy ← readLoc sz ly
  let lx ← place 0 sz (if mem then .pre x else .dn x)
  let vx ← readLoc sz lx
  return (vy, vx, lx)

/-- A register-pair form (`ADDX`, `SUBX`). -/
def pairOp (sz : Size) (mem : Bool) (y x : Reg) (op : BitVec sz.bits → BitVec sz.bits → StatusReg → Result sz.bits) : Exec Unit := do
  let (vy, vx, l) ← pairOperands sz mem y x
  let p := op vy vx (← get).sr
  writeLoc sz l p.1
  modify fun s => (s.setSr p.2).advance 1

end Sys2Proof.Machine
end

