-- ==== Sys2Proof/Machine/Arith.lean ====
section
/-! DEFINITION. The integer and decimal arithmetic instructions (`41_arithmetic.md`; NBCD and SBCD by
`49_not_documented.md` R607). -/

namespace Sys2Proof.Machine

/-! ### Addition -/

/-- ADD `<ea>,Dn` (R211). -/
def execAddEaDn (sz : Size) (ea : EA) (d : Reg) (s : State) : Outcome := run (sourceToDn sz ea d addResult) s

/-- ADD `Dn,<ea>` (R211). -/
def execAddDnEa (sz : Size) (d : Reg) (ea : EA) (s : State) : Outcome :=
  run (modifyEA 0 sz ea (addResult (s.getDn sz d))) s

/-- ADDA (R212): a 32-bit sum, no flags. -/
def execAdda (long : Bool) (ea : EA) (a : Reg) (s : State) : Outcome :=
  run (sourceToAn (wordOrLong long) ea a fun v x => x + v) s

/-- ADDI (R213). -/
def execAddi (sz : Size) (v : Long) (ea : EA) (s : State) : Outcome :=
  run (modifyEA (immWords sz) sz ea (addResult (low sz v))) s

/-- The value of the quick field: 0 stands for 8 (R214, R227). -/
def quick (n : Nat) (q : BitVec 3) : BitVec n := if q = 0 then BitVec.ofNat n 8 else q.setWidth n

/-- ADDQ (R214): to an address register a 32-bit sum whatever the size, no flags. -/
def execAddq (sz : Size) (q : BitVec 3) (ea : EA) (s : State) : Outcome :=
  match ea with
  | .an r => .next ((s.setA r (s.getA r + quick 32 q)).advance 1)
  | ea => run (modifyEA 0 sz ea (addResult (quick sz.bits q))) s

/-- ADDX (R215). -/
def execAddx (sz : Size) (mem : Bool) (y x : Reg) (s : State) : Outcome := run (pairOp sz mem y x addxResult) s

/-! ### Subtraction -/

/-- SUB `<ea>,Dn` (R224). -/
def execSubEaDn (sz : Size) (ea : EA) (d : Reg) (s : State) : Outcome := run (sourceToDn sz ea d subResult) s

/-- SUB `Dn,<ea>` (R224). -/
def execSubDnEa (sz : Size) (d : Reg) (ea : EA) (s : State) : Outcome :=
  run (modifyEA 0 sz ea (subResult (s.getDn sz d))) s

/-- SUBA (R225): a 32-bit difference, no flags. -/
def execSuba (long : Bool) (ea : EA) (a : Reg) (s : State) : Outcome :=
  run (sourceToAn (wordOrLong long) ea a fun v x => x - v) s

/-- SUBI (R226). -/
def execSubi (sz : Size) (v : Long) (ea : EA) (s : State) : Outcome :=
  run (modifyEA (immWords sz) sz ea (subResult (low sz v))) s

/-- SUBQ (R227): from an address register a 32-bit difference whatever the size, no flags. -/
def execSubq (sz : Size) (q : BitVec 3) (ea : EA) (s : State) : Outcome :=
  match ea with
  | .an r => .next ((s.setA r (s.getA r - quick 32 q)).advance 1)
  | ea => run (modifyEA 0 sz ea (subResult (quick sz.bits q))) s

/-- SUBX (R228). -/
def execSubx (sz : Size) (mem : Bool) (y x : Reg) (s : State) : Outcome := run (pairOp sz mem y x subxResult) s

/-! ### Comparison -/

/-- CMP (R217). -/
def execCmp (sz : Size) (ea : EA) (d : Reg) (s : State) : Outcome :=
  run (testEA 0 sz ea fun v => cmpFlags v (s.getDn sz d)) s

/-- The compare of CMPA: on 32 bits, with the register as operand evaluation left it (R218). -/
def compareAn (sz : Size) (ea : EA) (a : Reg) : Exec Unit := do
  let v ← source 0 sz ea
  modify fun s => (s.setSr (cmpFlags (v.signExtend 32) (s.getA a) s.sr)).advance (1 + ea.words sz)

/-- CMPA (R218). -/
def execCmpa (long : Bool) (ea : EA) (a : Reg) (s : State) : Outcome := run (compareAn (wordOrLong long) ea a) s

/-- CMPI (R219). -/
def execCmpi (sz : Size) (v : Long) (ea : EA) (s : State) : Outcome :=
  run (testEA (immWords sz) sz ea (cmpFlags (low sz v))) s

/-- The read of a CMPM operand: the register moves after the access (R220). -/
def readPost (sz : Size) (r : Reg) : Exec (BitVec sz.bits) := do
  let v ← readMem sz .data ((← get).getA r)
  modify fun s => s.setA r (s.getA r + stepOf r sz)
  return v

/-- The compare of two memory operands, `(Ay)+` first (R220). -/
def comparePost (sz : Size) (y x : Reg) : Exec Unit := do
  let v ← readPost sz y
  let w ← readPost sz x
  modify fun s => (s.setSr (cmpFlags v w s.sr)).advance 1

/-- CMPM (R220). -/
def execCmpm (sz : Size) (y x : Reg) (s : State) : Outcome := run (comparePost sz y x) s

/-- TST (R229). -/
def execTst (sz : Size) (ea : EA) (s : State) : Outcome := run (testEA 0 sz ea fun v f => f.logicFlags v) s

/-! ### One operand -/

/-- A destination written without use of its value: a memory destination is read first and the value discarded
(`20_memory.md` R81; log entry 18). -/
def overwriteEA (sz : Size) (ea : EA) (v : BitVec sz.bits) : Exec Unit := do
  let l ← place 0 sz ea
  let _ ← readLoc sz l
  writeLoc sz l v

/-- CLR's operation and flags (R216). -/
def clear (sz : Size) (ea : EA) : Exec Unit := do
  overwriteEA sz ea 0
  modify fun s => (s.setSr (s.sr.logicFlags (0 : BitVec sz.bits))).advance (1 + ea.words sz)

/-- CLR (R216). -/
def execClr (sz : Size) (ea : EA) (s : State) : Outcome := run (clear sz ea) s

/-- NEG (R222). -/
def execNeg (sz : Size) (ea : EA) (s : State) : Outcome := run (modifyEA 0 sz ea negResult) s

/-- NEGX (R223). -/
def execNegx (sz : Size) (ea : EA) (s : State) : Outcome := run (modifyEA 0 sz ea negxResult) s

/-- EXT.W: bit 7 is copied to bits 15..8; bits 31..16 are unchanged (R221). -/
def execExtW (r : Reg) (s : State) : Outcome :=
  let v : BitVec Size.w.bits := (s.getDn .b r).signExtend 16
  .next (((s.setDn .w r v).setSr (s.sr.logicFlags v)).advance 1)

/-- EXT.L: bit 15 is copied to bits 31..16 (R221). -/
def execExtL (r : Reg) (s : State) : Outcome :=
  let v : Long := (s.getDn .w r).signExtend 32
  .next (((s.setD r v).setSr (s.sr.logicFlags v)).advance 1)

/-! ### Decimal -/

/-- The result and carry of a decimal operation: `op` on packed BCD operands, else free values (R210, R607;
log entry 21). -/
def decimal (op : Byte → Byte → Bool → Byte × Bool) (v w : Byte) : Exec (Byte × Bool) := do
  if isBcd v && isBcd w then
    return op v w (← get).sr.x
  else
    let r ← draw 8
    let c ← drawFlag
    return (r, c)

/-- A decimal operation on a source and a destination at `l`: the result is written, then the flags, of which N
and V are free (R210, R607). -/
def decimalOp (op : Byte → Byte → Bool → Byte × Bool) (v w : Byte) (l : Loc) (words : Nat) : Exec Unit := do
  let (r, c) ← decimal op v w
  writeLoc .b l r
  let n ← drawFlag
  let o ← drawFlag
  modify fun s => (s.setSr (s.sr.decimalFlags r c n o)).advance words

/-- A decimal register-pair form. -/
def decimalPair (op : Byte → Byte → Bool → Byte × Bool) (mem : Bool) (y x : Reg) : Exec Unit := do
  let (v, w, l) ← pairOperands .b mem y x
  decimalOp op v w l 1

/-- ABCD: a byte is its only size (R210, `71_timing.md` R545). -/
def execAbcd (mem : Bool) (y x : Reg) (s : State) : Outcome := run (decimalPair bcdAdd mem y x) s

/-- SBCD (R607). -/
def execSbcd (mem : Bool) (y x : Reg) (s : State) : Outcome := run (decimalPair bcdSub mem y x) s

/-- The decimal negation of an operand: `0 - d - X` (R607). -/
def negateDecimal (ea : EA) : Exec Unit := do
  let l ← place 0 .b ea
  let v ← readLoc .b l
  decimalOp bcdSub v 0 l (1 + ea.words .b)

/-- NBCD (R607). -/
def execNbcd (ea : EA) (s : State) : Outcome := run (negateDecimal ea) s

end Sys2Proof.Machine
end

