-- ==== Sys2Proof/Machine/Bit.lean ====
section
/-! DEFINITION. The bit manipulation instructions (`46_bit.md`). -/

namespace Sys2Proof.Machine

/-- What BCHG, BCLR and BSET write: from the operand and the bit number. -/
abbrev BitOp := (n : Nat) → BitVec n → Nat → BitVec n

/-- The size of a bit operation: long on a data register, byte on anything else (R364). -/
def bitSize (ea : EA) : Size :=
  match ea with
  | .dn _ => .l
  | _ => .b

/-- BTST on bit `b0`, taken modulo the operand's width; `own` words stand before the operand's (R363, R364). -/
def bitTest (own : Nat) (b0 : Nat) (ea : EA) : Exec Unit := do
  let v ← source own (bitSize ea) ea
  modify fun s => (s.setSr (s.sr.bitFlag v (b0 % (bitSize ea).bits))).advance (1 + own + ea.words .b)

/-- BCHG, BCLR and BSET on bit `b0`, taken modulo the operand's width: Z from the bit as it was, then the changed
operand is written (R360 to R365). -/
def bitModify (op : BitOp) (own : Nat) (b0 : Nat) (ea : EA) : Exec Unit := do
  let l ← place own (bitSize ea) ea
  let v ← readLoc (bitSize ea) l
  let b := b0 % (bitSize ea).bits
  modify fun s => s.setSr (s.sr.bitFlag v b)
  writeLoc (bitSize ea) l (op (bitSize ea).bits v b)
  modify fun s => s.advance (1 + own + ea.words .b)

/-- BTST `#,<ea>` (R363). -/
def execBtst (n : Byte) (ea : EA) (s : State) : Outcome := run (bitTest 1 n.toNat ea) s
/-- BCHG `#,<ea>` (R360). -/
def execBchg (n : Byte) (ea : EA) (s : State) : Outcome := run (bitModify (fun _ => bitChange) 1 n.toNat ea) s
/-- BCLR `#,<ea>` (R361). -/
def execBclr (n : Byte) (ea : EA) (s : State) : Outcome := run (bitModify (fun _ => bitClear) 1 n.toNat ea) s
/-- BSET `#,<ea>` (R362). -/
def execBset (n : Byte) (ea : EA) (s : State) : Outcome := run (bitModify (fun _ => bitSet) 1 n.toNat ea) s
/-- BTST `Dn,<ea>` (R363). -/
def execBtstDn (d : Reg) (ea : EA) (s : State) : Outcome := run (bitTest 0 (s.getD d).toNat ea) s
/-- BCHG `Dn,<ea>` (R360). -/
def execBchgDn (d : Reg) (ea : EA) (s : State) : Outcome := run (bitModify (fun _ => bitChange) 0 (s.getD d).toNat ea) s
/-- BCLR `Dn,<ea>` (R361). -/
def execBclrDn (d : Reg) (ea : EA) (s : State) : Outcome := run (bitModify (fun _ => bitClear) 0 (s.getD d).toNat ea) s
/-- BSET `Dn,<ea>` (R362). -/
def execBsetDn (d : Reg) (ea : EA) (s : State) : Outcome := run (bitModify (fun _ => bitSet) 0 (s.getD d).toNat ea) s

end Sys2Proof.Machine
end

