-- ==== Sys2Proof/Machine/Control.lean ====
section
/-! DEFINITION. The program control instructions (`45_program_control.md`). -/

namespace Sys2Proof.Machine

/-- The displacement of a branch, sign-extended (R339). -/
def dispOf : Disp → Long
  | .byte d => d.signExtend 32
  | .word d => d.signExtend 32

/-- The target of a branch: the address of the operation word plus two plus the displacement (R339). -/
def branchTarget (d : Long) (s : State) : Long := s.pc + 2 + d

/-- Bcc (R330). -/
def execBcc (c : Cond) (d : Disp) (s : State) : Outcome :=
  if condHolds s.sr c then .next (s.jump (branchTarget (dispOf d) s)) else .next (s.advance (1 + d.words))

/-- BRA (R331). -/
def execBra (d : Disp) (s : State) : Outcome := .next (s.jump (branchTarget (dispOf d) s))

/-- A call: the return address is pushed on the active stack, then control goes to the target (R332, R335). -/
def call (ret target : Long) : Exec Unit := do
  push .l ret
  modify fun s => s.jump target

/-- BSR (R332). -/
def execBsr (d : Disp) (s : State) : Outcome := run (call (s.npc (1 + d.words)) (branchTarget (dispOf d) s)) s

/-- DBcc (R333): the sense of the condition is to leave the loop. -/
def execDbcc (c : Cond) (r : Reg) (d : Word) (s : State) : Outcome :=
  if condHolds s.sr c then .next (s.advance 2)
  else
    let v : Word := s.getDn .w r
    let w := v - 1
    let t := s.setDn .w r w
    if w = 0xFFFF then .next (t.advance 2) else .next (t.jump (branchTarget (d.signExtend 32) s))

/-- JMP (R334). -/
def execJmp (ea : EA) (s : State) : Outcome :=
  let p := evalEA (s.npc 1) .l ea s
  .next (p.2.jump p.1.addr)

/-- JSR (R335): the target is computed before the push. -/
def execJsr (ea : EA) (s : State) : Outcome :=
  let p := evalEA (s.npc 1) .l ea s
  run (call (s.npc (1 + ea.words .l)) p.1.addr) p.2

/-- NOP (R336). -/
def execNop (s : State) : Outcome := .next (s.advance 1)

/-- The return of RTS: the long on the active stack becomes the program counter (R337). -/
def returnToCaller : Exec Unit := do
  let a ← pop .l
  modify fun s => s.jump a

/-- RTS (R337). -/
def execRts (s : State) : Outcome := run returnToCaller s

/-- The byte Scc writes (R338). -/
def condByte (c : Cond) (f : StatusReg) : Byte := if condHolds f c then 0xFF else 0

/-- Scc: a byte is its only size (R338, `71_timing.md` R588). -/
def execScc (c : Cond) (ea : EA) (s : State) : Outcome :=
  run (do overwriteEA .b ea (condByte c s.sr); modify fun s => s.advance (1 + ea.words .b)) s

end Sys2Proof.Machine
end

