-- ==== Sys2Proof/Machine/Logic.lean ====
section
/-! DEFINITION. The logical instructions (`43_logic.md`). -/

namespace Sys2Proof.Machine

/-- AND `<ea>,Dn` (R280). -/
def execAndEaDn (sz : Size) (ea : EA) (d : Reg) (s : State) : Outcome :=
  run (sourceToDn sz ea d fun v w => logicResult (w &&& v)) s

/-- AND `Dn,<ea>` (R280). -/
def execAndDnEa (sz : Size) (d : Reg) (ea : EA) (s : State) : Outcome :=
  run (modifyEA 0 sz ea fun v => logicResult (v &&& s.getDn sz d)) s

/-- ANDI (R281). -/
def execAndi (sz : Size) (v : Long) (ea : EA) (s : State) : Outcome :=
  run (modifyEA (immWords sz) sz ea fun w => logicResult (w &&& low sz v)) s

/-- EOR (R282). -/
def execEor (sz : Size) (d : Reg) (ea : EA) (s : State) : Outcome :=
  run (modifyEA 0 sz ea fun v => logicResult (v ^^^ s.getDn sz d)) s

/-- EORI (R283). -/
def execEori (sz : Size) (v : Long) (ea : EA) (s : State) : Outcome :=
  run (modifyEA (immWords sz) sz ea fun w => logicResult (w ^^^ low sz v)) s

/-- NOT (R284). -/
def execNot (sz : Size) (ea : EA) (s : State) : Outcome := run (modifyEA 0 sz ea fun v => logicResult (~~~v)) s

/-- OR `<ea>,Dn` (R285). -/
def execOrEaDn (sz : Size) (ea : EA) (d : Reg) (s : State) : Outcome :=
  run (sourceToDn sz ea d fun v w => logicResult (w ||| v)) s

/-- OR `Dn,<ea>` (R285). -/
def execOrDnEa (sz : Size) (d : Reg) (ea : EA) (s : State) : Outcome :=
  run (modifyEA 0 sz ea fun v => logicResult (v ||| s.getDn sz d)) s

/-- ORI (R286). -/
def execOri (sz : Size) (v : Long) (ea : EA) (s : State) : Outcome :=
  run (modifyEA (immWords sz) sz ea fun w => logicResult (w ||| low sz v)) s

end Sys2Proof.Machine
end

