-- ==== Sys2Proof/Machine/Move.lean ====
section
/-! DEFINITION. The data movement instructions (`47_data_movement.md`; LINK, PEA and UNLK by
`49_not_documented.md` R605, R606). -/

namespace Sys2Proof.Machine

/-! ### MOVE, MOVEA, MOVEQ -/

/-- MOVE: the source is read completely before the destination's extension words are fetched, the destination evaluated
and written, and the flags set (R383, `40_addressing_modes.md` R180, R198). -/
def move (sz : Size) (src dst : EA) : Exec Unit := do
  let v ← source 0 sz src
  checkFetch (dst.words sz) ((← get).npc (1 + src.words sz))
  let l ← place (src.words sz) sz dst
  writeLoc sz l v
  modify fun s => (s.setSr (s.sr.logicFlags v)).advance (1 + src.words sz + dst.words sz)

/-- MOVE.B (R383). -/
def execMoveB (src dst : EA) (s : State) : Outcome := run (move .b src dst) s
/-- MOVE.W (R383). -/
def execMoveW (src dst : EA) (s : State) : Outcome := run (move .w src dst) s
/-- MOVE.L (R383). -/
def execMoveL (src dst : EA) (s : State) : Outcome := run (move .l src dst) s
/-- MOVEA.W: the word is sign-extended; no flags (R384). -/
def execMoveaW (src : EA) (a : Reg) (s : State) : Outcome := run (sourceToAn .w src a fun v _ => v) s
/-- MOVEA.L (R384). -/
def execMoveaL (src : EA) (a : Reg) (s : State) : Outcome := run (sourceToAn .l src a fun v _ => v) s

/-- MOVEQ: a long is its only size (R388, `71_timing.md` R574). -/
def execMoveq (v : Byte) (r : Reg) (s : State) : Outcome :=
  let w : Long := v.signExtend 32
  .next (((s.setD r w).setSr (s.sr.logicFlags w)).advance 1)

/-! ### MOVEM -/

/-- One of the sixteen registers of a MOVEM list (R382). -/
inductive GReg where
  | d (r : Reg)
  | a (r : Reg)
deriving DecidableEq, Repr

/-- The register's 32 bits. -/
def State.getG (s : State) : GReg → Long
  | .d r => s.getD r
  | .a r => s.getA r

/-- The register written, all 32 bits. -/
def State.setG (s : State) (g : GReg) (v : Long) : State :=
  match g with
  | .d r => s.setD r v
  | .a r => s.setA r v

/-- D0 to D7, then A0 to A7: mask bits 0 to 15 of the control modes and `(An)+` (R382). -/
def forwardOrder : List GReg :=
  [.d 0, .d 1, .d 2, .d 3, .d 4, .d 5, .d 6, .d 7, .a 0, .a 1, .a 2, .a 3, .a 4, .a 5, .a 6, .a 7]

/-- A7 to A0, then D7 to D0: mask bits 0 to 15 of `-(An)` (R382). -/
def backwardOrder : List GReg := forwardOrder.reverse

/-- The registers whose mask bit is set, in the order of the bits (R382). -/
def selected (mask : Word) (order : List GReg) : List GReg :=
  ((order.zip (List.range 16)).filter fun p => mask.getLsbD p.2).map fun p => p.1

/-- The registers stored upward from `a` (R385, control modes). -/
def storeUp (sz : Size) : List GReg → Long → Exec Unit
  | [], _ => pure ()
  | g :: gs, a => do
    writeMem sz a (low sz ((← get).getG g))
    storeUp sz gs (a + BitVec.ofNat 32 sz.bytes)

/-- The registers stored downward from below `a`, and the address of the last one (R385, predecrement). -/
def storeDown (sz : Size) : List GReg → Long → Exec Long
  | [], a => pure a
  | g :: gs, a => do
    let b := a - BitVec.ofNat 32 sz.bytes
    writeMem sz b (low sz ((← get).getG g))
    storeDown sz gs b

/-- The registers loaded upward from `a`, words sign-extended, and the address after the last one (R386). -/
def loadUp (sz : Size) (sp : Space) : List GReg → Long → Exec Long
  | [], a => pure a
  | g :: gs, a => do
    let v ← readMem sz sp a
    modify fun s => s.setG g (v.signExtend 32)
    loadUp sz sp gs (a + BitVec.ofNat 32 sz.bytes)

/-- MOVEM registers to memory: with `-(An)` the register is written only at the end, so its stored value is the
initial one (R385). -/
def storeRegisters (sz : Size) (mask : Word) (ea : EA) : Exec Unit := do
  match ea with
  | .pre r =>
    let a ← storeDown sz (selected mask backwardOrder) ((← get).getA r)
    modify fun s => s.setA r a
  | ea =>
    let l ← place 1 sz ea
    storeUp sz (selected mask forwardOrder) l.addr
  modify fun s => s.advance (2 + ea.words sz)

/-- The space of a memory operand (`20_memory.md` R71). -/
def Loc.space : Loc → Space
  | .mem _ sp => sp
  | .dreg _ | .areg _ | .imm _ => .data

/-- MOVEM memory to registers: with `(An)+` the register is written with the address after the last operand, even
if it is also loaded (R386). -/
def loadRegisters (sz : Size) (mask : Word) (ea : EA) : Exec Unit := do
  match ea with
  | .post r =>
    let a ← loadUp sz .data (selected mask forwardOrder) ((← get).getA r)
    modify fun s => s.setA r a
  | ea =>
    let l ← place 1 sz ea
    let _ ← loadUp sz l.space (selected mask forwardOrder) l.addr
  modify fun s => s.advance (2 + ea.words sz)

/-- MOVEM registers to memory (R385). -/
def execMovemToMem (long : Bool) (mask : Word) (ea : EA) (s : State) : Outcome :=
  run (storeRegisters (wordOrLong long) mask ea) s

/-- MOVEM memory to registers (R386). -/
def execMovemToRegs (long : Bool) (mask : Word) (ea : EA) (s : State) : Outcome :=
  run (loadRegisters (wordOrLong long) mask ea) s

/-! ### MOVEP -/

/-- Bytes stored at every second address from `a` (R387). -/
def storeAlternate : List Byte → Long → Exec Unit
  | [], _ => pure ()
  | b :: bs, a => do
    writeMem .b a b
    storeAlternate bs (a + 2)

/-- MOVEP register to memory: the bytes of the register, the high-order byte first (R387). -/
def movepStore (long : Bool) (v a : Long) : Exec Unit :=
  storeAlternate
    (if long then [v.extractLsb' 24 8, v.extractLsb' 16 8, v.extractLsb' 8 8, v.extractLsb' 0 8]
     else [v.extractLsb' 8 8, v.extractLsb' 0 8]) a

/-- MOVEP memory to register: two or four bytes from every second address, the high-order byte first (R387). -/
def movepLoad (long : Bool) (d : Reg) (a : Long) : Exec Unit := do
  let b0 ← readMem .b .data a
  let b1 ← readMem .b .data (a + 2)
  if long then
    let b2 ← readMem .b .data (a + 4)
    let b3 ← readMem .b .data (a + 6)
    modify fun s => s.setD d (b0 ++ b1 ++ b2 ++ b3)
  else
    modify fun s => s.setDn .w d (b0 ++ b1)

/-- MOVEP (R387). -/
def execMovep (toMem long : Bool) (d a : Reg) (disp : Word) (s : State) : Outcome :=
  let addr := s.getA a + disp.signExtend 32
  run (do
    if toMem then movepStore long (s.getD d) addr else movepLoad long d addr
    modify fun s => s.advance 2) s

/-! ### Registers and addresses -/

/-- EXG Dx,Dy: all 32 bits, the only size of EXG (R380, `71_timing.md` R563). -/
def execExgDD (x y : Reg) (s : State) : Outcome := .next (((s.setD x (s.getD y)).setD y (s.getD x)).advance 1)

/-- EXG Ax,Ay (R380). -/
def execExgAA (x y : Reg) (s : State) : Outcome := .next (((s.setA x (s.getA y)).setA y (s.getA x)).advance 1)

/-- EXG Dx,Ay (R380). -/
def execExgDA (x y : Reg) (s : State) : Outcome := .next (((s.setD x (s.getA y)).setA y (s.getD x)).advance 1)

/-- SWAP: the two words of a register are exchanged, its only size (R389, `71_timing.md` R592). -/
def execSwap (r : Reg) (s : State) : Outcome :=
  let v := s.getD r
  let w : Long := v.extractLsb' 0 16 ++ v.extractLsb' 16 16
  .next (((s.setD r w).setSr (s.sr.logicFlags w)).advance 1)

/-- LEA (R381): the address itself, no access. -/
def execLea (ea : EA) (a : Reg) (s : State) : Outcome :=
  let p := evalEA (s.npc 1) .l ea s
  .next ((p.2.setA a p.1.addr).advance (1 + ea.words .l))

/-- PEA (R606): the address pushed on the active stack. -/
def execPea (ea : EA) (s : State) : Outcome :=
  let p := evalEA (s.npc 1) .l ea s
  run (do push .l p.1.addr; modify fun s => s.advance (1 + ea.words .l)) p.2

/-- LINK's three assignments in their order (R605; log entry 22). -/
def link (r : Reg) (d : Word) : Exec Unit := do
  modify fun s => s.setSp (s.sp - 4)
  let s ← get
  writeMem .l s.sp (s.getA r)
  modify fun s => s.setA r s.sp
  modify fun s => (s.setSp (s.sp + d.signExtend 32)).advance 2

/-- LINK (R605). -/
def execLink (r : Reg) (d : Word) (s : State) : Outcome := run (link r d) s

/-- UNLK's three assignments in their order (R605; log entry 22). -/
def unlink (r : Reg) : Exec Unit := do
  modify fun s => s.setSp (s.getA r)
  let v ← readMem .l .data (← get).sp
  modify fun s => s.setA r v
  modify fun s => (s.setSp (s.sp + 4)).advance 1

/-- UNLK (R605). -/
def execUnlk (r : Reg) (s : State) : Outcome := run (unlink r) s

end Sys2Proof.Machine
end

