-- ==== Sys2Proof/Machine/MulDiv.lean ====
section
/-! DEFINITION. The multiply and divide instructions (`42_multiply_divide.md`). -/

namespace Sys2Proof.Machine

/-- A multiplication: all 32 bits of the product go to Dn; N and Z from it, V and C cleared (R262, R263). -/
def multiply (product : Word → Word → Long) (ea : EA) (d : Reg) : Exec Unit := do
  let v ← source 0 .w ea
  modify fun s =>
    let r := product v (s.getDn .w d)
    ((s.setD d r).setSr (s.sr.logicFlags r)).advance (1 + ea.words .w)

/-- MULU (R263). -/
def execMulu (ea : EA) (d : Reg) (s : State) : Outcome := run (multiply muluProduct ea d) s

/-- MULS (R262). -/
def execMuls (ea : EA) (d : Reg) (s : State) : Outcome := run (multiply mulsProduct ea d) s

/-- A division by zero: N, Z and V are free, C is 0, then the zero divide exception, saved PC `npc`
(`60_exceptions.md` R434). -/
def divideByZero (npc : Long) : Exec Unit := do
  let n ← drawFlag
  let z ← drawFlag
  let v ← drawFlag
  modify fun s => s.setSr (s.sr.divZeroFlags n z v)
  exception 5 npc

/-- A division with an overflow: Dn is unchanged, V is 1, C is 0, N and Z are free (R260, R261). -/
def divideOverflow (words : Nat) : Exec Unit := do
  let n ← drawFlag
  let z ← drawFlag
  modify fun s => (s.setSr (s.sr.divOverflowFlags n z)).advance words

/-- A division: the remainder goes to the upper word of Dn, the quotient to the lower (R260, R261). -/
def divide (result : Word → Long → Option (Word × Word)) (ea : EA) (d : Reg) : Exec Unit := do
  let v ← source 0 .w ea
  let s ← get
  let words := 1 + ea.words .w
  if v = 0 then divideByZero (s.npc words)
  else
    match result v (s.getD d) with
    | none => divideOverflow words
    | some (q, m) => modify fun s => ((s.setD d (m ++ q)).setSr (s.sr.quotientFlags q)).advance words

/-- DIVU (R260). -/
def execDivu (ea : EA) (d : Reg) (s : State) : Outcome := run (divide divuResult ea d) s

/-- DIVS (R261). -/
def execDivs (ea : EA) (d : Reg) (s : State) : Outcome := run (divide divsResult ea d) s

end Sys2Proof.Machine
end

