-- ==== Sys2Proof/Machine/Shift.lean ====
section
/-! DEFINITION. The shift and rotate instructions (`44_shift_rotate.md`). -/

namespace Sys2Proof.Machine

/-- The count of a register form: the field, where 0 stands for 8, or the register modulo 64 (R300). -/
def shiftCount (c : ShiftCount) (s : State) : Nat :=
  match c with
  | .imm n => if n = 0 then 8 else n.toNat
  | .reg r => (s.getD r).toNat % 64

/-- A register form: the low bits of Dn shifted by the count, which is read first (R300). -/
def shiftDn (op : ShiftOp) (sz : Size) (c : ShiftCount) (r : Reg) (s : State) : State :=
  let p := op sz.bits (s.getDn sz r) (shiftCount c s) s.sr
  ((s.setDn sz r p.1).setSr p.2).advance 1

/-- A memory form: the word at `<ea>` shifted by one (R300, R310). -/
def shiftEA (op : ShiftOp) (ea : EA) : Exec Unit := modifyEA 0 .w ea fun v => op Size.w.bits v 1

/-- ASR, register forms (R303). -/
def execAsrReg (sz : Size) (c : ShiftCount) (r : Reg) (s : State) : Outcome := .next (shiftDn asrResult sz c r s)
/-- ASR `<ea>` (R303, R310). -/
def execAsrMem (ea : EA) (s : State) : Outcome := run (shiftEA asrResult ea) s
/-- ASL, register forms (R302). -/
def execAslReg (sz : Size) (c : ShiftCount) (r : Reg) (s : State) : Outcome := .next (shiftDn aslResult sz c r s)
/-- ASL `<ea>` (R302, R310). -/
def execAslMem (ea : EA) (s : State) : Outcome := run (shiftEA aslResult ea) s
/-- LSR, register forms (R305). -/
def execLsrReg (sz : Size) (c : ShiftCount) (r : Reg) (s : State) : Outcome := .next (shiftDn lsrResult sz c r s)
/-- LSR `<ea>` (R305, R310). -/
def execLsrMem (ea : EA) (s : State) : Outcome := run (shiftEA lsrResult ea) s
/-- LSL, register forms (R304). -/
def execLslReg (sz : Size) (c : ShiftCount) (r : Reg) (s : State) : Outcome := .next (shiftDn lslResult sz c r s)
/-- LSL `<ea>` (R304, R310). -/
def execLslMem (ea : EA) (s : State) : Outcome := run (shiftEA lslResult ea) s
/-- ROXR, register forms (R309). -/
def execRoxrReg (sz : Size) (c : ShiftCount) (r : Reg) (s : State) : Outcome := .next (shiftDn roxrResult sz c r s)
/-- ROXR `<ea>` (R309, R310). -/
def execRoxrMem (ea : EA) (s : State) : Outcome := run (shiftEA roxrResult ea) s
/-- ROXL, register forms (R308). -/
def execRoxlReg (sz : Size) (c : ShiftCount) (r : Reg) (s : State) : Outcome := .next (shiftDn roxlResult sz c r s)
/-- ROXL `<ea>` (R308, R310). -/
def execRoxlMem (ea : EA) (s : State) : Outcome := run (shiftEA roxlResult ea) s
/-- ROR, register forms (R307). -/
def execRorReg (sz : Size) (c : ShiftCount) (r : Reg) (s : State) : Outcome := .next (shiftDn rorResult sz c r s)
/-- ROR `<ea>` (R307, R310). -/
def execRorMem (ea : EA) (s : State) : Outcome := run (shiftEA rorResult ea) s
/-- ROL, register forms (R306). -/
def execRolReg (sz : Size) (c : ShiftCount) (r : Reg) (s : State) : Outcome := .next (shiftDn rolResult sz c r s)
/-- ROL `<ea>` (R306, R310). -/
def execRolMem (ea : EA) (s : State) : Outcome := run (shiftEA rolResult ea) s

end Sys2Proof.Machine
end

