-- ==== Sys2Proof/Machine/System.lean ====
section
/-! DEFINITION. The system and trap instructions (`48_system.md`; those the source does not document by
`49_not_documented.md` R603 to R611, log entry 4). -/

namespace Sys2Proof.Machine

/-! ### CCR and SR (R603) -/

/-- An operation on CCR with an immediate word. -/
def changeCcr (op : Word → Word → Word) (v : Word) (s : State) : Outcome :=
  .next ((s.setSr (s.sr.setCcr (op s.sr.ccr v))).advance 2)

/-- A privileged operation on SR with an immediate word. -/
def changeSr (op : Word → Word → Word) (v : Word) : Exec Unit :=
  privileged (modify fun s => (s.setSr (StatusReg.ofWord (op s.sr.toWord v))).advance 2)

/-- ORI to CCR (R603). -/
def execOriToCcr (v : Word) (s : State) : Outcome := changeCcr (fun f v => f ||| v) v s
/-- ANDI to CCR (R603). -/
def execAndiToCcr (v : Word) (s : State) : Outcome := changeCcr (fun f v => f &&& v) v s
/-- EORI to CCR (R603). -/
def execEoriToCcr (v : Word) (s : State) : Outcome := changeCcr (fun f v => f ^^^ v) v s
/-- ORI to SR (R603). -/
def execOriToSr (v : Word) (s : State) : Outcome := run (changeSr (fun f v => f ||| v) v) s
/-- ANDI to SR (R603). -/
def execAndiToSr (v : Word) (s : State) : Outcome := run (changeSr (fun f v => f &&& v) v) s
/-- EORI to SR (R603). -/
def execEoriToSr (v : Word) (s : State) : Outcome := run (changeSr (fun f v => f ^^^ v) v) s

/-- MOVE from SR (R603): not privileged; the word SR to `<ea>`. -/
def execMoveFromSr (ea : EA) (s : State) : Outcome :=
  run (do
    let l ← place 0 .w ea
    writeLoc .w l s.sr.toWord
    modify fun s => s.advance (1 + ea.words .w)) s

/-- MOVE to CCR (R603): the low five bits of the word at `<ea>`. -/
def execMoveToCcr (ea : EA) (s : State) : Outcome := run (testEA 0 .w ea fun v f => f.setCcr v) s

/-- MOVE to SR (R603): privileged. -/
def execMoveToSr (ea : EA) (s : State) : Outcome :=
  run (privileged (testEA 0 .w ea fun v _ => StatusReg.ofWord v)) s

/-- MOVE USP (R603): privileged. -/
def execMoveUsp (toReg : Bool) (r : Reg) (s : State) : Outcome :=
  run (privileged (modify fun s =>
    (if toReg then s.setA r s.usp else { s with usp := s.getA r }).advance 1)) s

/-! ### Traps -/

/-- ILLEGAL (R410): vector 4, saved PC `pc0`. -/
def execIllegal (s : State) : Outcome := run (abortTo 4) s

/-- A word of line 1010 (`60_exceptions.md` R439): vector 10. -/
def execLineA (_ : BitVec 12) (s : State) : Outcome := run (abortTo 10) s

/-- A word of line 1111 (`60_exceptions.md` R439): vector 11. -/
def execLineF (_ : BitVec 12) (s : State) : Outcome := run (abortTo 11) s

/-- TRAP (R413): vector 32 + v, saved PC `npc`. -/
def execTrap (v : BitVec 4) (s : State) : Outcome := run (exception (32 + v.toNat) (s.npc 1)) s

/-- TRAPV (R414): vector 7 if V is set, saved PC `npc`. -/
def execTrapv (s : State) : Outcome := if s.sr.v then run (exception 7 (s.npc 1)) s else .next (s.advance 1)

/-- CHK's test of the low word of Dn against a bound (R604): vector 6 if it is negative or greater. N is 1 when it is
only negative and 0 when it is only greater; else N, and Z, V and C always, are free (log entry 20). -/
def checkBound (bound : Word) (d : Reg) (words : Nat) : Exec Unit := do
  let v := (← get).getDn .w d
  let below := v.msb
  let above := bound.slt v
  let n ← drawFlag
  let z ← drawFlag
  let o ← drawFlag
  let c ← drawFlag
  modify fun s => s.setSr { s.sr with n := if below != above then below else n, z := z, v := o, c := c }
  if below || above then exception 6 ((← get).npc words)
  else modify fun s => s.advance words

/-- CHK (R604). -/
def execChk (ea : EA) (d : Reg) (s : State) : Outcome :=
  run (do let v ← source 0 .w ea; checkBound v d (1 + ea.words .w)) s

/-- TAS (R608): N and Z from the byte, V and C cleared, then its bit 7 set. -/
def execTas (ea : EA) (s : State) : Outcome := run (modifyEA 0 .b ea fun v f => (v ||| 0x80, f.logicFlags v)) s

/-! ### Returns and run states -/

/-- RTE (R412): privileged. -/
def execRte (s : State) : Outcome := run (privileged returnFromException) s

/-- The return of RTR: a word whose low five bits go to CCR, then the long that becomes the program counter, from the
active stack (R611). -/
def returnRestore : Exec Unit := do
  let w ← pop .w
  modify fun s => s.setSr (s.sr.setCcr w)
  let a ← pop .l
  modify fun s => s.jump a

/-- RTR (R611): not privileged. -/
def execRtr (s : State) : Outcome := run returnRestore s

/-- RESET (R610): privileged; no processor state changes but the program counter. The reset line to external devices
is outside the model (log entry 23). -/
def execReset (s : State) : Outcome := run (privileged (modify fun s => s.advance 1)) s

/-- STOP (R609): privileged; SR is loaded, and the processor stops with the program counter at the next
instruction. -/
def execStop (v : Word) (s : State) : Outcome :=
  run (privileged (modify fun s => { (s.setSr (StatusReg.ofWord v)).advance 2 with run := .stopped })) s

end Sys2Proof.Machine
end

