-- ==== Sys2Proof/Machine/Dispatch.lean ====
section
/-! DEFINITION. The meaning of every instruction: one arm per constructor of `Instr`, in the opcode table's order. -/

namespace Sys2Proof.Machine

/-- What an instruction does, with `pc` at its operation word. -/
def exec (i : Instr) (s : State) : Host.Outcome State Fault Refusal :=
  match i with
  | .ori sz v ea => Sys2Proof.Machine.execOri sz v ea s
  | .andi sz v ea => Sys2Proof.Machine.execAndi sz v ea s
  | .subi sz v ea => Sys2Proof.Machine.execSubi sz v ea s
  | .addi sz v ea => Sys2Proof.Machine.execAddi sz v ea s
  | .eori sz v ea => Sys2Proof.Machine.execEori sz v ea s
  | .cmpi sz v ea => Sys2Proof.Machine.execCmpi sz v ea s
  | .btst n ea => Sys2Proof.Machine.execBtst n ea s
  | .bchg n ea => Sys2Proof.Machine.execBchg n ea s
  | .bclr n ea => Sys2Proof.Machine.execBclr n ea s
  | .bset n ea => Sys2Proof.Machine.execBset n ea s
  | .btstDn d ea => Sys2Proof.Machine.execBtstDn d ea s
  | .bchgDn d ea => Sys2Proof.Machine.execBchgDn d ea s
  | .bclrDn d ea => Sys2Proof.Machine.execBclrDn d ea s
  | .bsetDn d ea => Sys2Proof.Machine.execBsetDn d ea s
  | .movep toMem long d a disp => Sys2Proof.Machine.execMovep toMem long d a disp s
  | .oriToCcr v => Sys2Proof.Machine.execOriToCcr v s
  | .oriToSr v => Sys2Proof.Machine.execOriToSr v s
  | .andiToCcr v => Sys2Proof.Machine.execAndiToCcr v s
  | .andiToSr v => Sys2Proof.Machine.execAndiToSr v s
  | .eoriToCcr v => Sys2Proof.Machine.execEoriToCcr v s
  | .eoriToSr v => Sys2Proof.Machine.execEoriToSr v s
  | .moveB src dst => Sys2Proof.Machine.execMoveB src dst s
  | .moveW src dst => Sys2Proof.Machine.execMoveW src dst s
  | .moveaW src a => Sys2Proof.Machine.execMoveaW src a s
  | .moveL src dst => Sys2Proof.Machine.execMoveL src dst s
  | .moveaL src a => Sys2Proof.Machine.execMoveaL src a s
  | .negx sz ea => Sys2Proof.Machine.execNegx sz ea s
  | .clr sz ea => Sys2Proof.Machine.execClr sz ea s
  | .neg sz ea => Sys2Proof.Machine.execNeg sz ea s
  | .not sz ea => Sys2Proof.Machine.execNot sz ea s
  | .tst sz ea => Sys2Proof.Machine.execTst sz ea s
  | .moveFromSr ea => Sys2Proof.Machine.execMoveFromSr ea s
  | .moveToCcr ea => Sys2Proof.Machine.execMoveToCcr ea s
  | .moveToSr ea => Sys2Proof.Machine.execMoveToSr ea s
  | .nbcd ea => Sys2Proof.Machine.execNbcd ea s
  | .swap r => Sys2Proof.Machine.execSwap r s
  | .pea ea => Sys2Proof.Machine.execPea ea s
  | .extW r => Sys2Proof.Machine.execExtW r s
  | .extL r => Sys2Proof.Machine.execExtL r s
  | .movemToMem long mask ea => Sys2Proof.Machine.execMovemToMem long mask ea s
  | .movemToRegs long mask ea => Sys2Proof.Machine.execMovemToRegs long mask ea s
  | .tas ea => Sys2Proof.Machine.execTas ea s
  | .illegal => Sys2Proof.Machine.execIllegal s
  | .trap v => Sys2Proof.Machine.execTrap v s
  | .link r d => Sys2Proof.Machine.execLink r d s
  | .unlk r => Sys2Proof.Machine.execUnlk r s
  | .moveUsp toReg r => Sys2Proof.Machine.execMoveUsp toReg r s
  | .reset => Sys2Proof.Machine.execReset s
  | .nop => Sys2Proof.Machine.execNop s
  | .stop v => Sys2Proof.Machine.execStop v s
  | .rte => Sys2Proof.Machine.execRte s
  | .rts => Sys2Proof.Machine.execRts s
  | .trapv => Sys2Proof.Machine.execTrapv s
  | .rtr => Sys2Proof.Machine.execRtr s
  | .jsr ea => Sys2Proof.Machine.execJsr ea s
  | .jmp ea => Sys2Proof.Machine.execJmp ea s
  | .lea ea a => Sys2Proof.Machine.execLea ea a s
  | .chk ea d => Sys2Proof.Machine.execChk ea d s
  | .addq sz q ea => Sys2Proof.Machine.execAddq sz q ea s
  | .subq sz q ea => Sys2Proof.Machine.execSubq sz q ea s
  | .scc c ea => Sys2Proof.Machine.execScc c ea s
  | .dbcc c r d => Sys2Proof.Machine.execDbcc c r d s
  | .bra d => Sys2Proof.Machine.execBra d s
  | .bsr d => Sys2Proof.Machine.execBsr d s
  | .bcc c d => Sys2Proof.Machine.execBcc c d s
  | .moveq v r => Sys2Proof.Machine.execMoveq v r s
  | .orEaDn sz ea d => Sys2Proof.Machine.execOrEaDn sz ea d s
  | .orDnEa sz d ea => Sys2Proof.Machine.execOrDnEa sz d ea s
  | .divu ea d => Sys2Proof.Machine.execDivu ea d s
  | .divs ea d => Sys2Proof.Machine.execDivs ea d s
  | .sbcd mem y x => Sys2Proof.Machine.execSbcd mem y x s
  | .subEaDn sz ea d => Sys2Proof.Machine.execSubEaDn sz ea d s
  | .subDnEa sz d ea => Sys2Proof.Machine.execSubDnEa sz d ea s
  | .suba long ea a => Sys2Proof.Machine.execSuba long ea a s
  | .subx sz mem y x => Sys2Proof.Machine.execSubx sz mem y x s
  | .cmp sz ea d => Sys2Proof.Machine.execCmp sz ea d s
  | .cmpa long ea a => Sys2Proof.Machine.execCmpa long ea a s
  | .eor sz d ea => Sys2Proof.Machine.execEor sz d ea s
  | .cmpm sz y x => Sys2Proof.Machine.execCmpm sz y x s
  | .andEaDn sz ea d => Sys2Proof.Machine.execAndEaDn sz ea d s
  | .andDnEa sz d ea => Sys2Proof.Machine.execAndDnEa sz d ea s
  | .mulu ea d => Sys2Proof.Machine.execMulu ea d s
  | .muls ea d => Sys2Proof.Machine.execMuls ea d s
  | .abcd mem y x => Sys2Proof.Machine.execAbcd mem y x s
  | .exgDD x y => Sys2Proof.Machine.execExgDD x y s
  | .exgAA x y => Sys2Proof.Machine.execExgAA x y s
  | .exgDA x y => Sys2Proof.Machine.execExgDA x y s
  | .addEaDn sz ea d => Sys2Proof.Machine.execAddEaDn sz ea d s
  | .addDnEa sz d ea => Sys2Proof.Machine.execAddDnEa sz d ea s
  | .adda long ea a => Sys2Proof.Machine.execAdda long ea a s
  | .addx sz mem y x => Sys2Proof.Machine.execAddx sz mem y x s
  | .asrReg sz c r => Sys2Proof.Machine.execAsrReg sz c r s
  | .asrMem ea => Sys2Proof.Machine.execAsrMem ea s
  | .aslReg sz c r => Sys2Proof.Machine.execAslReg sz c r s
  | .aslMem ea => Sys2Proof.Machine.execAslMem ea s
  | .lsrReg sz c r => Sys2Proof.Machine.execLsrReg sz c r s
  | .lsrMem ea => Sys2Proof.Machine.execLsrMem ea s
  | .lslReg sz c r => Sys2Proof.Machine.execLslReg sz c r s
  | .lslMem ea => Sys2Proof.Machine.execLslMem ea s
  | .roxrReg sz c r => Sys2Proof.Machine.execRoxrReg sz c r s
  | .roxrMem ea => Sys2Proof.Machine.execRoxrMem ea s
  | .roxlReg sz c r => Sys2Proof.Machine.execRoxlReg sz c r s
  | .roxlMem ea => Sys2Proof.Machine.execRoxlMem ea s
  | .rorReg sz c r => Sys2Proof.Machine.execRorReg sz c r s
  | .rorMem ea => Sys2Proof.Machine.execRorMem ea s
  | .rolReg sz c r => Sys2Proof.Machine.execRolReg sz c r s
  | .rolMem ea => Sys2Proof.Machine.execRolMem ea s
  | .lineA x => Sys2Proof.Machine.execLineA x s
  | .lineF x => Sys2Proof.Machine.execLineF x s

end Sys2Proof.Machine
end

