-- ==== Sys2Proof/Machine/Fetch.lean ====
section
/-! DEFINITION. What happens at an instruction boundary: the end of a run, external reset, interrupts, the fetch of
an instruction through the prefetch queue, and tracing (`60_exceptions.md` sections 3, 6 and 7,
`70_reset_and_hazards.md`). -/

namespace Sys2Proof.Machine

/-! ### What the platform presents -/

/-- A boundary at which the platform presents nothing: `ipl` 0 (R460). -/
def BusInput.quiet : BusInput := { ipl := 0, ack := .autovector, reset := false }

/-- What the platform presents at this boundary. -/
def State.input (s : State) : BusInput := s.inputs.head?.getD BusInput.quiet

/-- The state with this boundary's input used up and its level kept for the next (R460). -/
def State.consumeInput (s : State) : State := { s with inputs := s.inputs.tail, lastIpl := s.input.ipl }

/-- `take` of R460: the level is above the mask, or it is 7 and was not 7 at the last boundary. -/
def State.takesInterrupt (s : State) : Bool :=
  decide (s.sr.i < s.input.ipl) || (decide (s.input.ipl = 7) && decide (s.lastIpl ≠ 7))

/-- `ivec(l)` (R460). The number that a device supplies is the vector number whatever it is, those that R460 does not name
(0..14, 16..63) too: DESIGN CHOICE (log entry 28), unsafe. -/
def Acknowledge.vectorNumber (a : Acknowledge) (level : BitVec 3) : Nat :=
  match a with
  | .autovector => 24 + level.toNat
  | .vector v => v.toNat
  | .spurious => 24

/-! ### Reset (R490) -/

/-- The reset sequence (R490). D0 to D7, A0 to A6, USP and the five flags, whose values are unspecified, are free
(log entry 14). -/
def resetSequence : Exec Unit := do
  modify fun s =>
    let u := fun k => Config.free (s.draws + k)
    let f := u 16
    { s with
      d := #v[u 0, u 1, u 2, u 3, u 4, u 5, u 6, u 7]
      a := #v[u 8, u 9, u 10, u 11, u 12, u 13, u 14]
      usp := u 15
      sr := { StatusReg.reset with x := f.getLsbD 4, n := f.getLsbD 3, z := f.getLsbD 2, v := f.getLsbD 1, c := f.getLsbD 0 }
      prefetch := []
      run := .running
      traceDue := false
      draws := s.draws + 17 }
  let sp ← readMem .l .program (vectorAddress 0)
  modify fun s => { s with ssp := sp }
  let pc ← readMem .l .program (vectorAddress 1)
  modify fun s => s.jump pc

/-- The state after an external reset: a bus error while the vectors are read halts the processor (R491). -/
def resetProcessor (s : State) : State :=
  match resetSequence.run s with
  | .ok _ t => t
  | .error _ t => { t with run := .halted }

/-! ### The boundary (R445, R510) -/

/-- What a step does. -/
inductive Boundary where
  /-- `halt_addr` is reached: the final state -/
  | final
  /-- an external reset -/
  | reset
  /-- an interrupt is taken, with its level and vector number -/
  | interrupt (level : BitVec 3) (v : Nat)
  /-- the processor is halted and is not reset, or is stopped and nothing wakes it -/
  | waiting
  /-- an instruction is fetched and executed -/
  | fetch
deriving DecidableEq, Repr

/-- `pc` is at `halt_addr` (R510). A halted processor reaches no final state. -/
def State.atHalt (s : State) : Bool := decide (s.run ≠ .halted) && decide (s.haltAddr = some (s.pc &&& s.mem.addrMask))

/-- What happens at this boundary (R445, R452, R460, R510). -/
def boundary (s : State) : Boundary :=
  if s.atHalt then .final
  else if s.input.reset then .reset
  else if s.run = .halted then .waiting
  else if s.takesInterrupt then .interrupt s.input.ipl (s.input.ack.vectorNumber s.input.ipl)
  else if s.run = .stopped then .waiting
  else .fetch

/-! ### Fetching an instruction (`20_memory.md` R78, R79, R92) -/

/-- The word read ahead from an address, if the prefetch queue holds one (R48). -/
def State.queued (s : State) (a : Long) : Option Word := (s.prefetch.find? fun p => p.1 == a).map fun p => p.2

/-- The instruction-stream word at an address: the one in memory; but where the queue holds another, because a
store has changed memory since, the stored one may or may not be seen (R92), and a free bit chooses
(log entry 11). -/
def streamWord (a : Long) : Exec Word := fun s =>
  match s.queued a with
  | none => .ok (s.mem.word a) s
  | some w =>
    if w = s.mem.word a then .ok w s
    else .ok (if (Config.free s.draws).getLsbD 0 then w else s.mem.word a) { s with draws := s.draws + 1 }

/-- The next `n` words of the instruction stream from an address. -/
def streamWords : Nat → Long → Exec (List Word)
  | 0, _ => pure []
  | n + 1, a => do
    let w ← streamWord a
    let ws ← streamWords n (a + 2)
    return w :: ws

/-- The privileged instructions (R437, `49_not_documented.md` R603, R609, R610). -/
def isPrivileged : Instr → Bool
  | .oriToSr _ | .andiToSr _ | .eoriToSr _ | .moveToSr _ | .moveUsp _ _ | .reset | .stop _ | .rte => true
  | _ => false

/-- How many words of an instruction are fetched before its operands are evaluated. A privileged instruction in user
state is refused at its operation word (R437, R445). MOVE reads its source before it fetches the destination's extension
words (`40_addressing_modes.md` R180, R198; `47_data_movement.md` R383). Every other instruction's words all come before
its first access (`30_encoding.md` R115). -/
def wordsRead (i : Instr) (super : Bool) : Nat :=
  if isPrivileged i && !super then 1
  else match i with
    | .moveB src _ => 1 + src.words .b
    | .moveW src _ => 1 + src.words .w
    | .moveL src _ => 1 + src.words .l
    | i => i.words

/-- The word read ahead from an address (R48, R500). A word that is in the queue already stays as it was read or is read
again: R92 leaves open when it was read (log entry 11). -/
def readAhead (a : Long) : Exec (Long × Word) := do
  return (a, ← streamWord a)

/-- The fetch of the instruction at `pc`, none if the operation word is no instruction (R78, R151, R445 steps 2 and 3;
log entry 16), and the reading ahead of the two words after it (R48, R500). A trace exception becomes due if T is set
(R470). -/
def fetch : Exec (Option Instr) := do
  let pc := (← get).pc
  checkFetch 1 pc
  let ws ← streamWords maxWords pc
  modify fun s => { s with ir := ws.headD 0, traceDue := s.sr.t }
  match decodeWords ws with
  | .error _ => return none
  | .ok (i, _) =>
    checkFetch (wordsRead i (← get).sr.s) pc
    let npc := (← get).npc i.words
    let p ← readAhead npc
    let q ← readAhead (npc + 2)
    modify fun s => { s with prefetch := [p, q] }
    return some i

/-! ### After the instruction -/

/-- The trace exception, vector 9, saved PC the next instruction to be executed (R442, R470). -/
def traceException : Exec Unit := do
  modify fun s => { s with traceDue := false }
  exception 9 (← get).pc

/-- The state at the end of an instruction: the trace exception follows if it is still due (R470; log entry 10). -/
def finish (s : State) : State := if s.traceDue then complete traceException s else s

/-- An operation word that is no instruction (R433): vector 4, saved PC `pc0`. -/
def illegalWord (s : State) : State := complete (abortTo 4) s

/-! ### Placing an instruction -/

/-- Memory with words stored from an address upward. -/
def storeWords (m : Memory) (a : Long) : List Word → Memory
  | [] => m
  | w :: ws => storeWords (m.setWord a w) (a + 2) ws

end Sys2Proof.Machine
end

