-- ==== Sys2Proof/Machine/Step.lean ====
section
/-! DEFINITION. One step of the machine (`70_reset_and_hazards.md` R510), over the operations of Fetch.lean. -/

namespace Sys2Proof.Machine

/-- The instruction's outcome with what follows it: a trace exception that is due. -/
def afterExec (o : Host.Outcome State Fault Refusal) : Host.Outcome State Fault Refusal :=
  match o with
  | .next t => .next (finish t)
  | .fault r => .fault r
  | .refused r => .refused r

/-- Fetch, decode and execute (R445, R510). -/
def instructionStep (s : State) : Host.Outcome State Fault Refusal :=
  match fetch.run s with
  | .ok (some i) t => afterExec (exec i t)
  | .ok none t => .next (illegalWord t)
  | .error e t => .next (groupZero e t)

/-- One step (R510). A halted or stopped processor executes nothing, and the platform's next boundary follows
(`60_exceptions.md` R452, R474). -/
def step (s : State) : Host.Outcome State Fault Refusal :=
  match boundary s with
  | .final => .next s
  | .reset => .next (resetProcessor s.consumeInput)
  | .interrupt level v => .next (complete (interrupt level v) s.consumeInput)
  | .waiting => .next s.consumeInput
  | .fetch => instructionStep s.consumeInput

/-- The state with an instruction of the opcode table stored where `step` fetches its next instruction: at `pc`,
made even, with the queue empty and nothing at the boundary that keeps the processor from fetching there
(log entry 15). -/
def State.withFetchWord (s : State) (nbits w : Nat) : State :=
  let a := s.pc &&& 0xFFFFFFFE
  { s with
    pc := a
    mem := storeWords s.mem a (tableWords nbits w)
    prefetch := []
    run := .running
    inputs := []
    holes := []
    haltAddr := none }

end Sys2Proof.Machine
end

