-- ==== Sys2Proof/Laws/Memory.lean ====
section
/-! SUPPORT. The laws of memory: a read after a write, what a write leaves alone, and the canonical form. -/

namespace Sys2Proof.Machine

/-! ### One byte -/

theorem Cells.cell_without (m : Cells) (k j : Nat) :
    (m.without k).cell j = if j = k then Config.unlistedByte else m.cell j := by
  induction m with
  | nil => simp [Cells.without, Cells.cell]
  | cons c m ih =>
    by_cases hc : c.1 = k
    · have : Cells.without (c :: m) k = Cells.without m k := by simp [Cells.without, hc]
      rw [this, ih]
      by_cases hj : j = k
      · simp [hj]
      · have hcj : c.1 ≠ j := fun h => hj (h.symm.trans hc)
        simp [hj, Cells.cell, hcj]
    · have : Cells.without (c :: m) k = c :: Cells.without m k := by simp [Cells.without, hc]
      rw [this, Cells.cell, ih, Cells.cell]
      by_cases hj : c.1 = j
      · have hjk : j ≠ k := fun h => hc (hj.trans h)
        simp [hj, hjk]
      · simp [hj]

theorem Cells.cell_addCell (m : Cells) (k j : Nat) (v : Byte) (h : ∀ c ∈ m, c.1 ≠ k) :
    (m.addCell k v).cell j = if j = k then v else m.cell j := by
  induction m with
  | nil => simp [Cells.addCell, Cells.cell, eq_comm]
  | cons c m ih =>
    have hm : ∀ c ∈ m, c.1 ≠ k := fun d hd => h d (List.mem_cons_of_mem _ hd)
    have hc : c.1 ≠ k := h c List.mem_cons_self
    unfold Cells.addCell
    split
    · simp [Cells.cell, eq_comm]
    · rw [Cells.cell, ih hm, Cells.cell]
      by_cases hj : c.1 = j
      · simp only [hj, if_true]
        rw [if_neg fun e : j = k => hc (hj.trans e)]
      · simp [hj]

theorem Cells.not_mem_without (m : Cells) (k : Nat) : ∀ c ∈ m.without k, c.1 ≠ k := by
  intro c hc
  simpa using (List.mem_filter.1 hc).2

/-- A read after a write of one byte: the byte written at its own address, the old one elsewhere. -/
theorem Cells.cell_setCell (m : Cells) (k j : Nat) (v : Byte) : (m.setCell k v).cell j = if j = k then v else m.cell j := by
  unfold Cells.setCell
  split
  · next h => rw [Cells.cell_without, h]
  · rw [Cells.cell_addCell _ _ _ _ (Cells.not_mem_without m k), Cells.cell_without]
    split <;> simp_all

/-- The canonical form of the cells of a memory of a size (`Memory.wf`). -/
abbrev Cells.canonical (m : Cells) (size : Nat) : Prop :=
  m.Pairwise (fun c d => c.1 < d.1) ∧ ∀ c ∈ m, c.2 ≠ Config.unlistedByte ∧ c.1 < size

theorem Cells.canonical_without (m : Cells) (k size : Nat) (h : m.canonical size) : (m.without k).canonical size :=
  ⟨h.1.filter _, fun c hc => h.2 c (List.mem_filter.1 hc).1⟩

theorem Cells.mem_addCell (m : Cells) (k : Nat) (v : Byte) (c : Host.Cell) (h : c ∈ m.addCell k v) : c = (k, v) ∨ c ∈ m := by
  induction m with
  | nil => simpa [Cells.addCell] using h
  | cons d m ih =>
    unfold Cells.addCell at h
    split at h
    · simpa using h
    · rcases List.mem_cons.1 h with h | h
      · exact .inr (h ▸ List.mem_cons_self)
      · exact (ih h).imp id (List.mem_cons_of_mem _)

theorem Cells.pairwise_addCell (m : Cells) (k : Nat) (v : Byte) (h : m.Pairwise fun c d => c.1 < d.1)
    (hk : ∀ c ∈ m, c.1 ≠ k) : (m.addCell k v).Pairwise fun c d => c.1 < d.1 := by
  induction m with
  | nil => simp [Cells.addCell]
  | cons c m ih =>
    obtain ⟨hc, hm⟩ := List.pairwise_cons.1 h
    have hck : c.1 ≠ k := hk c List.mem_cons_self
    unfold Cells.addCell
    split
    · next hlt =>
      refine List.pairwise_cons.2 ⟨fun d hd => ?_, h⟩
      rcases List.mem_cons.1 hd with rfl | hd
      · exact hlt
      · exact Nat.lt_trans hlt (hc d hd)
    · next hge =>
      refine List.pairwise_cons.2 ⟨fun d hd => ?_, ih hm fun d hd => hk d (List.mem_cons_of_mem _ hd)⟩
      rcases Cells.mem_addCell m k v d hd with rfl | hd
      · show c.1 < k
        omega
      · exact hc d hd

/-- A write of one byte keeps the canonical form. -/
theorem Cells.canonical_setCell (m : Cells) (k size : Nat) (v : Byte) (h : m.canonical size) (hk : k < size) :
    (m.setCell k v).canonical size := by
  unfold Cells.setCell
  have hd := Cells.canonical_without m k size h
  split
  · exact hd
  · next hv =>
    refine ⟨Cells.pairwise_addCell _ k v hd.1 (Cells.not_mem_without m k), fun c hc => ?_⟩
    rcases Cells.mem_addCell _ k v c hc with rfl | hc
    · exact ⟨hv, hk⟩
    · exact hd.2 c hc

/-! ### Addresses -/

/-- A byte written changes the cells only. -/
@[simp] theorem Memory.setByte_addrBits (m : Memory) (a : Long) (v : Byte) : (m.setByte a v).addrBits = m.addrBits := rfl
@[simp] theorem Memory.setWord_addrBits (m : Memory) (a : Long) (v : Word) : (m.setWord a v).addrBits = m.addrBits := rfl
@[simp] theorem Memory.setLong_addrBits (m : Memory) (a : Long) (v : Long) : (m.setLong a v).addrBits = m.addrBits := rfl
@[simp] theorem Memory.store_addrBits (m : Memory) (sz : Size) (a : Long) (v : BitVec sz.bits) :
    (m.store sz a v).addrBits = m.addrBits := by cases sz <;> rfl

/-- Which byte an address selects depends only on the address width. -/
theorem Memory.key_congr {m n : Memory} (h : n.addrBits = m.addrBits) (a : Long) : n.key a = m.key a := by
  simp only [Memory.key, Memory.addrMask, h]
theorem Memory.addrMask_congr {m n : Memory} (h : n.addrBits = m.addrBits) : n.addrMask = m.addrMask := by
  simp only [Memory.addrMask, h]
@[simp] theorem Memory.key_setByte (m : Memory) (a b : Long) (v : Byte) : (m.setByte a v).key b = m.key b := rfl
@[simp] theorem Memory.key_setWord (m : Memory) (a b : Long) (v : Word) : (m.setWord a v).key b = m.key b := rfl
@[simp] theorem Memory.key_setLong (m : Memory) (a b : Long) (v : Long) : (m.setLong a v).key b = m.key b := rfl
@[simp] theorem Memory.key_store (m : Memory) (sz : Size) (a b : Long) (v : BitVec sz.bits) :
    (m.store sz a v).key b = m.key b := Memory.key_congr (Memory.store_addrBits m sz a v) b
@[simp] theorem Memory.addrMask_store (m : Memory) (sz : Size) (a : Long) (v : BitVec sz.bits) :
    (m.store sz a v).addrMask = m.addrMask := Memory.addrMask_congr (Memory.store_addrBits m sz a v)

/-- The address mask keeps the low `ADDR_BITS` bits (R72). -/
theorem Memory.key_eq (m : Memory) (a : Long) : m.key a = a.toNat % 2 ^ m.addrBits := by
  unfold Memory.key Memory.addrMask
  rw [BitVec.toNat_and, BitVec.toNat_ofNat]
  by_cases h : m.addrBits ≤ 32
  · have : 2 ^ m.addrBits ≤ 2 ^ 32 := Nat.pow_le_pow_right (by decide) h
    have h1 : 0 < 2 ^ m.addrBits := Nat.two_pow_pos _
    rw [Nat.mod_eq_of_lt (by omega), Nat.and_two_pow_sub_one_eq_mod]
  · obtain ⟨k, hk⟩ : ∃ k, m.addrBits = 32 + k := ⟨m.addrBits - 32, by omega⟩
    have h1 : 0 < 2 ^ k := Nat.two_pow_pos _
    have hall : (2 ^ m.addrBits - 1) % 2 ^ 32 = 2 ^ 32 - 1 := by
      rw [hk, Nat.pow_add]
      generalize 2 ^ k = j at h1
      omega
    have hlt : a.toNat < 2 ^ m.addrBits :=
      Nat.lt_of_lt_of_le a.isLt (Nat.pow_le_pow_right (by decide) (by omega))
    rw [hall, Nat.and_two_pow_sub_one_eq_mod, Nat.mod_eq_of_lt a.isLt, Nat.mod_eq_of_lt hlt]

theorem Memory.key_lt (m : Memory) (a : Long) : m.key a < 2 ^ m.addrBits := by
  rw [Memory.key_eq]
  exact Nat.mod_lt _ (Nat.two_pow_pos _)

/-- Addresses less than 1024 apart select different bytes, at every address width a processor can have. -/
theorem Memory.key_add_ne {m : Memory} (hm : m.addressable) (a : Long) (i j : Nat) (hi : i < 1024) (hj : j < 1024)
    (h : i ≠ j) : m.key (a + BitVec.ofNat 32 i) ≠ m.key (a + BitVec.ofNat 32 j) := by
  have h1 : ∀ b : Long, m.key b % 1024 = b.toNat % 1024 := by
    intro b
    rw [Memory.key_eq]
    exact Nat.mod_mod_of_dvd _ (Nat.pow_dvd_pow 2 (n := m.addrBits) (m := 10) hm.1)
  intro e
  have := congrArg (· % 1024) e
  simp only [h1, BitVec.toNat_add, BitVec.toNat_ofNat] at this
  omega

theorem Memory.key_add_ne' {m : Memory} (hm : m.addressable) (a : Long) (j : Nat) (hj : j < 1024) (h : j ≠ 0) :
    m.key a ≠ m.key (a + BitVec.ofNat 32 j) := by
  simpa using Memory.key_add_ne hm a 0 j (by decide) hj (Ne.symm h)

/-! ### Words and longs -/

theorem Memory.byte_setByte (m : Memory) (a b : Long) (v : Byte) :
    (m.setByte a v).byte b = if m.key a = m.key b then v else m.byte b := by
  show (m.cells.setCell (m.key a) v).cell (m.key b) = _
  rw [Cells.cell_setCell]
  simp only [eq_comm (a := m.key b)]
  rfl

theorem Memory.wf_setByte (m : Memory) (a : Long) (v : Byte) (h : m.wf) : (m.setByte a v).wf :=
  ⟨h.1, Cells.canonical_setCell m.cells _ _ v h.2 (m.key_lt a)⟩

theorem Memory.wf_setWord (m : Memory) (a : Long) (v : Word) (h : m.wf) : (m.setWord a v).wf :=
  Memory.wf_setByte _ _ _ (Memory.wf_setByte m a _ h)

theorem Memory.wf_setLong (m : Memory) (a : Long) (v : Long) (h : m.wf) : (m.setLong a v).wf :=
  Memory.wf_setWord _ _ _ (Memory.wf_setWord m a _ h)

/-- A store of any size keeps the canonical form. -/
theorem Memory.wf_store (m : Memory) (sz : Size) (a : Long) (v : BitVec sz.bits) (h : m.wf) : (m.store sz a v).wf := by
  cases sz
  · exact Memory.wf_setByte m a v h
  · exact Memory.wf_setWord m a v h
  · exact Memory.wf_setLong m a v h

theorem Memory.byte_setWord_of_ne (m : Memory) (a b : Long) (v : Word) (h0 : m.key a ≠ m.key b) (h1 : m.key (a + 1) ≠ m.key b) :
    (m.setWord a v).byte b = m.byte b := by
  rw [Memory.setWord, Memory.byte_setByte, Memory.key_setByte, Memory.key_setByte, if_neg h1, Memory.byte_setByte,
    if_neg h0]

/-- A store leaves every byte outside its range as it was. -/
theorem Memory.byte_store_of_not_inRange (m : Memory) (sz : Size) (a b : Long) (v : BitVec sz.bits)
    (h : ¬ m.inRange a sz.bytes b) : (m.store sz a v).byte b = m.byte b := by
  have hk : ∀ i, i < sz.bytes → m.key (a + BitVec.ofNat 32 i) ≠ m.key b := fun i hi e => h ⟨i, hi, e⟩
  cases sz
  · have h0 : m.key a ≠ m.key b := by simpa using hk 0 (by decide)
    exact (Memory.byte_setByte m a b v).trans (if_neg h0)
  · have h0 : m.key a ≠ m.key b := by simpa using hk 0 (by decide)
    have h1 : m.key (a + 1) ≠ m.key b := hk 1 (by decide)
    exact Memory.byte_setWord_of_ne m a b v h0 h1
  · have h0 : m.key a ≠ m.key b := by simpa using hk 0 (by decide)
    have h1 : m.key (a + 1) ≠ m.key b := hk 1 (by decide)
    have h2 : m.key (a + 2) ≠ m.key b := hk 2 (by decide)
    have h3 : m.key (a + 2 + 1) ≠ m.key b := by
      have := hk 3 (by decide)
      rwa [show a + 2 + 1 = a + BitVec.ofNat 32 3 by rw [BitVec.add_assoc]; rfl]
    show ((m.setWord a _).setWord (a + 2) _).byte b = _
    rw [Memory.byte_setWord_of_ne (m.setWord a _) _ _ _ h2 h3, Memory.byte_setWord_of_ne _ _ _ _ h0 h1]

theorem append_extract_word (v : Word) : v.extractLsb' 8 8 ++ v.extractLsb' 0 8 = v := by
  apply BitVec.eq_of_getLsbD_eq
  intro i hi
  simp only [BitVec.getLsbD_append, BitVec.getLsbD_extractLsb']
  split <;> rename_i h
  · simp [h]
  · have : i - 8 < 8 := by omega
    simp [this, show 8 + (i - 8) = i by omega]

theorem append_extract_long (v : Long) : v.extractLsb' 16 16 ++ v.extractLsb' 0 16 = v := by
  apply BitVec.eq_of_getLsbD_eq
  intro i hi
  simp only [BitVec.getLsbD_append, BitVec.getLsbD_extractLsb']
  split <;> rename_i h
  · simp [h]
  · have : i - 16 < 16 := by omega
    simp [this, show 16 + (i - 16) = i by omega]

theorem Memory.word_setWord {m : Memory} (hm : m.addressable) (a : Long) (v : Word) : (m.setWord a v).word a = v := by
  have h : m.key (a + 1) ≠ m.key a := (Memory.key_add_ne' hm a 1 (by decide) (by decide)).symm
  simp only [Memory.word, Memory.setWord, Memory.byte_setByte, Memory.key_setByte, if_true, if_neg h]
  exact append_extract_word v

theorem Memory.word_setWord_of_ne (m : Memory) (a b : Long) (v : Word) (h00 : m.key a ≠ m.key b) (h01 : m.key a ≠ m.key (b + 1))
    (h10 : m.key (a + 1) ≠ m.key b) (h11 : m.key (a + 1) ≠ m.key (b + 1)) : (m.setWord a v).word b = m.word b := by
  rw [Memory.word, Memory.byte_setWord_of_ne m a b v h00 h10, Memory.byte_setWord_of_ne m a (b + 1) v h01 h11, Memory.word]

theorem Memory.long_setLong {m : Memory} (hm : m.addressable) (a : Long) (v : Long) : (m.setLong a v).long a = v := by
  have h0 : m.key (a + 2) ≠ m.key a := (Memory.key_add_ne' hm a 2 (by decide) (by decide)).symm
  have h1 : m.key (a + 2) ≠ m.key (a + 1) := (Memory.key_add_ne hm a 1 2 (by decide) (by decide) (by decide)).symm
  have e : a + 2 + 1 = a + BitVec.ofNat 32 3 := by rw [BitVec.add_assoc]; rfl
  have h2 : m.key (a + 2 + 1) ≠ m.key a := e ▸ (Memory.key_add_ne' hm a 3 (by decide) (by decide)).symm
  have h3 : m.key (a + 2 + 1) ≠ m.key (a + 1) :=
    e ▸ (Memory.key_add_ne hm a 1 3 (by decide) (by decide) (by decide)).symm
  rw [Memory.long, Memory.setLong, Memory.word_setWord (m := m.setWord a _) hm,
    Memory.word_setWord_of_ne (m.setWord a _) _ _ _ h0 h1 h2 h3, Memory.word_setWord hm]
  exact append_extract_long v

/-! ### Words and longs at offsets from one address, less than 1024 bytes apart -/

theorem Memory.word_setWord_offset {m : Memory} (hm : m.addressable) (a : Long) (v : Word) (i j : Nat) (hi : i < 1000)
    (hj : j < 1000) (h : i + 1 < j ∨ j + 1 < i) :
    (m.setWord (a + BitVec.ofNat 32 i) v).word (a + BitVec.ofNat 32 j) = m.word (a + BitVec.ofNat 32 j) := by
  have next : ∀ k : Nat, a + BitVec.ofNat 32 k + 1 = a + BitVec.ofNat 32 (k + 1) := by
    intro k
    rw [BitVec.add_assoc, BitVec.ofNat_add]
    rfl
  have ne : ∀ k l : Nat, k < 1024 → l < 1024 → k ≠ l → m.key (a + BitVec.ofNat 32 k) ≠ m.key (a + BitVec.ofNat 32 l) :=
    Memory.key_add_ne hm a
  refine Memory.word_setWord_of_ne m _ _ _ (ne i j ?_ ?_ ?_) ?_ ?_ ?_
  · omega
  · omega
  · omega
  · rw [next]
    exact ne i (j + 1) (by omega) (by omega) (by omega)
  · rw [next]
    exact ne (i + 1) j (by omega) (by omega) (by omega)
  · rw [next, next]
    exact ne (i + 1) (j + 1) (by omega) (by omega) (by omega)

theorem offset_two (a : Long) (k : Nat) : a + BitVec.ofNat 32 k + 2 = a + BitVec.ofNat 32 (k + 2) := by
  rw [BitVec.add_assoc, BitVec.ofNat_add]
  rfl

theorem Memory.word_setLong_offset {m : Memory} (hm : m.addressable) (a : Long) (v : Long) (i j : Nat) (hi : i < 998)
    (hj : j < 998) (h : i + 3 < j ∨ j + 1 < i) :
    (m.setLong (a + BitVec.ofNat 32 i) v).word (a + BitVec.ofNat 32 j) = m.word (a + BitVec.ofNat 32 j) := by
  unfold Memory.setLong
  rw [offset_two, Memory.word_setWord_offset (m := m.setWord _ _) hm _ _ _ _ (by omega) (by omega) (by omega),
    Memory.word_setWord_offset hm _ _ _ _ (by omega) (by omega) (by omega)]

theorem Memory.long_setWord_offset {m : Memory} (hm : m.addressable) (a : Long) (v : Word) (i j : Nat) (hi : i < 998)
    (hj : j < 998) (h : i + 1 < j ∨ j + 3 < i) :
    (m.setWord (a + BitVec.ofNat 32 i) v).long (a + BitVec.ofNat 32 j) = m.long (a + BitVec.ofNat 32 j) := by
  unfold Memory.long
  rw [offset_two, Memory.word_setWord_offset hm _ _ _ _ (by omega) (by omega) (by omega),
    Memory.word_setWord_offset hm _ _ _ _ (by omega) (by omega) (by omega)]

/-- A load after a store at the same address gives the value stored. -/
theorem Memory.load_store {m : Memory} (hm : m.addressable) (sz : Size) (a : Long) (v : BitVec sz.bits) : (m.store sz a v).load sz a = v := by
  cases sz
  · exact (Memory.byte_setByte m a a v).trans (if_pos rfl)
  · exact Memory.word_setWord hm a v
  · exact Memory.long_setLong hm a v

/-- Memory with nothing listed is in canonical form. -/
theorem Memory.wf_empty : Memory.empty.wf := ⟨by decide, List.Pairwise.nil, fun _ h => nomatch h⟩

end Sys2Proof.Machine
end

