-- ==== Sys2Proof/Safety.lean ====
section
/-! DEFINITION. What the statements mean by a sound state and by a run that goes on. -/

namespace Sys2Proof.Machine

/-- The invariant of the machine between steps: memory has its canonical form, the prefetch queue holds at most two
words (`10_state.md` R48), and no trace exception is due (it is taken inside the step, `60_exceptions.md` R470). -/
abbrev State.wf (s : State) : Prop := s.mem.wf ∧ s.prefetch.length ≤ 2 ∧ s.traceDue = false

/-- A run of `k` steps from a state meets no fault and no refusal. -/
def goesOn (k : Nat) (s : State) : Prop := ∃ t, Sys2Proof.core.run k s = .next t

end Sys2Proof.Machine
end

