-- ==== Sys2Proof/Certificates/Slice0/Obligations.lean ====
section
/-! DEFINITION. The statements for the provers. The first part, `Sys2Proof.Claims`, writes the terms of spec/ out
where the model computes them in another way. -/

namespace Sys2Proof.Claims

open Sys2Proof.Machine

/-! ### Accesses that memory answers -/

/-- An access of a size at an address is performed: the address is even unless the access is a byte, and every byte
is mapped (`20_memory.md` R74 to R76, R83). -/
def answers (s : State) (kind : AccessKind) (sz : Size) (a : Long) : Bool :=
  (decide (sz = .b) || !a.getLsbD 0) && (List.range sz.bytes).all fun k => s.mapped kind (a + BitVec.ofNat 32 k)

/-- Reading an operand meets no bus or address error. -/
def reads (sz : Size) (l : Loc) (s : State) : Bool :=
  match l with
  | .mem a _ => answers s .read sz a
  | .dreg _ | .areg _ | .imm _ => true

/-- Writing an operand meets no bus or address error. -/
def writes (sz : Size) (l : Loc) (s : State) : Bool :=
  match l with
  | .mem a _ => answers s .write sz a
  | .dreg _ | .areg _ | .imm _ => true

/-- `n` words of the instruction stream from an address can be fetched (`20_memory.md` R78). -/
def streams (s : State) (n : Nat) (a : Long) : Bool := (List.range n).all fun k => answers s .fetch .w (a + BitVec.ofNat 32 (2 * k))

/-- The machine with an access error's or exception's supervisor state. -/
def inSupervisor (s : State) : State := { s with sr := { s.sr with s := true, t := false } }

/-- The six bytes below SSP can be written and the vector read: `Exception(v, _)` meets no error (R440, R441). -/
def canEnter (v : Nat) (s : State) : Bool :=
  answers (inSupervisor s) .write .l (s.ssp - 4) && answers (inSupervisor s) .write .w (s.ssp - 6) &&
    answers (inSupervisor s) .read .l (4 * BitVec.ofNat 32 v)

/-- The state after `Exception(v, savedPc)` (`60_exceptions.md` R440): SR and the saved PC on the supervisor stack,
S set, T cleared, control at the vector. -/
def entered (v : Nat) (savedPc : Long) (s : State) : State :=
  let m := (s.mem.setLong (s.ssp - 4) savedPc).setWord (s.ssp - 6) s.sr.toWord
  { s with
    ssp := s.ssp - 6
    mem := m
    sr := { s.sr with s := true, t := false }
    pc := m.long (4 * BitVec.ofNat 32 v)
    prefetch := []
    run := .running }

/-- The fourteen bytes below SSP can be written and the vector read: the exception of a bus or address error meets no other
(R443, R452). -/
def canEnterError (v : Nat) (s : State) : Bool :=
  !s.ssp.getLsbD 0 && ((List.range 14).all fun k => (inSupervisor s).mapped .write (s.ssp - 14 + BitVec.ofNat 32 k)) &&
    answers (inSupervisor s) .read .l (4 * BitVec.ofNat 32 v)

/-- `t` is a state after the exception, vector 2 or 3, of a bus or address error at an address (R431, R432, R443), which
ended the machine's work in the state `s`: on the supervisor stack the kind of the access and its function code, its
address, the instruction register, SR and a PC that is not said; control at the vector; every register and every other
byte of memory as in `s`. -/
def ErrorEntered (vector : Nat) (address : Long) (kind : AccessKind) (sp : Space) (s t : State) : Prop :=
  t.ssp = s.ssp - 14 ∧
  (t.mem.word t.ssp).getLsbD 4 = decide (kind ≠ .write) ∧ (t.mem.word t.ssp).getLsbD 3 = decide (kind ≠ .fetch) ∧
  (t.mem.word t.ssp).extractLsb' 0 3 =
    (match sp, s.sr.s with | .data, false => 1#3 | .program, false => 2#3 | .data, true => 5#3 | .program, true => 6#3) ∧
  t.mem.long (t.ssp + 2) = address ∧ t.mem.word (t.ssp + 6) = s.ir ∧ t.mem.word (t.ssp + 8) = s.sr.toWord ∧
  (∀ b, ¬ s.mem.inRange (s.ssp - 14) 14 b → t.mem.byte b = s.mem.byte b) ∧
  t.pc = t.mem.long (4 * BitVec.ofNat 32 vector) ∧ t.sr = { s.sr with s := true, t := false } ∧
  t.d = s.d ∧ t.a = s.a ∧ t.usp = s.usp ∧ t.run = .running ∧ t.prefetch = [] ∧ t.traceDue = false

/-- MOVE of a size. -/
def moveOf (sz : Size) (src dst : EA) : Instr :=
  match sz with
  | .b => .moveB src dst
  | .w => .moveW src dst
  | .l => .moveL src dst

/-- MOVE from an operand to Dn, or from Dn to the operand, whose own extension words answer; the two directions. -/
def transfers (write : Bool) (sz : Size) (ea : EA) (d : Reg) (s : State) : Option (Instr × AccessKind) :=
  if !write then some (moveOf sz ea (.dn d), .read)
  else if streams s (ea.words sz) (s.npc 1) then some (moveOf sz (.dn d) ea, .write) else none

/-! ### Results and flags in integers (`00_scope.md` R11) -/

/-- An integer is in the signed range of `n` bits. -/
def fits (n : Nat) (z : Int) : Bool := decide (-(2 ^ (n - 1) : Int) ≤ z ∧ z < (2 ^ (n - 1) : Int))

/-- `d + s` with the flags of R206 and R211: C and X a carry, V a signed overflow. -/
def sumOf {n : Nat} (s d : BitVec n) (f : StatusReg) : BitVec n × StatusReg :=
  let r := d + s
  let c := decide (2 ^ n ≤ d.toNat + s.toNat)
  (r, { f with x := c, n := r.msb, z := decide (r = 0), v := !fits n (d.toInt + s.toInt), c := c })

/-- `d - s` with the flags of R207 and R224: C and X a borrow, V a signed overflow. -/
def diffOf {n : Nat} (s d : BitVec n) (f : StatusReg) : BitVec n × StatusReg :=
  let r := d - s
  let c := decide (d.toNat < s.toNat)
  (r, { f with x := c, n := r.msb, z := decide (r = 0), v := !fits n (d.toInt - s.toInt), c := c })

/-- `d + s + X` with the flags of R215: Z is cleared or kept. -/
def sumXOf {n : Nat} (s d : BitVec n) (f : StatusReg) : BitVec n × StatusReg :=
  let r := BitVec.ofNat n (d.toNat + s.toNat + f.x.toNat)
  let c := decide (2 ^ n ≤ d.toNat + s.toNat + f.x.toNat)
  (r, { f with x := c, n := r.msb, z := f.z && decide (r = 0), v := !fits n (d.toInt + s.toInt + f.x.toNat), c := c })

/-- `d - s - X` with the flags of R228: Z is cleared or kept. -/
def diffXOf {n : Nat} (s d : BitVec n) (f : StatusReg) : BitVec n × StatusReg :=
  let r := BitVec.ofInt n ((d.toNat : Int) - s.toNat - f.x.toNat)
  let c := decide (d.toNat < s.toNat + f.x.toNat)
  (r, { f with x := c, n := r.msb, z := f.z && decide (r = 0), v := !fits n (d.toInt - s.toInt - f.x.toNat), c := c })

/-- The flags of `d - s`, X kept (R217). -/
def compareOf {n : Nat} (s d : BitVec n) (f : StatusReg) : StatusReg := { (diffOf s d f).2 with x := f.x }

/-- N and Z from a result, V and C cleared, X kept (R287). -/
def testOf {n : Nat} (r : BitVec n) (f : StatusReg) : StatusReg :=
  { f with n := r.msb, z := decide (r = 0), v := false, c := false }

/-- `r` is the decimal sum of packed BCD operands `v` and `w` and a carry-in, and `c` its decimal carry (R210); of other
operands nothing is said. -/
def DecimalSum (v w : Byte) (x : Bool) (r : Byte) (c : Bool) : Prop :=
  isBcd v = true → isBcd w = true →
    isBcd r = true ∧ bcdValue r = (bcdValue v + bcdValue w + x.toNat) % 100 ∧
    c = decide (100 ≤ bcdValue v + bcdValue w + x.toNat)

/-- `r` is the decimal difference `w - v` of packed BCD operands less a borrow-in, and `c` its decimal borrow (R607). -/
def DecimalDifference (v w : Byte) (x : Bool) (r : Byte) (c : Bool) : Prop :=
  isBcd v = true → isBcd w = true →
    isBcd r = true ∧ (bcdValue r : Int) = ((bcdValue w : Int) - bcdValue v - x.toNat) % 100 ∧
    c = decide (bcdValue w < bcdValue v + x.toNat)

/-- The flags after a decimal operation: C and X the carry, Z cleared or kept, N and V as given (R210). -/
def decimalFlagsOf (r : Byte) (c n o : Bool) (f : StatusReg) : StatusReg :=
  { f with x := c, n := n, z := f.z && decide (r = 0), v := o, c := c }

/-! ### Instruction shapes -/

/-- `op <ea>,Dn`: the source is read; the low bits of Dn and the flags are what `op` gives of source, Dn and flags. -/
def ToData (i : Instr) (sz : Size) (ea : EA) (d : Reg)
    (op : BitVec sz.bits → BitVec sz.bits → StatusReg → BitVec sz.bits × StatusReg) (s : State) : Prop :=
  let p := evalEA (s.npc 1) sz ea s
  reads sz p.1 p.2 = true →
  let r := op (p.1.value sz p.2) (s.getDn sz d) s.sr
  exec i s = .next (((p.2.setDn sz d r.1).setSr r.2).advance (1 + ea.words sz))

/-- `op <ea>,An`: the source, sign-extended, and An give An; no flag changes. -/
def ToAddress (i : Instr) (sz : Size) (ea : EA) (a : Reg) (op : Long → Long → Long) (s : State) : Prop :=
  let p := evalEA (s.npc 1) sz ea s
  reads sz p.1 p.2 = true →
  exec i s = .next ((p.2.setA a (op ((p.1.value sz p.2).signExtend 32) (p.2.getA a))).advance (1 + ea.words sz))

/-- An operand is read, changed and written back at its one location; `own` words precede its own. -/
def Modifies (i : Instr) (own : Nat) (sz : Size) (ea : EA) (op : BitVec sz.bits → StatusReg → BitVec sz.bits × StatusReg)
    (s : State) : Prop :=
  let p := evalEA (s.npc (1 + own)) sz ea s
  reads sz p.1 p.2 = true → writes sz p.1 p.2 = true →
  let r := op (p.1.value sz p.2) s.sr
  exec i s = .next (((p.1.put sz r.1 p.2).setSr r.2).advance (1 + own + ea.words sz))

/-- An operand is read for the flags only. -/
def Tests (i : Instr) (own : Nat) (sz : Size) (ea : EA) (op : BitVec sz.bits → StatusReg → StatusReg) (s : State) : Prop :=
  let p := evalEA (s.npc (1 + own)) sz ea s
  reads sz p.1 p.2 = true →
  exec i s = .next ((p.2.setSr (op (p.1.value sz p.2) s.sr)).advance (1 + own + ea.words sz))

/-- A register-pair form: the low bits of Dy and Dx, or the operands at `-(Ay)` and then `-(Ax)`; the result goes to
the second. -/
def Pairs (i : Bool → Instr) (sz : Size) (y x : Reg)
    (op : BitVec sz.bits → BitVec sz.bits → StatusReg → BitVec sz.bits × StatusReg) (s : State) : Prop :=
  (let r := op (s.getDn sz y) (s.getDn sz x) s.sr
   exec (i false) s = .next (((s.setDn sz x r.1).setSr r.2).advance 1)) ∧
  (let b := s.getA y - stepOf y sz
   let t := s.setA y b
   let a := t.getA x - stepOf x sz
   let u := t.setA x a
   answers s .read sz b = true → answers s .read sz a = true → answers s .write sz a = true →
   let r := op (s.mem.load sz b) (s.mem.load sz a) s.sr
   exec (i true) s = .next (({ u with mem := s.mem.store sz a r.1 }.setSr r.2).advance 1))

/-! ### Shifts and rotates in closed form (`44_shift_rotate.md` R302 to R309) -/

/-- N and Z of a result (R301). -/
def signZeroOf {n : Nat} (r : BitVec n) (f : StatusReg) : StatusReg := { f with n := r.msb, z := decide (r = 0) }

/-- C and X of a shift by `c` whose last bit out is `out`: C cleared and X kept for a count of zero. -/
def shiftedFlags {n : Nat} (r : BitVec n) (c : Nat) (out v : Bool) (f : StatusReg) : BitVec n × StatusReg :=
  (r, signZeroOf r { f with x := if c = 0 then f.x else out, c := decide (c ≠ 0) && out, v := v })

/-- ASL: V is set if the most significant bit differs from the operand's after any of the first `c` steps (R302). -/
def aslOf {n : Nat} (v : BitVec n) (c : Nat) (f : StatusReg) : BitVec n × StatusReg :=
  shiftedFlags (v <<< c) c (v <<< (c - 1)).msb ((List.range (c + 1)).any fun k => (v <<< k).msb != v.msb) f

/-- ASR (R303). -/
def asrOf {n : Nat} (v : BitVec n) (c : Nat) (f : StatusReg) : BitVec n × StatusReg :=
  shiftedFlags (v.sshiftRight c) c ((v.sshiftRight (c - 1)).getLsbD 0) false f

/-- LSL (R304). -/
def lslOf {n : Nat} (v : BitVec n) (c : Nat) (f : StatusReg) : BitVec n × StatusReg :=
  shiftedFlags (v <<< c) c (v <<< (c - 1)).msb false f

/-- LSR (R305). -/
def lsrOf {n : Nat} (v : BitVec n) (c : Nat) (f : StatusReg) : BitVec n × StatusReg :=
  shiftedFlags (v >>> c) c ((v >>> (c - 1)).getLsbD 0) false f

/-- ROL: the operand rotated; C is the bit that last wrapped round (R306). -/
def rolOf {n : Nat} (v : BitVec n) (c : Nat) (f : StatusReg) : BitVec n × StatusReg :=
  let r := v.rotateLeft c
  (r, signZeroOf r { f with c := decide (c ≠ 0) && r.getLsbD 0, v := false })

/-- ROR (R307). -/
def rorOf {n : Nat} (v : BitVec n) (c : Nat) (f : StatusReg) : BitVec n × StatusReg :=
  let r := v.rotateRight c
  (r, signZeroOf r { f with c := decide (c ≠ 0) && r.msb, v := false })

/-- ROXL: the `n + 1` bits `X ++ v` rotated left; C is X (R308). -/
def roxlOf {n : Nat} (v : BitVec n) (c : Nat) (f : StatusReg) : BitVec n × StatusReg :=
  let w := (BitVec.ofBool f.x ++ v).rotateLeft c
  let r := w.extractLsb' 0 n
  (r, signZeroOf r { f with x := w.getLsbD n, c := w.getLsbD n, v := false })

/-- ROXR: the `n + 1` bits `v ++ X` rotated right; C is X (R309). -/
def roxrOf {n : Nat} (v : BitVec n) (c : Nat) (f : StatusReg) : BitVec n × StatusReg :=
  let w := (v ++ BitVec.ofBool f.x).rotateRight c
  let r := w.extractLsb' 1 n
  (r, signZeroOf r { f with x := w.getLsbD 0, c := w.getLsbD 0, v := false })

/-- The count of a register form (R300). -/
def countOf (c : ShiftCount) (s : State) : Nat :=
  match c with
  | .imm n => if n = 0 then 8 else n.toNat
  | .reg r => (s.getD r).toNat % 64

/-- A shift or rotate in its register forms and, by one on a word, its memory form (R300, R310). -/
def Shifts (reg : Size → ShiftCount → Reg → Instr) (mem : EA → Instr)
    (op : (n : Nat) → BitVec n → Nat → StatusReg → BitVec n × StatusReg) (s : State) : Prop :=
  (∀ (sz : Size) (c : ShiftCount) (r : Reg),
    let p := op sz.bits (s.getDn sz r) (countOf c s) s.sr
    exec (reg sz c r) s = .next (((s.setDn sz r p.1).setSr p.2).advance 1)) ∧
  ∀ ea : EA, Modifies (mem ea) 0 .w ea (fun v f => op Size.w.bits v 1 f) s

/-! ### What an instruction may change -/

/-- The data registers an instruction may write (`10_state.md` R42 and the instruction's rule). -/
def dataWritten : Instr → List Reg
  | .ori _ _ ea | .andi _ _ ea | .subi _ _ ea | .addi _ _ ea | .eori _ _ ea => dataOf ea
  | .bchg _ ea | .bclr _ ea | .bset _ ea | .bchgDn _ ea | .bclrDn _ ea | .bsetDn _ ea => dataOf ea
  | .movep toMem _ d _ _ => if toMem then [] else [d]
  | .moveB _ dst | .moveW _ dst | .moveL _ dst => dataOf dst
  | .negx _ ea | .clr _ ea | .neg _ ea | .not _ ea | .moveFromSr ea | .nbcd ea | .tas ea => dataOf ea
  | .swap r | .extW r | .extL r | .moveq _ r | .dbcc _ r _ => [r]
  | .movemToRegs _ mask _ => [0, 1, 2, 3, 4, 5, 6, 7].filter fun r : Reg => mask.getLsbD r.toNat
  | .addq _ _ ea | .subq _ _ ea | .scc _ ea => dataOf ea
  | .orEaDn _ _ d | .andEaDn _ _ d | .addEaDn _ _ d | .subEaDn _ _ d => [d]
  | .orDnEa _ _ ea | .andDnEa _ _ ea | .addDnEa _ _ ea | .subDnEa _ _ ea | .eor _ _ ea => dataOf ea
  | .divu _ d | .divs _ d | .mulu _ d | .muls _ d => [d]
  | .sbcd mem _ x | .abcd mem _ x | .addx _ mem _ x | .subx _ mem _ x => if mem then [] else [x]
  | .exgDD x y => [x, y]
  | .exgDA x _ => [x]
  | .asrReg _ _ r | .aslReg _ _ r | .lsrReg _ _ r | .lslReg _ _ r => [r]
  | .roxrReg _ _ r | .roxlReg _ _ r | .rorReg _ _ r | .rolReg _ _ r => [r]
  | .asrMem ea | .aslMem ea | .lsrMem ea | .lslMem ea | .roxrMem ea | .roxlMem ea | .rorMem ea | .rolMem ea => dataOf ea
  | _ => []
where
  /-- The data register an operand is. -/
  dataOf : EA → List Reg
    | .dn r => [r]
    | _ => []

/-- The address register that evaluating an operand steps (`40_addressing_modes.md` R184, R185). -/
def stepped : EA → List Reg
  | .post r | .pre r => [r]
  | _ => []

/-- The address register an operand is or steps. -/
def steppedOrIs : EA → List Reg
  | .an r | .post r | .pre r => [r]
  | _ => []

/-- The address registers an instruction may write: a destination, a register its addressing modes step, and A7 where
it uses the stack. -/
def addressWritten : Instr → List Reg
  | .ori _ _ ea | .andi _ _ ea | .subi _ _ ea | .addi _ _ ea | .eori _ _ ea => steppedOrIs ea
  | .cmpi _ _ ea | .btst _ ea | .btstDn _ ea | .tst _ ea | .moveToCcr ea | .moveToSr ea | .chk ea _ => stepped ea
  | .bchg _ ea | .bclr _ ea | .bset _ ea | .bchgDn _ ea | .bclrDn _ ea | .bsetDn _ ea => steppedOrIs ea
  | .moveB src dst | .moveW src dst | .moveL src dst => stepped src ++ steppedOrIs dst
  | .moveaW src a | .moveaL src a => a :: stepped src
  | .negx _ ea | .clr _ ea | .neg _ ea | .not _ ea | .moveFromSr ea | .nbcd ea | .tas ea => steppedOrIs ea
  | .pea ea | .jsr ea => 7 :: stepped ea
  | .jmp ea => stepped ea
  | .movemToMem _ _ ea => stepped ea
  | .movemToRegs _ mask ea => stepped ea ++ [0, 1, 2, 3, 4, 5, 6, 7].filter fun r : Reg => mask.getLsbD (8 + r.toNat)
  | .link r _ | .unlk r => [7, r]
  | .moveUsp toReg r => if toReg then [r] else []
  | .rte | .rts | .rtr | .bsr _ => [7]
  | .lea ea a => a :: stepped ea
  | .addq _ _ ea | .subq _ _ ea | .scc _ ea => steppedOrIs ea
  | .orEaDn _ ea _ | .andEaDn _ ea _ | .addEaDn _ ea _ | .subEaDn _ ea _ | .cmp _ ea _ => stepped ea
  | .orDnEa _ _ ea | .andDnEa _ _ ea | .addDnEa _ _ ea | .subDnEa _ _ ea | .eor _ _ ea => steppedOrIs ea
  | .divu ea _ | .divs ea _ | .mulu ea _ | .muls ea _ => stepped ea
  | .sbcd mem y x | .abcd mem y x | .addx _ mem y x | .subx _ mem y x => if mem then [y, x] else []
  | .cmpm _ y x => [y, x]
  | .adda _ ea a | .suba _ ea a => a :: stepped ea
  | .cmpa _ ea _ => stepped ea
  | .exgAA x y => [x, y]
  | .exgDA _ y => [y]
  | .asrMem ea | .aslMem ea | .lsrMem ea | .lslMem ea | .roxrMem ea | .roxlMem ea | .rorMem ea | .rolMem ea => steppedOrIs ea
  | _ => []

/-- The flags an instruction may change, X N Z V C from bit 4 down (`10_state.md` R42; for the instructions the source
does not document, log entry 4). -/
def flagsWritten : Instr → BitVec 5
  | .abcd _ _ _ | .sbcd _ _ _ | .nbcd _ => 0b11111
  | .addEaDn _ _ _ | .addDnEa _ _ _ | .addi _ _ _ | .addx _ _ _ _ => 0b11111
  | .subEaDn _ _ _ | .subDnEa _ _ _ | .subi _ _ _ | .subx _ _ _ _ => 0b11111
  | .addq _ _ ea | .subq _ _ ea => if ea.mode = .an then 0 else 0b11111
  | .neg _ _ | .negx _ _ => 0b11111
  | .andEaDn _ _ _ | .andDnEa _ _ _ | .andi _ _ _ | .orEaDn _ _ _ | .orDnEa _ _ _ | .ori _ _ _ => 0b01111
  | .eor _ _ _ | .eori _ _ _ | .not _ _ => 0b01111
  | .aslReg _ _ _ | .aslMem _ | .asrReg _ _ _ | .asrMem _ | .lslReg _ _ _ | .lslMem _ | .lsrReg _ _ _ | .lsrMem _ => 0b11111
  | .roxlReg _ _ _ | .roxlMem _ | .roxrReg _ _ _ | .roxrMem _ => 0b11111
  | .rolReg _ _ _ | .rolMem _ | .rorReg _ _ _ | .rorMem _ => 0b01111
  | .btst _ _ | .bchg _ _ | .bclr _ _ | .bset _ _ | .btstDn _ _ | .bchgDn _ _ | .bclrDn _ _ | .bsetDn _ _ => 0b00100
  | .clr _ _ | .tst _ _ | .cmp _ _ _ | .cmpa _ _ _ | .cmpi _ _ _ | .cmpm _ _ _ => 0b01111
  | .divu _ _ | .divs _ _ | .mulu _ _ | .muls _ _ => 0b01111
  | .extW _ | .extL _ | .moveB _ _ | .moveW _ _ | .moveL _ _ | .moveq _ _ | .swap _ | .tas _ | .chk _ _ => 0b01111
  | .oriToCcr _ | .andiToCcr _ | .eoriToCcr _ | .moveToCcr _ | .rtr => 0b11111
  | .oriToSr _ | .andiToSr _ | .eoriToSr _ | .moveToSr _ | .stop _ | .rte => 0b11111
  | _ => 0

/-- The instructions that write SR as a whole (`10_state.md` R43, `49_not_documented.md` R603, R609). -/
def writesSr : Instr → Bool
  | .oriToSr _ | .andiToSr _ | .eoriToSr _ | .moveToSr _ | .stop _ | .rte => true
  | _ => false

/-- The ranges of bytes an instruction stores to when it completes: the address, computed as the instruction computes
it, and the number of bytes. -/
def storedRanges (i : Instr) (s : State) : List (Long × Nat) :=
  match i with
  | .ori sz _ ea | .andi sz _ ea | .subi sz _ ea | .addi sz _ ea | .eori sz _ ea => at_ (immWords sz) sz ea
  | .bchg _ ea | .bclr _ ea | .bset _ ea => at_ 1 .b ea
  | .bchgDn _ ea | .bclrDn _ ea | .bsetDn _ ea | .nbcd ea | .tas ea | .scc _ ea => at_ 0 .b ea
  | .movep toMem long _ a disp =>
    let b := s.getA a + disp.signExtend 32
    if toMem then (if long then [(b, 1), (b + 2, 1), (b + 4, 1), (b + 6, 1)] else [(b, 1), (b + 2, 1)]) else []
  | .moveB src dst => after .b src dst
  | .moveW src dst => after .w src dst
  | .moveL src dst => after .l src dst
  | .negx sz ea | .clr sz ea | .neg sz ea | .not sz ea => at_ 0 sz ea
  | .addq sz _ ea | .subq sz _ ea => at_ 0 sz ea
  | .moveFromSr ea => at_ 0 .w ea
  | .orDnEa sz _ ea | .andDnEa sz _ ea | .addDnEa sz _ ea | .subDnEa sz _ ea | .eor sz _ ea => at_ 0 sz ea
  | .asrMem ea | .aslMem ea | .lsrMem ea | .lslMem ea | .roxrMem ea | .roxlMem ea | .rorMem ea | .rolMem ea => at_ 0 .w ea
  | .sbcd mem y x | .abcd mem y x => if mem then pairAt .b y x else []
  | .addx sz mem y x | .subx sz mem y x => if mem then pairAt sz y x else []
  | .movemToMem long mask ea =>
    let sz := wordOrLong long
    let n := sz.bytes * ((List.range 16).filter fun k => mask.getLsbD k).length
    match ea with
    | .pre r => [(s.getA r - BitVec.ofNat 32 n, n)]
    | ea => [((evalEA (s.npc 2) sz ea s).1.addr, n)]
  | .pea ea | .jsr ea => [((evalEA (s.npc 1) .l ea s).2.sp - 4, 4)]
  | .bsr _ | .link _ _ => [(s.sp - 4, 4)]
  | _ => []
where
  /-- The bytes of a memory operand, `own` words before its own. -/
  at_ (own : Nat) (sz : Size) (ea : EA) : List (Long × Nat) :=
    let l := (evalEA (s.npc (1 + own)) sz ea s).1
    if l.inMemory then [(l.addr, sz.bytes)] else []
  /-- The bytes of MOVE's memory destination, evaluated after the source. -/
  after (sz : Size) (src dst : EA) : List (Long × Nat) :=
    let l := (evalEA (s.npc (1 + src.words sz)) sz dst (evalEA (s.npc 1) sz src s).2).1
    if l.inMemory then [(l.addr, sz.bytes)] else []
  /-- The bytes at `-(Ax)`, evaluated after `-(Ay)`. -/
  pairAt (sz : Size) (y x : Reg) : List (Long × Nat) :=
    let t := s.setA y (s.getA y - stepOf y sz)
    [(t.getA x - stepOf x sz, sz.bytes)]

/-- Register `k` of a MOVEM list: D0 to D7, then A0 to A7 (`47_data_movement.md` R382). -/
def listed (k : Nat) : GReg := if k < 8 then .d (BitVec.ofNat 3 k) else .a (BitVec.ofNat 3 k)

/-- The MOVEM mask bits that are set, from bit 0 up. -/
def maskBits (mask : Word) : List Nat := (List.range 16).filter fun k => mask.getLsbD k

/-- The queue of words read ahead agrees with memory: no store has gone into the words after the last instruction. -/
def queueFresh (s : State) : Bool := s.prefetch.all fun p => p.2 == s.mem.word p.1

/-- At this boundary an instruction is fetched: running, `halt_addr` not reached, nothing from the platform that is
taken (R445, R460, R510). -/
def fetches (s : State) : Bool :=
  decide (s.run = .running) && decide (s.haltAddr ≠ some (s.pc &&& s.mem.addrMask)) && !s.input.reset &&
    !decide (s.sr.i < s.input.ipl) && !(decide (s.input.ipl = 7) && decide (s.lastIpl ≠ 7))

/-- Every address answers every access. -/
def allMapped (s : State) : Bool := s.holes.isEmpty

/-- The state in which the instruction at `pc` executes, when the fetch meets no error: the operation word in the
instruction register, T latched, the two following words read ahead. -/
def fetched (i : Instr) (s : State) : State :=
  let npc := s.npc i.words
  { s.consumeInput with
    ir := s.mem.word s.pc
    traceDue := s.sr.t
    prefetch := [(npc, s.mem.word npc), (npc + 2, s.mem.word (npc + 2))] }

/-- The five words at `pc`, the longest instruction (`30_encoding.md` R110). -/
def wordsAt (s : State) : List Word :=
  [s.mem.word s.pc, s.mem.word (s.pc + 2), s.mem.word (s.pc + 2 + 2), s.mem.word (s.pc + 2 + 2 + 2),
   s.mem.word (s.pc + 2 + 2 + 2 + 2)]

end Sys2Proof.Claims

open Sys2Proof Sys2Proof.Machine Sys2Proof.Claims

/-! ### Encoding -/

/-- Decoding the encoding of a well-formed instruction gives it back, whatever words follow. -/
def Obligations.DecodeEncodeRoundTrip : Prop :=
  ∀ i : Instr, i.wellFormed = true → ∀ rest : List Word, decodeWords (encode i ++ rest) = .ok (i, rest)

/-- Words written out from the encodings of `30_encoding.md` R121 to R128 decode to what they stand for. -/
def Obligations.ExampleWordsDecode : Prop :=
  decodeWords [0x0650, 0x0001] = .ok (.addi .w 1 (.ind 0), []) ∧
  decodeWords [0x13FC, 0x0012, 0x00FF, 0x0001] = .ok (.moveB (.imm 0x12) (.absL 0x00FF0001), []) ∧
  decodeWords [0x48E7, 0xC080] = .ok (.movemToMem true 0xC080 (.pre 7), []) ∧
  decodeWords [0x51C8, 0xFFEE] = .ok (.dbcc .f 0 0xFFEE, []) ∧
  decodeWords [0x66FE] = .ok (.bcc .ne (.byte 0xFE), []) ∧
  decodeWords [0x81C1] = .ok (.divs (.dn 1) 0, []) ∧
  decodeWords [0xE3A8] = .ok (.lslReg .l (.reg 1) 0, []) ∧
  decodeWords [0x4AFC] = .ok (.illegal, []) ∧
  decodeWords [0x4E74] = .error .illegal

/-! ### The machine as a whole -/

/-- Every step keeps memory canonical and its address width, the queue at most two words long and the trace latch clear. -/
def Obligations.StepKeepsInvariant : Prop :=
  ∀ s t : State, s.wf → step s = .next t → t.wf ∧ t.mem.addrBits = s.mem.addrBits

/-- The reset state: SSP and PC from addresses 0 and 4 of memory, supervisor state, T = 0, I = 7, the queue empty,
running; and it meets the invariant when memory does. With nothing in memory 24 address bits count (log entries 15, 25). -/
def Obligations.ResetState : Prop :=
  ∀ m : Memory, m.wf →
    let s := State.resetOver m
    s.ssp = m.long 0 ∧ s.pc = m.long 4 ∧ s.sr.s = true ∧ s.sr.t = false ∧ s.sr.i = 7 ∧ s.prefetch = [] ∧
    s.run = .running ∧ s.mem = m ∧ s.wf ∧ State.reset = State.resetOver Memory.empty ∧
    State.reset.mem.addrMask = 0x00FFFFFF

/-- Every instruction, and every step, in every state has a next state: none faults, none is refused. The model's choice:
where the spec's own model stops (log entries 4, 5, 6, 9, 10 and 11) this one goes on as the hardware does. -/
def Obligations.ExecAlwaysGoesOn : Prop :=
  (∀ (i : Instr) (s : State), ∃ t, exec i s = .next t) ∧ ∀ s : State, ∃ t, step s = .next t

/-- Outside reset, interrupts and waiting, a step fetches the instruction at `pc`, executes it on the state in which
its words have been read and the two after them read ahead, and then takes the trace exception if T was set. The model's
choices: to trace (log entry 10), the prefetch queue (11) and when words are fetched (16). -/
def Obligations.StepRunsDecodedInstruction : Prop :=
  ∀ (s : State) (i : Instr) (rest : List Word),
    fetches s = true → allMapped s = true → s.pc.getLsbD 0 = false → queueFresh s = true →
    decodeWords (wordsAt s) = .ok (i, rest) →
    step s = afterExec (exec i (fetched i s))

/-- An operation word that is no instruction takes the illegal instruction exception, vector 4, with the address of the
word saved and nothing executed. With T set no trace exception follows it: the model's choice, log entry 10. -/
def Obligations.UndefinedWordTakesVectorFour : Prop :=
  ∀ s : State,
    fetches s = true → allMapped s = true → s.pc.getLsbD 0 = false → queueFresh s = true →
    decodeWords (wordsAt s) = .error .illegal →
    canEnter 4 s = true →
    step s = .next (entered 4 s.pc { s.consumeInput with ir := s.mem.word s.pc, traceDue := false })

/-- The interrupt mask is changed only by a privileged instruction that writes SR, in supervisor state; T is set and S
cleared only by such an instruction; an instruction that stays in user state keeps T and the supervisor stack pointer; in
supervisor state only MOVE USP changes the user stack pointer. The SR writers but RTE, and MOVE USP, by the model's choice
of meaning (log entry 4). -/
def Obligations.ModeFrame : Prop :=
  ∀ (i : Instr) (s t : State), exec i s = .next t →
    ((s.sr.s = false ∨ writesSr i = false) →
      t.sr.i = s.sr.i ∧ (s.sr.s = true → t.sr.s = true) ∧ (s.sr.t = false → t.sr.t = false)) ∧
    (s.sr.s = false → t.sr.s = false → t.sr.t = s.sr.t ∧ t.ssp = s.ssp) ∧
    (s.sr.s = true → (∀ r, i ≠ .moveUsp false r) → t.usp = s.usp)

/-- An instruction changes no data register but those its rule names, whatever happens to its accesses, and nothing that
belongs to the platform. That a failed access leaves it so is the model's choice (log entries 5, 6, 7), as are the meanings
of the twenty undocumented instructions (log entry 4). -/
def Obligations.DataRegisterFrame : Prop :=
  ∀ (i : Instr) (s t : State), exec i s = .next t →
    (∀ r, r ∉ dataWritten i → t.getD r = s.getD r) ∧
    t.inputs = s.inputs ∧ t.lastIpl = s.lastIpl ∧ t.holes = s.holes ∧ t.haltAddr = s.haltAddr ∧ t.ir = s.ir ∧
    t.mem.addrBits = s.mem.addrBits

/-- An instruction changes no address register A0 to A6 but those its rule or addressing modes name, whatever happens
to its accesses; in user state the same holds of the user stack pointer as A7, and in supervisor state of the supervisor
stack pointer as A7, unless control is transferred (an exception pushes on it) or the processor halts. The model's choices:
what a failed access leaves (log entries 5, 6, 7), and LINK, UNLK, PEA, MOVE USP and the other undocumented instructions
(log entries 4, 22). -/
def Obligations.AddressRegisterFrame : Prop :=
  ∀ (i : Instr) (s t : State) (r : Reg), exec i s = .next t → r ∉ addressWritten i →
    (r ≠ 7 → t.getA r = s.getA r) ∧ (r = 7 → s.sr.s = false → t.usp = s.usp) ∧
    (r = 7 → s.sr.s = true → t.prefetch ≠ [] → t.run ≠ .halted → t.ssp = s.ssp)

/-- An instruction changes no flag but those the table of R42 marks for it. TAS, CHK, NBCD, SBCD, RTR, STOP and the
instructions on CCR and SR are not in that table: their marks are the model's choice (log entry 4). -/
def Obligations.FlagFrame : Prop :=
  ∀ (i : Instr) (s t : State), exec i s = .next t →
    t.sr.flags &&& ~~~flagsWritten i = s.sr.flags &&& ~~~flagsWritten i

/-- An instruction changes no byte of memory but those it stores to, at the addresses it computes. Only if it ends in
supervisor state by a transfer of control, or halted, an exception it took may also have written up to 20 bytes from the
new SSP up. That window, the halted case and the stores kept before a failed access are the model's choice (log entries 5,
6, 7, 9), as are the undocumented instructions that store (log entry 4). -/
def Obligations.MemoryFrame : Prop :=
  ∀ (i : Instr) (s t : State) (b : Long), exec i s = .next t →
    (∀ p ∈ storedRanges i s, ¬ s.mem.inRange p.1 p.2 b) →
    (t.sr.s = true → (t.prefetch = [] ∨ t.run = .halted) → ¬ s.mem.inRange t.ssp 20 b) →
    t.mem.byte b = s.mem.byte b

/-! ### Memory and operands -/

/-- A value stored is read back whole, most significant byte first, and every other byte is as before; addresses that
differ only above the address width (on the MC68000, in bits 31 to 24) select the same byte. -/
def Obligations.StoreThenLoad : Prop :=
  ∀ (m : Memory) (sz : Size) (a : Long) (v : BitVec sz.bits),
    (m.addressable → (m.store sz a v).load sz a = v) ∧
    (∀ k, m.addressable → k < sz.bytes → (m.store sz a v).byte (a + BitVec.ofNat 32 k) = (v >>> (8 * (sz.bytes - 1 - k))).setWidth 8) ∧
    (∀ b, ¬ m.inRange a sz.bytes b → (m.store sz a v).byte b = m.byte b) ∧ (m.wf → (m.store sz a v).wf) ∧
    (∀ b : Long, a.toNat % 2 ^ m.addrBits = b.toNat % 2 ^ m.addrBits → m.byte a = m.byte b)

/-- A7 is SSP in supervisor state and USP in user state, in reads and writes; a word or byte write to a data register
keeps the higher bits. -/
def Obligations.RegisterViews : Prop :=
  ∀ (s : State) (r q : Reg) (v : Long),
    s.getA 7 = (if s.sr.s then s.ssp else s.usp) ∧
    s.setA 7 v = (if s.sr.s then { s with ssp := v } else { s with usp := v }) ∧
    (s.setA r v).getA q = (if q = r then v else s.getA q) ∧ (s.setD r v).getD q = (if q = r then v else s.getD q) ∧
    (∀ (sz : Size) (w : BitVec sz.bits) (k : Nat),
      ((s.setDn sz r w).getD r).getLsbD k = if k < sz.bits then w.getLsbD k else (s.getD r).getLsbD k)

/-- The twelve addressing modes: the location each designates and the register it steps, by 2 for a byte with A7. -/
def Obligations.AddressingModes : Prop :=
  ∀ (xp : Long) (sz : Size) (s : State) (r : Reg) (d a : Word) (l v : Long) (x : Brief),
    let X := if x.isA then s.getA x.reg else s.getD x.reg
    let index := if x.long then X else (X.setWidth 16).signExtend 32
    let step : Long := if sz = .b ∧ r = 7 then 2 else BitVec.ofNat 32 sz.bytes
    evalEA xp sz (.dn r) s = (.dreg r, s) ∧ evalEA xp sz (.an r) s = (.areg r, s) ∧
    evalEA xp sz (.ind r) s = (.mem (s.getA r) .data, s) ∧
    evalEA xp sz (.post r) s = (.mem (s.getA r) .data, s.setA r (s.getA r + step)) ∧
    evalEA xp sz (.pre r) s = (.mem (s.getA r - step) .data, s.setA r (s.getA r - step)) ∧
    evalEA xp sz (.disp r d) s = (.mem (s.getA r + d.signExtend 32) .data, s) ∧
    evalEA xp sz (.idx r x) s = (.mem (s.getA r + index + x.disp.signExtend 32) .data, s) ∧
    evalEA xp sz (.absW a) s = (.mem (a.signExtend 32) .data, s) ∧ evalEA xp sz (.absL l) s = (.mem l .data, s) ∧
    evalEA xp sz (.pcDisp d) s = (.mem (xp + d.signExtend 32) .program, s) ∧
    evalEA xp sz (.pcIdx x) s = (.mem (xp + index + x.disp.signExtend 32) .program, s) ∧
    evalEA xp sz (.imm v) s = (.imm v, s)

/-! ### The status register -/

/-- A write of a word to SR stores it and 0xA71F: the unimplemented bits read 0; and SR read and written back is
unchanged. -/
def Obligations.StatusRegisterMask : Prop :=
  (∀ w : Word, (StatusReg.ofWord w).toWord = w &&& 0xA71F) ∧ ∀ f : StatusReg, StatusReg.ofWord f.toWord = f

/-- Carry, borrow and the two overflows as the integers they stand for, with a carry-in, at every size. -/
def Obligations.CarryAndOverflow : Prop :=
  ∀ (sz : Size) (s d : BitVec sz.bits) (x : Bool),
    let sum := BitVec.ofNat sz.bits (d.toNat + s.toNat + x.toNat)
    let diff := BitVec.ofInt sz.bits ((d.toNat : Int) - s.toNat - x.toNat)
    overflowAdd s d sum = !fits sz.bits (d.toInt + s.toInt + x.toNat) ∧
    overflowSub s d diff = !fits sz.bits (d.toInt - s.toInt - x.toNat) ∧
    carryAdd s d x = !decide (sum.toNat = d.toNat + s.toNat + x.toNat) ∧
    borrowSub s d x = !decide ((diff.toNat : Int) = (d.toNat : Int) - s.toNat - x.toNat)

/-- What each condition means after a compare of `s` with `d`. -/
def Obligations.ConditionsAfterCompare : Prop :=
  ∀ (sz : Size) (s d : BitVec sz.bits) (f : StatusReg),
    let g := cmpFlags s d f
    (condHolds g .hi = true ↔ s.toNat < d.toNat) ∧ (condHolds g .ls = true ↔ d.toNat ≤ s.toNat) ∧
    (condHolds g .cc = true ↔ s.toNat ≤ d.toNat) ∧ (condHolds g .cs = true ↔ d.toNat < s.toNat) ∧
    (condHolds g .ne = true ↔ d ≠ s) ∧ (condHolds g .eq = true ↔ d = s) ∧
    (condHolds g .ge = true ↔ s.toInt ≤ d.toInt) ∧ (condHolds g .lt = true ↔ d.toInt < s.toInt) ∧
    (condHolds g .gt = true ↔ s.toInt < d.toInt) ∧ (condHolds g .le = true ↔ d.toInt ≤ s.toInt)

/-! ### Arithmetic -/

/-- ADD in both forms, and ADDI. -/
def Obligations.AddResults : Prop :=
  ∀ (sz : Size) (ea : EA) (d : Reg) (v : Long) (s : State),
    ToData (.addEaDn sz ea d) sz ea d sumOf s ∧
    Modifies (.addDnEa sz d ea) 0 sz ea (fun w f => sumOf (s.getDn sz d) w f) s ∧
    Modifies (.addi sz v ea) (immWords sz) sz ea (fun w f => sumOf (v.setWidth sz.bits) w f) s

/-- SUB in both forms, and SUBI. -/
def Obligations.SubResults : Prop :=
  ∀ (sz : Size) (ea : EA) (d : Reg) (v : Long) (s : State),
    ToData (.subEaDn sz ea d) sz ea d diffOf s ∧
    Modifies (.subDnEa sz d ea) 0 sz ea (fun w f => diffOf (s.getDn sz d) w f) s ∧
    Modifies (.subi sz v ea) (immWords sz) sz ea (fun w f => diffOf (v.setWidth sz.bits) w f) s

/-- ADDQ and SUBQ: the quick value 0 stands for 8; an address register takes all 32 bits and no flag changes. -/
def Obligations.QuickResults : Prop :=
  ∀ (sz : Size) (q : BitVec 3) (ea : EA) (r : Reg) (s : State),
    let k := if q = 0 then 8 else q.toNat
    exec (.addq sz q (.an r)) s = .next ((s.setA r (s.getA r + BitVec.ofNat 32 k)).advance 1) ∧
    exec (.subq sz q (.an r)) s = .next ((s.setA r (s.getA r - BitVec.ofNat 32 k)).advance 1) ∧
    (ea.mode ≠ .an → Modifies (.addq sz q ea) 0 sz ea (fun w f => sumOf (BitVec.ofNat sz.bits k) w f) s) ∧
    (ea.mode ≠ .an → Modifies (.subq sz q ea) 0 sz ea (fun w f => diffOf (BitVec.ofNat sz.bits k) w f) s)

/-- ADDA, SUBA and MOVEA: the source is sign-extended, all 32 bits of An are used and no flag changes. -/
def Obligations.AddressRegisterResults : Prop :=
  ∀ (long : Bool) (ea : EA) (a : Reg) (s : State),
    ToAddress (.adda long ea a) (wordOrLong long) ea a (fun v x => x + v) s ∧
    ToAddress (.suba long ea a) (wordOrLong long) ea a (fun v x => x - v) s ∧
    ToAddress (.moveaW ea a) .w ea a (fun v _ => v) s ∧ ToAddress (.moveaL ea a) .l ea a (fun v _ => v) s

/-- ADDX and SUBX, register and memory forms. -/
def Obligations.ExtendedResults : Prop :=
  ∀ (sz : Size) (y x : Reg) (s : State),
    Pairs (fun mem => .addx sz mem y x) sz y x sumXOf s ∧ Pairs (fun mem => .subx sz mem y x) sz y x diffXOf s

/-- CMP, CMPI, CMPA and CMPM: the flags of destination minus source; nothing is written, X is kept. -/
def Obligations.CompareResults : Prop :=
  ∀ (sz : Size) (long : Bool) (ea : EA) (d a y x : Reg) (v : Long) (s : State),
    Tests (.cmp sz ea d) 0 sz ea (fun w f => compareOf w (s.getDn sz d) f) s ∧
    Tests (.cmpi sz v ea) (immWords sz) sz ea (fun w f => compareOf (v.setWidth sz.bits) w f) s ∧
    (let p := evalEA (s.npc 1) (wordOrLong long) ea s
     reads (wordOrLong long) p.1 p.2 = true →
     exec (.cmpa long ea a) s = .next
       ((p.2.setSr (compareOf ((p.1.value (wordOrLong long) p.2).signExtend 32) (p.2.getA a) s.sr)).advance
         (1 + ea.words (wordOrLong long)))) ∧
    (let t := s.setA y (s.getA y + stepOf y sz)
     answers s .read sz (s.getA y) = true → answers s .read sz (t.getA x) = true →
     exec (.cmpm sz y x) s = .next
       (((t.setA x (t.getA x + stepOf x sz)).setSr
         (compareOf (s.mem.load sz (s.getA y)) (s.mem.load sz (t.getA x)) s.sr)).advance 1))

/-- TST, CLR and Scc: the flags of the operand; zero with Z set; all ones or all zeros with no flag changed. -/
def Obligations.TestClearAndSetResults : Prop :=
  ∀ (sz : Size) (c : Cond) (ea : EA) (s : State),
    Modifies (.scc c ea) 0 .b ea (fun _ f => (if condHolds s.sr c then 0xFF else 0x00, f)) s ∧
    Tests (.tst sz ea) 0 sz ea testOf s ∧
    Modifies (.clr sz ea) 0 sz ea (fun _ f => (0, { f with n := false, z := true, v := false, c := false })) s

/-- NEG and NEGX: subtraction from zero. -/
def Obligations.NegateResults : Prop :=
  ∀ (sz : Size) (ea : EA) (s : State),
    Modifies (.neg sz ea) 0 sz ea (fun w f =>
      (0 - w, { f with x := decide (w ≠ 0), n := (0 - w).msb, z := decide (w = 0), c := decide (w ≠ 0)
                       v := decide (w.toNat = 2 ^ (sz.bits - 1)) })) s ∧
    Modifies (.negx sz ea) 0 sz ea (fun w f => diffXOf w 0 f) s

/-- EXT, SWAP and MOVEQ. -/
def Obligations.ExtendSwapMoveqResults : Prop :=
  ∀ (r : Reg) (v : Byte) (s : State),
    (let w : Word := ((s.getD r).setWidth 8).signExtend 16
     exec (.extW r) s = .next (((s.setDn .w r w).setSr (testOf w s.sr)).advance 1)) ∧
    (let w : Long := ((s.getD r).setWidth 16).signExtend 32
     exec (.extL r) s = .next (((s.setD r w).setSr (testOf w s.sr)).advance 1)) ∧
    (let w : Long := (s.getD r).rotateLeft 16
     exec (.swap r) s = .next (((s.setD r w).setSr (testOf w s.sr)).advance 1)) ∧
    (let w : Long := v.signExtend 32
     exec (.moveq v r) s = .next (((s.setD r w).setSr (testOf w s.sr)).advance 1))

/-- MULU and MULS: the exact product of two words as 32 bits. -/
def Obligations.MultiplyResults : Prop :=
  ∀ (ea : EA) (d : Reg) (s : State),
    let p := evalEA (s.npc 1) .w ea s
    let v : Word := p.1.value .w p.2
    let w : Word := s.getDn .w d
    reads .w p.1 p.2 = true →
    (let r := BitVec.ofNat 32 (v.toNat * w.toNat)
     r.toNat = v.toNat * w.toNat ∧ exec (.mulu ea d) s = .next (((p.2.setD d r).setSr (testOf r s.sr)).advance (1 + ea.words .w))) ∧
    (let r := BitVec.ofInt 32 (v.toInt * w.toInt)
     r.toInt = v.toInt * w.toInt ∧ exec (.muls ea d) s = .next (((p.2.setD d r).setSr (testOf r s.sr)).advance (1 + ea.words .w)))

/-- DIVU: quotient and remainder of naturals; on overflow Dn is kept and N and Z are free; a zero divisor takes vector 5
with N, Z and V free. -/
def Obligations.DivideUnsignedResults : Prop :=
  ∀ (ea : EA) (d : Reg) (s : State),
    let p := evalEA (s.npc 1) .w ea s
    let v : Nat := (p.1.value .w p.2).toNat
    let w : Nat := (s.getD d).toNat
    reads .w p.1 p.2 = true →
    (v ≠ 0 → w / v < 2 ^ 16 → ∃ q m : Word, q.toNat = w / v ∧ m.toNat = w % v ∧
      exec (.divu ea d) s = .next (((p.2.setD d (m ++ q)).setSr (testOf q s.sr)).advance (1 + ea.words .w))) ∧
    (v ≠ 0 → 2 ^ 16 ≤ w / v → ∃ (n z : Bool) (k : Nat),
      exec (.divu ea d) s = .next
        (({ p.2 with draws := k }.setSr { s.sr with n := n, z := z, v := true, c := false }).advance (1 + ea.words .w))) ∧
    (v = 0 → canEnter 5 p.2 = true → ∃ (n z o : Bool) (k : Nat),
      exec (.divu ea d) s = .next
        (entered 5 (s.npc (1 + ea.words .w)) ({ p.2 with draws := k }.setSr { s.sr with n := n, z := z, v := o, c := false })))

/-- DIVS: the quotient rounded toward zero, the remainder with the sign of the dividend; on overflow Dn is kept and N and
Z are free; a zero divisor takes vector 5 with N, Z and V free. -/
def Obligations.DivideSignedResults : Prop :=
  ∀ (ea : EA) (d : Reg) (s : State),
    let p := evalEA (s.npc 1) .w ea s
    let v : Int := (p.1.value .w p.2).toInt
    let w : Int := (s.getD d).toInt
    reads .w p.1 p.2 = true →
    (v ≠ 0 → fits 16 (w.tdiv v) = true → ∃ q m : Word, q.toInt = w.tdiv v ∧ m.toInt = w - w.tdiv v * v ∧
      (m.toInt ≠ 0 → (m.toInt < 0 ↔ w < 0)) ∧
      exec (.divs ea d) s = .next (((p.2.setD d (m ++ q)).setSr (testOf q s.sr)).advance (1 + ea.words .w))) ∧
    (v ≠ 0 → fits 16 (w.tdiv v) = false → ∃ (n z : Bool) (k : Nat),
      exec (.divs ea d) s = .next
        (({ p.2 with draws := k }.setSr { s.sr with n := n, z := z, v := true, c := false }).advance (1 + ea.words .w))) ∧
    (v = 0 → canEnter 5 p.2 = true → ∃ (n z o : Bool) (k : Nat),
      exec (.divs ea d) s = .next
        (entered 5 (s.npc (1 + ea.words .w)) ({ p.2 with draws := k }.setSr { s.sr with n := n, z := z, v := o, c := false })))

/-- ABCD, register and memory forms: on packed BCD operands the decimal sum, X and C the decimal carry; on others the
result and the carry are free. Z is cleared or kept; N and V are free. -/
def Obligations.DecimalAddResults : Prop :=
  ∀ (y x : Reg) (s : State),
    (∃ (n o c : Bool) (k : Nat) (r : Byte), DecimalSum (s.getDn .b y) (s.getDn .b x) s.sr.x r c ∧
      exec (.abcd false y x) s = .next
        (({ s.setDn .b x r with draws := k }.setSr (decimalFlagsOf r c n o s.sr)).advance 1)) ∧
    (let b := s.getA y - stepOf y .b
     let t := s.setA y b
     let a := t.getA x - stepOf x .b
     let u := t.setA x a
     answers s .read .b b = true → answers s .read .b a = true → answers s .write .b a = true →
     ∃ (n o c : Bool) (k : Nat) (r : Byte), DecimalSum (s.mem.byte b) (s.mem.byte a) s.sr.x r c ∧
       exec (.abcd true y x) s = .next
         (({ u with mem := s.mem.setByte a r, draws := k }.setSr (decimalFlagsOf r c n o s.sr)).advance 1))

/-- SBCD in both forms and NBCD: the decimal difference, X and C the decimal borrow. The model's choice of meaning (log
entries 4 and 21), with N and V free, and on operands that are not packed BCD the result and the borrow too. -/
def Obligations.DecimalSubtractResults : Prop :=
  ∀ (y x : Reg) (ea : EA) (s : State),
    (∃ (n o c : Bool) (k : Nat) (r : Byte), DecimalDifference (s.getDn .b y) (s.getDn .b x) s.sr.x r c ∧
      exec (.sbcd false y x) s = .next
        (({ s.setDn .b x r with draws := k }.setSr (decimalFlagsOf r c n o s.sr)).advance 1)) ∧
    (let b := s.getA y - stepOf y .b
     let t := s.setA y b
     let a := t.getA x - stepOf x .b
     let u := t.setA x a
     answers s .read .b b = true → answers s .read .b a = true → answers s .write .b a = true →
     ∃ (n o c : Bool) (k : Nat) (r : Byte), DecimalDifference (s.mem.byte b) (s.mem.byte a) s.sr.x r c ∧
       exec (.sbcd true y x) s = .next
         (({ u with mem := s.mem.setByte a r, draws := k }.setSr (decimalFlagsOf r c n o s.sr)).advance 1)) ∧
    (let p := evalEA (s.npc 1) .b ea s
     reads .b p.1 p.2 = true → writes .b p.1 p.2 = true →
     ∃ (n o c : Bool) (k : Nat) (r : Byte), DecimalDifference (p.1.value .b p.2) 0 s.sr.x r c ∧
       exec (.nbcd ea) s = .next
         (({ p.1.put .b r p.2 with draws := k }.setSr (decimalFlagsOf r c n o s.sr)).advance (1 + ea.words .b)))

/-! ### Logic, shifts, bits -/

/-- AND, ANDI, OR, ORI, EOR, EORI and NOT: bitwise, N and Z from the result, V and C cleared, X kept. -/
def Obligations.LogicResults : Prop :=
  ∀ (sz : Size) (ea : EA) (d : Reg) (v : Long) (s : State),
    let flagged := fun (r : BitVec sz.bits) (f : StatusReg) => (r, testOf r f)
    ToData (.andEaDn sz ea d) sz ea d (fun a b => flagged (a &&& b)) s ∧
    ToData (.orEaDn sz ea d) sz ea d (fun a b => flagged (a ||| b)) s ∧
    Modifies (.andDnEa sz d ea) 0 sz ea (fun w => flagged (s.getDn sz d &&& w)) s ∧
    Modifies (.orDnEa sz d ea) 0 sz ea (fun w => flagged (s.getDn sz d ||| w)) s ∧
    Modifies (.eor sz d ea) 0 sz ea (fun w => flagged (s.getDn sz d ^^^ w)) s ∧
    Modifies (.andi sz v ea) (immWords sz) sz ea (fun w => flagged (v.setWidth sz.bits &&& w)) s ∧
    Modifies (.ori sz v ea) (immWords sz) sz ea (fun w => flagged (v.setWidth sz.bits ||| w)) s ∧
    Modifies (.eori sz v ea) (immWords sz) sz ea (fun w => flagged (v.setWidth sz.bits ^^^ w)) s ∧
    Modifies (.not sz ea) 0 sz ea (fun w => flagged (BitVec.allOnes sz.bits ^^^ w)) s

/-- ASL, ASR, LSL and LSR in closed form, register and memory forms. -/
def Obligations.ShiftResults : Prop :=
  ∀ s : State,
    Shifts .aslReg .aslMem (fun _ => aslOf) s ∧ Shifts .asrReg .asrMem (fun _ => asrOf) s ∧
    Shifts .lslReg .lslMem (fun _ => lslOf) s ∧ Shifts .lsrReg .lsrMem (fun _ => lsrOf) s

/-- ROL, ROR, ROXL and ROXR in closed form, register and memory forms; in the last two the operand and X rotate
together. -/
def Obligations.RotateResults : Prop :=
  ∀ s : State,
    Shifts .rolReg .rolMem (fun _ => rolOf) s ∧ Shifts .rorReg .rorMem (fun _ => rorOf) s ∧
    Shifts .roxlReg .roxlMem (fun _ => roxlOf) s ∧ Shifts .roxrReg .roxrMem (fun _ => roxrOf) s

/-- BTST, BCHG, BCLR and BSET with a bit number from the instruction or a register: modulo 32 on a data register, modulo 8
on memory; Z from the bit before it changes, no other flag; no other bit of the operand changes. -/
def Obligations.BitResults : Prop :=
  ∀ (n : Byte) (d : Reg) (ea : EA) (s : State),
    let sz : Size := if ea.mode = .dn then .l else .b
    let tested := fun (b0 : Nat) (v : BitVec sz.bits) (f : StatusReg) => { f with z := !v.getLsbD (b0 % sz.bits) }
    let changed := fun (new : Bool → Bool) (b0 : Nat) (v : BitVec sz.bits) (f : StatusReg) =>
      (BitVec.ofFnLE fun k => if k.val = b0 % sz.bits then new (v.getLsbD k.val) else v.getLsbD k.val, tested b0 v f)
    let dn := (s.getD d).toNat
    Tests (.btst n ea) 1 sz ea (tested n.toNat) s ∧ Tests (.btstDn d ea) 0 sz ea (tested dn) s ∧
    Modifies (.bchg n ea) 1 sz ea (changed (fun b => !b) n.toNat) s ∧
    Modifies (.bchgDn d ea) 0 sz ea (changed (fun b => !b) dn) s ∧
    Modifies (.bclr n ea) 1 sz ea (changed (fun _ => false) n.toNat) s ∧
    Modifies (.bclrDn d ea) 0 sz ea (changed (fun _ => false) dn) s ∧
    Modifies (.bset n ea) 1 sz ea (changed (fun _ => true) n.toNat) s ∧
    Modifies (.bsetDn d ea) 0 sz ea (changed (fun _ => true) dn) s

/-! ### Data movement -/

/-- MOVE: the source is read before the destination's extension words are fetched and the destination evaluated; N and Z
from the data, V and C cleared. -/
def Obligations.MoveResults : Prop :=
  ∀ (sz : Size) (src dst : EA) (s : State),
    let p := evalEA (s.npc 1) sz src s
    let q := evalEA (s.npc (1 + src.words sz)) sz dst p.2
    let v := p.1.value sz p.2
    reads sz p.1 p.2 = true → streams p.2 (dst.words sz) (s.npc (1 + src.words sz)) = true → writes sz q.1 q.2 = true →
    exec (moveOf sz src dst) s =
      .next (((q.1.put sz v q.2).setSr (testOf v s.sr)).advance (1 + src.words sz + dst.words sz))

/-- MOVEM registers to memory: upward from the address, or downward below An for `-(An)`, where An is written at the end
with the address of the last operand stored. -/
def Obligations.MovemStoreResults : Prop :=
  ∀ (long : Bool) (mask : Word) (ea : EA) (r : Reg) (s : State),
    let sz := wordOrLong long
    let bytes := BitVec.ofNat 32 sz.bytes
    (let l := (evalEA (s.npc 2) sz ea s).1
     (ea.mode.isControl && ea.mode.isAlterable) = true →
     (∀ j < (maskBits mask).length, answers s .write sz (l.addr + BitVec.ofNat 32 (j * sz.bytes)) = true) →
     exec (.movemToMem long mask ea) s = .next
       ({ s with mem := ((maskBits mask).foldl (fun (p : Memory × Long) k =>
            (p.1.store sz p.2 ((s.getG (listed k)).setWidth sz.bits), p.2 + bytes)) (s.mem, l.addr)).1 }.advance
         (2 + ea.words sz))) ∧
    ((∀ j < (maskBits mask).length, answers s .write sz (s.getA r - BitVec.ofNat 32 ((j + 1) * sz.bytes)) = true) →
     let q := (maskBits mask).foldl (fun (p : Memory × Long) k =>
       (p.1.store sz (p.2 - bytes) ((s.getG (listed (15 - k))).setWidth sz.bits), p.2 - bytes)) (s.mem, s.getA r)
     exec (.movemToMem long mask (.pre r)) s = .next (({ s with mem := q.1 }.setA r q.2).advance 2))

/-- MOVEM memory to registers: upward from the address, each word sign-extended to 32 bits; for `(An)+` the register ends
with the address after the last operand, even if it was loaded. -/
def Obligations.MovemLoadResults : Prop :=
  ∀ (long : Bool) (mask : Word) (ea : EA) (r : Reg) (s : State),
    let sz := wordOrLong long
    let bytes := BitVec.ofNat 32 sz.bytes
    let load := fun (a : Long) => (maskBits mask).foldl (fun (p : State × Long) k =>
      (p.1.setG (listed k) ((s.mem.load sz p.2).signExtend 32), p.2 + bytes)) (s, a)
    (let l := (evalEA (s.npc 2) sz ea s).1
     ea.mode.isControl = true →
     (∀ j < (maskBits mask).length, answers s .read sz (l.addr + BitVec.ofNat 32 (j * sz.bytes)) = true) →
     exec (.movemToRegs long mask ea) s = .next ((load l.addr).1.advance (2 + ea.words sz))) ∧
    ((∀ j < (maskBits mask).length, answers s .read sz (s.getA r + BitVec.ofNat 32 (j * sz.bytes)) = true) →
     exec (.movemToRegs long mask (.post r)) s = .next
       (((load (s.getA r)).1.setA r (s.getA r + BitVec.ofNat 32 ((maskBits mask).length * sz.bytes))).advance 2))

/-- MOVEP: the bytes of Dn, the high-order first, at every second address; odd or even. -/
def Obligations.MovepResults : Prop :=
  ∀ (d a : Reg) (disp : Word) (s : State),
    let b := s.getA a + disp.signExtend 32
    let v := s.getD d
    let byte := fun (k : Nat) => (v >>> (8 * k)).setWidth 8
    ((∀ k < 2, answers s .write .b (b + BitVec.ofNat 32 (2 * k)) = true) →
      exec (.movep true false d a disp) s = .next
        ({ s with mem := (s.mem.setByte b (byte 1)).setByte (b + 2) (byte 0) }.advance 2)) ∧
    ((∀ k < 4, answers s .write .b (b + BitVec.ofNat 32 (2 * k)) = true) →
      let m := ((s.mem.setByte b (byte 3)).setByte (b + 2) (byte 2)).setByte (b + 4) (byte 1)
      exec (.movep true true d a disp) s = .next ({ s with mem := m.setByte (b + 6) (byte 0) }.advance 2)) ∧
    ((∀ k < 2, answers s .read .b (b + BitVec.ofNat 32 (2 * k)) = true) →
      exec (.movep false false d a disp) s = .next
        ((s.setDn .w d (s.mem.byte b ++ s.mem.byte (b + 2))).advance 2)) ∧
    ((∀ k < 4, answers s .read .b (b + BitVec.ofNat 32 (2 * k)) = true) →
      exec (.movep false true d a disp) s = .next
        ((s.setD d (s.mem.byte b ++ s.mem.byte (b + 2) ++ s.mem.byte (b + 4) ++ s.mem.byte (b + 6))).advance 2))

/-- EXG in its three forms and LEA: the two registers change places, and nothing else changes; LEA computes the address
and makes no access. -/
def Obligations.ExchangeAndLeaResults : Prop :=
  ∀ (x y a : Reg) (ea : EA) (s : State),
    (∃ t : State, exec (.exgDD x y) s = .next { t with pc := s.pc + 2 } ∧ t.getD x = s.getD y ∧ t.getD y = s.getD x ∧
      (∀ r, r ≠ x → r ≠ y → t.getD r = s.getD r) ∧ { t with d := s.d } = s) ∧
    (∃ t : State, exec (.exgAA x y) s = .next { t with pc := s.pc + 2 } ∧ t.getA x = s.getA y ∧ t.getA y = s.getA x ∧
      (∀ r, r ≠ x → r ≠ y → t.getA r = s.getA r) ∧ (if s.sr.s then t.usp = s.usp else t.ssp = s.ssp) ∧
      { t with a := s.a, usp := s.usp, ssp := s.ssp } = s) ∧
    (∃ t : State, exec (.exgDA x y) s = .next { t with pc := s.pc + 2 } ∧ t.getD x = s.getA y ∧ t.getA y = s.getD x ∧
      (∀ r, r ≠ x → t.getD r = s.getD r) ∧ (∀ r, r ≠ y → t.getA r = s.getA r) ∧
      (if s.sr.s then t.usp = s.usp else t.ssp = s.ssp) ∧
      { t with d := s.d, a := s.a, usp := s.usp, ssp := s.ssp } = s) ∧
    (ea.mode.isControl = true →
      exec (.lea ea a) s = .next ((s.setA a (evalEA (s.npc 1) .l ea s).1.addr).advance (1 + ea.words .l)))

/-- LINK, UNLK and PEA by their assignments in order: the model's choice of meaning (log entries 4 and 22). -/
def Obligations.LinkUnlkPeaResults : Prop :=
  ∀ (r : Reg) (d : Word) (ea : EA) (s : State),
    (answers s .write .l (s.sp - 4) = true →
      let t := s.setSp (s.sp - 4)
      let u := { t with mem := s.mem.setLong t.sp (t.getA r) }.setA r t.sp
      exec (.link r d) s = .next ((u.setSp (u.sp + d.signExtend 32)).advance 2)) ∧
    (answers s .read .l (s.getA r) = true →
      let t := (s.setSp (s.getA r)).setA r (s.mem.long (s.getA r))
      exec (.unlk r) s = .next ((t.setSp (t.sp + 4)).advance 1)) ∧
    (ea.mode.isControl = true → answers s .write .l (s.sp - 4) = true →
      let t := s.setSp (s.sp - 4)
      exec (.pea ea) s = .next
        ({ t with mem := s.mem.setLong (s.sp - 4) (evalEA (s.npc 1) .l ea s).1.addr }.advance (1 + ea.words .l)))

/-! ### Program control -/

/-- Bcc, BRA and BSR: the target is the operation word's address plus two plus the displacement; BSR pushes the address of
the next instruction on the active stack. DBcc: nothing if the condition holds; else the low word of Dn is decremented, and
unless it becomes -1 the branch is taken. -/
def Obligations.BranchResults : Prop :=
  ∀ (c : Cond) (d : Disp) (r : Reg) (e : Word) (s : State),
    (let w : Word := (s.getD r).setWidth 16
     (condHolds s.sr c = true → exec (.dbcc c r e) s = .next { s with pc := s.pc + 4 }) ∧
     (condHolds s.sr c = false → w = 0 → exec (.dbcc c r e) s = .next { s.setDn .w r (-1) with pc := s.pc + 4 }) ∧
     (condHolds s.sr c = false → w ≠ 0 →
       exec (.dbcc c r e) s = .next ((s.setDn .w r (BitVec.ofNat 16 (w.toNat - 1))).jump (s.pc + 2 + e.signExtend 32)))) ∧
    let target := s.pc + 2 + (match d with | .byte b => b.signExtend 32 | .word w => w.signExtend 32)
    let npc := s.pc + (match d with | .byte _ => 2 | .word _ => 4)
    exec (.bcc c d) s = .next (if condHolds s.sr c then s.jump target else { s with pc := npc }) ∧
    exec (.bra d) s = .next (s.jump target) ∧
    (answers s .write .l (s.sp - 4) = true →
      let t := s.setSp (s.sp - 4)
      exec (.bsr d) s = .next ({ t with mem := s.mem.setLong (s.sp - 4) npc }.jump target))

/-- JMP, JSR, RTS and NOP. -/
def Obligations.JumpResults : Prop :=
  ∀ (ea : EA) (s : State),
    let target := (evalEA (s.pc + 2) .l ea s).1.addr
    (ea.mode.isControl = true → exec (.jmp ea) s = .next (s.jump target)) ∧
    (ea.mode.isControl = true → answers s .write .l (s.sp - 4) = true →
      let t := s.setSp (s.sp - 4)
      exec (.jsr ea) s = .next ({ t with mem := s.mem.setLong (s.sp - 4) (s.npc (1 + ea.words .l)) }.jump target)) ∧
    (answers s .read .l s.sp = true →
      exec .rts s = .next ((s.setSp (s.sp + 4)).jump (s.mem.long s.sp))) ∧
    exec .nop s = .next { s with pc := s.pc + 2 }

/-! ### System -/

/-- TRAP takes vector 32 + n, and TRAPV with V set vector 7, with the next instruction's address saved; TRAPV with V clear
does nothing. -/
def Obligations.TrapResults : Prop :=
  ∀ (n : BitVec 4) (s : State),
    (canEnter (32 + n.toNat) s = true → exec (.trap n) s = .next (entered (32 + n.toNat) (s.pc + 2) s)) ∧
    (s.sr.v = true → canEnter 7 s = true → exec .trapv s = .next (entered 7 (s.pc + 2) s)) ∧
    (s.sr.v = false → exec .trapv s = .next { s with pc := s.pc + 2 })

/-- ILLEGAL and the words of lines 1010 and 1111 take vectors 4, 10 and 11 with their own address saved; no trace
exception follows (the model's reading, log entry 10). -/
def Obligations.UnimplementedResults : Prop :=
  ∀ (x : BitVec 12) (s : State),
    let t := { s with traceDue := false }
    (canEnter 4 s = true → exec .illegal s = .next (entered 4 s.pc t)) ∧
    (canEnter 10 s = true → exec (.lineA x) s = .next (entered 10 s.pc t)) ∧
    (canEnter 11 s = true → exec (.lineF x) s = .next (entered 11 s.pc t))

/-- RTE in supervisor state: SR and PC from the six bytes at SSP; SSP moves past them on the supervisor stack. -/
def Obligations.ReturnFromExceptionResult : Prop :=
  ∀ s : State, s.sr.s = true → answers s .read .w s.ssp = true → answers s .read .l (s.ssp + 2) = true →
    exec .rte s = .next
      ({ s with ssp := s.ssp + 6, sr := StatusReg.ofWord (s.mem.word s.ssp) }.jump (s.mem.long (s.ssp + 2)))

/-- Returning from an exception restores what it saved: RTE at the handler of `Exception(v, savedPc)` gives back SR, both
stack pointers and every register, with `pc` at the saved PC. -/
def Obligations.ReturnUndoesEntry : Prop :=
  ∀ (v : Nat) (savedPc : Long) (s : State), s.mem.addressable → canEnter v s = true →
    answers (entered v savedPc s) .read .w (s.ssp - 6) = true → answers (entered v savedPc s) .read .l (s.ssp - 4) = true →
    exec .rte (entered v savedPc s) = .next
      { s with mem := (entered v savedPc s).mem, pc := savedPc, prefetch := [], run := .running }

/-- In user state every privileged instruction takes the privilege violation, vector 8, with its own address saved and no
part of it executed. RTE by R411; the other seven by the model's choice of meaning (log entry 4). That no trace exception
follows is the model's choice too (log entry 10). -/
def Obligations.PrivilegeViolation : Prop :=
  ∀ (v : Word) (b : Bool) (r : Reg) (ea : EA) (s : State), s.sr.s = false → canEnter 8 s = true →
    ∀ i ∈ [.rte, .oriToSr v, .andiToSr v, .eoriToSr v, .moveToSr ea, .moveUsp b r, .reset, .stop v],
      exec i s = .next (entered 8 s.pc { s with traceDue := false })

/-- The instructions on CCR and SR, MOVE USP, STOP and RESET in supervisor state: the model's choice of meaning (log
entries 4 and 23), as is that MOVE from SR does not read its destination first (log entry 18). -/
def Obligations.StatusInstructionResults : Prop :=
  ∀ (v : Word) (r : Reg) (ea : EA) (s : State),
    let w := s.sr.toWord
    let ccr := fun (x : Word) => StatusReg.ofWord ((w &&& 0xFF00) ||| (x &&& 0x001F))
    exec (.oriToCcr v) s = .next ((s.setSr (ccr (w ||| v))).advance 2) ∧
    exec (.andiToCcr v) s = .next ((s.setSr (ccr (w &&& v))).advance 2) ∧
    exec (.eoriToCcr v) s = .next ((s.setSr (ccr (w ^^^ v))).advance 2) ∧
    Tests (.moveToCcr ea) 0 .w ea (fun x _ => ccr x) s ∧
    (let p := evalEA (s.npc 1) .w ea s
     writes .w p.1 p.2 = true →
     exec (.moveFromSr ea) s = .next ((p.1.put .w w p.2).advance (1 + ea.words .w))) ∧
    (s.sr.s = true →
      exec (.oriToSr v) s = .next ((s.setSr (StatusReg.ofWord (w ||| v))).advance 2) ∧
      exec (.andiToSr v) s = .next ((s.setSr (StatusReg.ofWord (w &&& v))).advance 2) ∧
      exec (.eoriToSr v) s = .next ((s.setSr (StatusReg.ofWord (w ^^^ v))).advance 2) ∧
      Tests (.moveToSr ea) 0 .w ea (fun x _ => StatusReg.ofWord x) s ∧
      exec (.moveUsp true r) s = .next ((s.setA r s.usp).advance 1) ∧
      exec (.moveUsp false r) s = .next ({ s with usp := s.getA r }.advance 1) ∧
      exec .reset s = .next (s.advance 1) ∧
      exec (.stop v) s = .next ({ s with run := .stopped, sr := StatusReg.ofWord v }.advance 2))

/-- TAS, RTR and CHK: the model's choice of meaning (log entries 4 and 20). CHK out of bounds takes vector 6; its flags
that the spec leaves undefined are free. -/
def Obligations.TasRtrChkResults : Prop :=
  ∀ (ea : EA) (d : Reg) (s : State),
    Modifies (.tas ea) 0 .b ea (fun v f => (v ||| 0x80, testOf v f)) s ∧
    (answers s .read .w s.sp = true → answers s .read .l (s.sp + 2) = true →
      let w := s.mem.word s.sp
      let f := { s.sr with x := w.getLsbD 4, n := w.getLsbD 3, z := w.getLsbD 2, v := w.getLsbD 1, c := w.getLsbD 0 }
      exec .rtr s = .next (((s.setSp (s.sp + 6)).setSr f).jump (s.mem.long (s.sp + 2)))) ∧
    (let p := evalEA (s.npc 1) .w ea s
     let v : Int := ((s.getD d).setWidth 16).toInt
     let bound : Int := (p.1.value .w p.2).toInt
     reads .w p.1 p.2 = true →
     ∃ (n z o c : Bool) (k : Nat),
       (v < 0 → v ≤ bound → n = true) ∧ (0 ≤ v → bound < v → n = false) ∧
       let t := { p.2 with draws := k }.setSr { s.sr with n := n, z := z, v := o, c := c }
       (0 ≤ v → v ≤ bound → exec (.chk ea d) s = .next (t.advance (1 + ea.words .w))) ∧
       (v < 0 ∨ bound < v → canEnter 6 p.2 = true →
         exec (.chk ea d) s = .next (entered 6 (s.npc (1 + ea.words .w)) t)))

/-! ### Exceptions, interrupts, run states -/

/-- A word or long operand at an odd address is not accessed: MOVE from it to a data register, or from a data register to
it, takes the address error, vector 3, with a frame of 14 bytes that holds the access's direction and function code, its
address, the instruction register and SR. The address register step is kept. To take it, what is kept, and the free bits of
the frame and the saved PC are the model's choice (log entries 5, 7, 8). -/
def Obligations.AddressErrorFrame : Prop :=
  ∀ (write long : Bool) (ea : EA) (d : Reg) (a : Long) (sp : Space) (i : Instr) (kind : AccessKind) (s u : State),
    let sz := wordOrLong long
    transfers write sz ea d s = some (i, kind) → evalEA (s.npc 1) sz ea s = (.mem a sp, u) → a.getLsbD 0 = true →
    s.mem.addressable → canEnterError 3 u = true →
    ∃ t, exec i s = .next t ∧ ErrorEntered 3 a kind (if write then .data else sp) u t

/-- A fetch at an odd address takes the address error with the address recorded as an instruction fetch, after the
instruction that loaded it has completed. The model's choices: to take it (log entry 5), bit 3 of the frame's first word (log
entry 8), and that the frame's instruction register is still the operation word fetched before (log entry 24). -/
def Obligations.OddFetchTakesAddressError : Prop :=
  ∀ s : State,
    fetches s = true → s.pc.getLsbD 0 = true → s.mem.addressable → canEnterError 3 s = true →
    ∃ t, step s = .next t ∧ ErrorEntered 3 s.pc .fetch .program s.consumeInput t

/-- A bus or address error during the exception processing of another, or of reset, halts the processor, and nothing else in
it does: SSP odd, one of the fourteen bytes below it not mapped, or the vector not readable. An instruction whose exception
meets an odd SSP halts it so. Halted, it executes nothing until an external reset: a step only takes in what the platform
presents next. The model's choice to go so far: log entries 5, 6 and 9. -/
def Obligations.DoubleFaultHalts : Prop :=
  (∀ (e : AccessError) (s : State),
    (groupZero e s).run = if canEnterError e.vector s then .running else .halted) ∧
  (∀ (n : BitVec 4) (s : State), s.ssp.getLsbD 0 = true → ∃ t, exec (.trap n) s = .next t ∧ t.run = .halted) ∧
  (∀ s : State, s.input.reset = true → (s.run = .halted ∨ s.haltAddr ≠ some (s.pc &&& s.mem.addrMask)) →
    ∃ t, step s = .next t ∧
      t.run = if answers (inSupervisor s) .read .l 0 && answers (inSupervisor s) .read .l 4 then .running else .halted) ∧
  ∀ s : State, s.run = .halted → s.input.reset = false →
    step s = .next { s with inputs := s.inputs.tail, lastIpl := s.input.ipl }

/-- An interrupt whose level is above the mask, or a level 7 that was not there before, is taken before the instruction:
the mask becomes its level, and the vector is 24 + level, the device's number, or 24 (R460, R461). The model's choices: the
platform's inputs as a list and the order of events at a boundary (log entry 12), the stopped processor that wakes (log
entry 4), that T set before makes no difference (log entry 10), and that a device's number is the vector even where R460
names no such answer (log entry 28). -/
def Obligations.InterruptTaken : Prop :=
  ∀ s : State, s.run ≠ .halted → s.haltAddr ≠ some (s.pc &&& s.mem.addrMask) → s.input.reset = false →
    (s.sr.i < s.input.ipl ∨ (s.input.ipl = 7 ∧ s.lastIpl ≠ 7)) →
    let v := match s.input.ack with | .autovector => 24 + s.input.ipl.toNat | .vector n => n.toNat | .spurious => 24
    canEnter v s = true →
    let t := entered v s.pc s.consumeInput
    step s = .next { t with sr := { t.sr with i := s.input.ipl } }

/-- An external reset sets S, clears T, masks all levels and loads SSP and PC from vectors 0 and 1, if they can be read;
memory, the memory map and the halt address are kept, and this boundary's input is used up (the inputs are a list by the
model's choice, log entry 12). The registers and flags whose values the spec leaves unspecified are free (log entry 14). -/
def Obligations.ExternalReset : Prop :=
  ∀ s : State, s.input.reset = true → (s.run = .halted ∨ s.haltAddr ≠ some (s.pc &&& s.mem.addrMask)) →
    answers (inSupervisor s) .read .l 0 = true → answers (inSupervisor s) .read .l 4 = true →
    ∃ t, step s = .next t ∧ t.sr.s = true ∧ t.sr.t = false ∧ t.sr.i = 7 ∧ t.ssp = s.mem.long 0 ∧ t.pc = s.mem.long 4 ∧
      t.mem = s.mem ∧ t.prefetch = [] ∧ t.run = .running ∧ t.traceDue = false ∧ t.inputs = s.inputs.tail ∧
      t.lastIpl = s.input.ipl ∧ t.holes = s.holes ∧ t.haltAddr = s.haltAddr ∧ t.ir = s.ir

/-- With T set at its start, an instruction that completes is followed by the trace exception, vector 9, with the address
of the next instruction saved (log entry 10). -/
def Obligations.TraceFollowsInstruction : Prop :=
  ∀ (s u : State) (i : Instr) (rest : List Word),
    fetches s = true → allMapped s = true → s.pc.getLsbD 0 = false → queueFresh s = true →
    decodeWords (wordsAt s) = .ok (i, rest) → exec i (fetched i s) = .next u → u.traceDue = true → canEnter 9 u = true →
    s.sr.t = true ∧ step s = .next (entered 9 u.pc { u with traceDue := false })

/-- A stopped processor waits: without an interrupt or reset a step changes nothing but what the platform presented. At
`halt_addr` a step changes nothing. The model's choices: log entries 4, 12 and 13. -/
def Obligations.StoppedWaits : Prop :=
  ∀ s : State,
    (s.run = .stopped → s.haltAddr ≠ some (s.pc &&& s.mem.addrMask) → s.input.reset = false →
      ¬ (s.sr.i < s.input.ipl ∨ (s.input.ipl = 7 ∧ s.lastIpl ≠ 7)) →
      step s = .next { s with inputs := s.inputs.tail, lastIpl := s.input.ipl }) ∧
    (s.run ≠ .halted → s.haltAddr = some (s.pc &&& s.mem.addrMask) → step s = .next s)

/-- After a store into a word already read ahead, the fetch of that word, by the next instruction or in reading ahead again,
sees the old word or the stored one, and the model says not which (log entry 11). Of any word that is not read ahead, and
without such a store, it sees memory. -/
def Obligations.StaleFetchSeesOldOrNew : Prop :=
  ∀ (s t : State) (a : Long) (v : Word), (streamWord a).run s = .ok v t →
    ((∀ p ∈ s.prefetch, p.1 ≠ a) → v = s.mem.word a ∧ t = s) ∧
    (∀ w, (∃ p ∈ s.prefetch, p.1 = a) → (∀ p ∈ s.prefetch, p.1 = a → p.2 = w) →
      (v = w ∨ v = s.mem.word a) ∧ (w = s.mem.word a → t = s)) ∧
    (readAhead a).run s = .ok (a, v) t

/-- An access of which a byte is not mapped takes the bus error, vector 2, with the first such byte's address: MOVE from
memory to a data register or from a data register to memory; and, with the word's address, the fetch of an instruction. So does MOVE whose
destination's extension word cannot be fetched, after its source has been read and its register stepped. The model's choices:
to take it, what is kept and the frame's first word (log entries 6, 7, 8, 16), and that after the failed fetch of an
operation word the frame's instruction register is still the one fetched before (log entry 24). -/
def Obligations.BusErrorFrame : Prop :=
  (∀ (write : Bool) (sz : Size) (ea : EA) (d : Reg) (a : Long) (sp : Space) (k : Nat) (i : Instr) (kind : AccessKind)
      (s u : State),
    transfers write sz ea d s = some (i, kind) → evalEA (s.npc 1) sz ea s = (.mem a sp, u) →
    (sz = .b ∨ a.getLsbD 0 = false) → k < sz.bytes → u.mapped kind (a + BitVec.ofNat 32 k) = false →
    (∀ j < k, u.mapped kind (a + BitVec.ofNat 32 j) = true) → s.mem.addressable → canEnterError 2 u = true →
    ∃ t, exec i s = .next t ∧
      ErrorEntered 2 ((a + BitVec.ofNat 32 k) &&& s.mem.addrMask) kind (if write then .data else sp) u t) ∧
  (∀ s : State,
    fetches s = true → s.pc.getLsbD 0 = false → (s.mapped .fetch s.pc && s.mapped .fetch (s.pc + 1)) = false →
    s.mem.addressable → canEnterError 2 s = true →
    ∃ t, step s = .next t ∧ ErrorEntered 2 s.pc .fetch .program s.consumeInput t) ∧
  ∀ (sz : Size) (src dst : EA) (k : Nat) (s : State),
    let p := evalEA (s.npc 1) sz src s
    let xp := s.npc (1 + src.words sz)
    reads sz p.1 p.2 = true → k < dst.words sz → streams p.2 k xp = true → xp.getLsbD 0 = false →
    answers p.2 .fetch .w (xp + BitVec.ofNat 32 (2 * k)) = false → s.mem.addressable → canEnterError 2 p.2 = true →
    ∃ t, exec (moveOf sz src dst) s = .next t ∧
      ErrorEntered 2 (xp + BitVec.ofNat 32 (2 * k)) .fetch .program p.2 t
end

