-- ==== Sys2Proof/Laws/State.lean ====
section
/-! SUPPORT. One lemma per field per update of the state, so that no proof unfolds a record update. -/

namespace Sys2Proof.Machine


/-! ### `setD` -/

@[simp] theorem State.setD_a (s : State) (r : Reg) (v : Long) : (s.setD r v).a = s.a := rfl
@[simp] theorem State.setD_usp (s : State) (r : Reg) (v : Long) : (s.setD r v).usp = s.usp := rfl
@[simp] theorem State.setD_ssp (s : State) (r : Reg) (v : Long) : (s.setD r v).ssp = s.ssp := rfl
@[simp] theorem State.setD_pc (s : State) (r : Reg) (v : Long) : (s.setD r v).pc = s.pc := rfl
@[simp] theorem State.setD_sr (s : State) (r : Reg) (v : Long) : (s.setD r v).sr = s.sr := rfl
@[simp] theorem State.setD_mem (s : State) (r : Reg) (v : Long) : (s.setD r v).mem = s.mem := rfl
@[simp] theorem State.setD_prefetch (s : State) (r : Reg) (v : Long) : (s.setD r v).prefetch = s.prefetch := rfl
@[simp] theorem State.setD_ir (s : State) (r : Reg) (v : Long) : (s.setD r v).ir = s.ir := rfl
@[simp] theorem State.setD_run (s : State) (r : Reg) (v : Long) : (s.setD r v).run = s.run := rfl
@[simp] theorem State.setD_traceDue (s : State) (r : Reg) (v : Long) : (s.setD r v).traceDue = s.traceDue := rfl
@[simp] theorem State.setD_inputs (s : State) (r : Reg) (v : Long) : (s.setD r v).inputs = s.inputs := rfl
@[simp] theorem State.setD_lastIpl (s : State) (r : Reg) (v : Long) : (s.setD r v).lastIpl = s.lastIpl := rfl
@[simp] theorem State.setD_holes (s : State) (r : Reg) (v : Long) : (s.setD r v).holes = s.holes := rfl
@[simp] theorem State.setD_haltAddr (s : State) (r : Reg) (v : Long) : (s.setD r v).haltAddr = s.haltAddr := rfl
@[simp] theorem State.setD_draws (s : State) (r : Reg) (v : Long) : (s.setD r v).draws = s.draws := rfl

/-! ### `setDn` -/

@[simp] theorem State.setDn_a (s : State) (sz : Size) (r : Reg) (v : BitVec sz.bits) : (s.setDn sz r v).a = s.a := rfl
@[simp] theorem State.setDn_usp (s : State) (sz : Size) (r : Reg) (v : BitVec sz.bits) : (s.setDn sz r v).usp = s.usp := rfl
@[simp] theorem State.setDn_ssp (s : State) (sz : Size) (r : Reg) (v : BitVec sz.bits) : (s.setDn sz r v).ssp = s.ssp := rfl
@[simp] theorem State.setDn_pc (s : State) (sz : Size) (r : Reg) (v : BitVec sz.bits) : (s.setDn sz r v).pc = s.pc := rfl
@[simp] theorem State.setDn_sr (s : State) (sz : Size) (r : Reg) (v : BitVec sz.bits) : (s.setDn sz r v).sr = s.sr := rfl
@[simp] theorem State.setDn_mem (s : State) (sz : Size) (r : Reg) (v : BitVec sz.bits) : (s.setDn sz r v).mem = s.mem := rfl
@[simp] theorem State.setDn_prefetch (s : State) (sz : Size) (r : Reg) (v : BitVec sz.bits) : (s.setDn sz r v).prefetch = s.prefetch := rfl
@[simp] theorem State.setDn_ir (s : State) (sz : Size) (r : Reg) (v : BitVec sz.bits) : (s.setDn sz r v).ir = s.ir := rfl
@[simp] theorem State.setDn_run (s : State) (sz : Size) (r : Reg) (v : BitVec sz.bits) : (s.setDn sz r v).run = s.run := rfl
@[simp] theorem State.setDn_traceDue (s : State) (sz : Size) (r : Reg) (v : BitVec sz.bits) : (s.setDn sz r v).traceDue = s.traceDue := rfl
@[simp] theorem State.setDn_inputs (s : State) (sz : Size) (r : Reg) (v : BitVec sz.bits) : (s.setDn sz r v).inputs = s.inputs := rfl
@[simp] theorem State.setDn_lastIpl (s : State) (sz : Size) (r : Reg) (v : BitVec sz.bits) : (s.setDn sz r v).lastIpl = s.lastIpl := rfl
@[simp] theorem State.setDn_holes (s : State) (sz : Size) (r : Reg) (v : BitVec sz.bits) : (s.setDn sz r v).holes = s.holes := rfl
@[simp] theorem State.setDn_haltAddr (s : State) (sz : Size) (r : Reg) (v : BitVec sz.bits) : (s.setDn sz r v).haltAddr = s.haltAddr := rfl
@[simp] theorem State.setDn_draws (s : State) (sz : Size) (r : Reg) (v : BitVec sz.bits) : (s.setDn sz r v).draws = s.draws := rfl

/-! ### `setSr` -/

@[simp] theorem State.setSr_d (s : State) (f : StatusReg) : (s.setSr f).d = s.d := rfl
@[simp] theorem State.setSr_a (s : State) (f : StatusReg) : (s.setSr f).a = s.a := rfl
@[simp] theorem State.setSr_usp (s : State) (f : StatusReg) : (s.setSr f).usp = s.usp := rfl
@[simp] theorem State.setSr_ssp (s : State) (f : StatusReg) : (s.setSr f).ssp = s.ssp := rfl
@[simp] theorem State.setSr_pc (s : State) (f : StatusReg) : (s.setSr f).pc = s.pc := rfl
@[simp] theorem State.setSr_sr (s : State) (f : StatusReg) : (s.setSr f).sr = f := rfl
@[simp] theorem State.setSr_mem (s : State) (f : StatusReg) : (s.setSr f).mem = s.mem := rfl
@[simp] theorem State.setSr_prefetch (s : State) (f : StatusReg) : (s.setSr f).prefetch = s.prefetch := rfl
@[simp] theorem State.setSr_ir (s : State) (f : StatusReg) : (s.setSr f).ir = s.ir := rfl
@[simp] theorem State.setSr_run (s : State) (f : StatusReg) : (s.setSr f).run = s.run := rfl
@[simp] theorem State.setSr_traceDue (s : State) (f : StatusReg) : (s.setSr f).traceDue = s.traceDue := rfl
@[simp] theorem State.setSr_inputs (s : State) (f : StatusReg) : (s.setSr f).inputs = s.inputs := rfl
@[simp] theorem State.setSr_lastIpl (s : State) (f : StatusReg) : (s.setSr f).lastIpl = s.lastIpl := rfl
@[simp] theorem State.setSr_holes (s : State) (f : StatusReg) : (s.setSr f).holes = s.holes := rfl
@[simp] theorem State.setSr_haltAddr (s : State) (f : StatusReg) : (s.setSr f).haltAddr = s.haltAddr := rfl
@[simp] theorem State.setSr_draws (s : State) (f : StatusReg) : (s.setSr f).draws = s.draws := rfl

/-! ### `advance` -/

@[simp] theorem State.advance_d (s : State) (n : Nat) : (s.advance n).d = s.d := rfl
@[simp] theorem State.advance_a (s : State) (n : Nat) : (s.advance n).a = s.a := rfl
@[simp] theorem State.advance_usp (s : State) (n : Nat) : (s.advance n).usp = s.usp := rfl
@[simp] theorem State.advance_ssp (s : State) (n : Nat) : (s.advance n).ssp = s.ssp := rfl
@[simp] theorem State.advance_pc (s : State) (n : Nat) : (s.advance n).pc = s.npc n := rfl
@[simp] theorem State.advance_sr (s : State) (n : Nat) : (s.advance n).sr = s.sr := rfl
@[simp] theorem State.advance_mem (s : State) (n : Nat) : (s.advance n).mem = s.mem := rfl
@[simp] theorem State.advance_prefetch (s : State) (n : Nat) : (s.advance n).prefetch = s.prefetch := rfl
@[simp] theorem State.advance_ir (s : State) (n : Nat) : (s.advance n).ir = s.ir := rfl
@[simp] theorem State.advance_run (s : State) (n : Nat) : (s.advance n).run = s.run := rfl
@[simp] theorem State.advance_traceDue (s : State) (n : Nat) : (s.advance n).traceDue = s.traceDue := rfl
@[simp] theorem State.advance_inputs (s : State) (n : Nat) : (s.advance n).inputs = s.inputs := rfl
@[simp] theorem State.advance_lastIpl (s : State) (n : Nat) : (s.advance n).lastIpl = s.lastIpl := rfl
@[simp] theorem State.advance_holes (s : State) (n : Nat) : (s.advance n).holes = s.holes := rfl
@[simp] theorem State.advance_haltAddr (s : State) (n : Nat) : (s.advance n).haltAddr = s.haltAddr := rfl
@[simp] theorem State.advance_draws (s : State) (n : Nat) : (s.advance n).draws = s.draws := rfl

/-! ### `jump` -/

@[simp] theorem State.jump_d (s : State) (a : Long) : (s.jump a).d = s.d := rfl
@[simp] theorem State.jump_a (s : State) (a : Long) : (s.jump a).a = s.a := rfl
@[simp] theorem State.jump_usp (s : State) (a : Long) : (s.jump a).usp = s.usp := rfl
@[simp] theorem State.jump_ssp (s : State) (a : Long) : (s.jump a).ssp = s.ssp := rfl
@[simp] theorem State.jump_pc (s : State) (a : Long) : (s.jump a).pc = a := rfl
@[simp] theorem State.jump_sr (s : State) (a : Long) : (s.jump a).sr = s.sr := rfl
@[simp] theorem State.jump_mem (s : State) (a : Long) : (s.jump a).mem = s.mem := rfl
@[simp] theorem State.jump_prefetch (s : State) (a : Long) : (s.jump a).prefetch = [] := rfl
@[simp] theorem State.jump_ir (s : State) (a : Long) : (s.jump a).ir = s.ir := rfl
@[simp] theorem State.jump_run (s : State) (a : Long) : (s.jump a).run = s.run := rfl
@[simp] theorem State.jump_traceDue (s : State) (a : Long) : (s.jump a).traceDue = s.traceDue := rfl
@[simp] theorem State.jump_inputs (s : State) (a : Long) : (s.jump a).inputs = s.inputs := rfl
@[simp] theorem State.jump_lastIpl (s : State) (a : Long) : (s.jump a).lastIpl = s.lastIpl := rfl
@[simp] theorem State.jump_holes (s : State) (a : Long) : (s.jump a).holes = s.holes := rfl
@[simp] theorem State.jump_haltAddr (s : State) (a : Long) : (s.jump a).haltAddr = s.haltAddr := rfl
@[simp] theorem State.jump_draws (s : State) (a : Long) : (s.jump a).draws = s.draws := rfl

/-! ### `setSp` -/

@[simp] theorem State.setSp_d (s : State) (v : Long) : (s.setSp v).d = s.d := by
  unfold State.setSp; split <;> rfl
@[simp] theorem State.setSp_a (s : State) (v : Long) : (s.setSp v).a = s.a := by
  unfold State.setSp; split <;> rfl
@[simp] theorem State.setSp_pc (s : State) (v : Long) : (s.setSp v).pc = s.pc := by
  unfold State.setSp; split <;> rfl
@[simp] theorem State.setSp_sr (s : State) (v : Long) : (s.setSp v).sr = s.sr := by
  unfold State.setSp; split <;> rfl
@[simp] theorem State.setSp_mem (s : State) (v : Long) : (s.setSp v).mem = s.mem := by
  unfold State.setSp; split <;> rfl
@[simp] theorem State.setSp_prefetch (s : State) (v : Long) : (s.setSp v).prefetch = s.prefetch := by
  unfold State.setSp; split <;> rfl
@[simp] theorem State.setSp_ir (s : State) (v : Long) : (s.setSp v).ir = s.ir := by
  unfold State.setSp; split <;> rfl
@[simp] theorem State.setSp_run (s : State) (v : Long) : (s.setSp v).run = s.run := by
  unfold State.setSp; split <;> rfl
@[simp] theorem State.setSp_traceDue (s : State) (v : Long) : (s.setSp v).traceDue = s.traceDue := by
  unfold State.setSp; split <;> rfl
@[simp] theorem State.setSp_inputs (s : State) (v : Long) : (s.setSp v).inputs = s.inputs := by
  unfold State.setSp; split <;> rfl
@[simp] theorem State.setSp_lastIpl (s : State) (v : Long) : (s.setSp v).lastIpl = s.lastIpl := by
  unfold State.setSp; split <;> rfl
@[simp] theorem State.setSp_holes (s : State) (v : Long) : (s.setSp v).holes = s.holes := by
  unfold State.setSp; split <;> rfl
@[simp] theorem State.setSp_haltAddr (s : State) (v : Long) : (s.setSp v).haltAddr = s.haltAddr := by
  unfold State.setSp; split <;> rfl
@[simp] theorem State.setSp_draws (s : State) (v : Long) : (s.setSp v).draws = s.draws := by
  unfold State.setSp; split <;> rfl
@[simp] theorem State.setSp_usp (s : State) (v : Long) : (s.setSp v).usp = if s.sr.s then s.usp else v := by
  unfold State.setSp; split <;> rfl
@[simp] theorem State.setSp_ssp (s : State) (v : Long) : (s.setSp v).ssp = if s.sr.s then v else s.ssp := by
  unfold State.setSp; split <;> rfl

/-! ### `setA` -/

@[simp] theorem State.setA_d (s : State) (r : Reg) (v : Long) : (s.setA r v).d = s.d := by
  unfold State.setA; split <;> simp
@[simp] theorem State.setA_pc (s : State) (r : Reg) (v : Long) : (s.setA r v).pc = s.pc := by
  unfold State.setA; split <;> simp
@[simp] theorem State.setA_sr (s : State) (r : Reg) (v : Long) : (s.setA r v).sr = s.sr := by
  unfold State.setA; split <;> simp
@[simp] theorem State.setA_mem (s : State) (r : Reg) (v : Long) : (s.setA r v).mem = s.mem := by
  unfold State.setA; split <;> simp
@[simp] theorem State.setA_prefetch (s : State) (r : Reg) (v : Long) : (s.setA r v).prefetch = s.prefetch := by
  unfold State.setA; split <;> simp
@[simp] theorem State.setA_ir (s : State) (r : Reg) (v : Long) : (s.setA r v).ir = s.ir := by
  unfold State.setA; split <;> simp
@[simp] theorem State.setA_run (s : State) (r : Reg) (v : Long) : (s.setA r v).run = s.run := by
  unfold State.setA; split <;> simp
@[simp] theorem State.setA_traceDue (s : State) (r : Reg) (v : Long) : (s.setA r v).traceDue = s.traceDue := by
  unfold State.setA; split <;> simp
@[simp] theorem State.setA_inputs (s : State) (r : Reg) (v : Long) : (s.setA r v).inputs = s.inputs := by
  unfold State.setA; split <;> simp
@[simp] theorem State.setA_lastIpl (s : State) (r : Reg) (v : Long) : (s.setA r v).lastIpl = s.lastIpl := by
  unfold State.setA; split <;> simp
@[simp] theorem State.setA_holes (s : State) (r : Reg) (v : Long) : (s.setA r v).holes = s.holes := by
  unfold State.setA; split <;> simp
@[simp] theorem State.setA_haltAddr (s : State) (r : Reg) (v : Long) : (s.setA r v).haltAddr = s.haltAddr := by
  unfold State.setA; split <;> simp
@[simp] theorem State.setA_draws (s : State) (r : Reg) (v : Long) : (s.setA r v).draws = s.draws := by
  unfold State.setA; split <;> simp
@[simp] theorem State.setA_usp (s : State) (r : Reg) (v : Long) :
    (s.setA r v).usp = if r.toNat < 7 ∨ s.sr.s then s.usp else v := by
  unfold State.setA State.setSp
  by_cases h : r.toNat < 7 <;> by_cases hs : s.sr.s <;> simp [h, hs]
@[simp] theorem State.setA_ssp (s : State) (r : Reg) (v : Long) :
    (s.setA r v).ssp = if r.toNat < 7 ∨ s.sr.s = false then s.ssp else v := by
  unfold State.setA State.setSp
  by_cases h : r.toNat < 7 <;> by_cases hs : s.sr.s <;> simp [h, hs]

/-! ### Data registers -/

@[simp] theorem State.getD_setD (s : State) (r q : Reg) (v : Long) : (s.setD r v).getD q = if r = q then v else s.getD q := by
  simp only [State.getD, State.setD, Fin.getElem_fin, Vector.getElem_set]
  congr 1
  exact propext BitVec.toNat_inj
@[simp] theorem State.getD_setDn (s : State) (sz : Size) (r q : Reg) (v : BitVec sz.bits) :
    (s.setDn sz r v).getD q = if r = q then merge sz (s.getD r) v else s.getD q := State.getD_setD _ _ _ _
@[simp] theorem State.getD_setSr (s : State) (f : StatusReg) (q : Reg) : (s.setSr f).getD q = s.getD q := rfl
@[simp] theorem State.getD_advance (s : State) (n : Nat) (q : Reg) : (s.advance n).getD q = s.getD q := rfl
@[simp] theorem State.getD_jump (s : State) (a : Long) (q : Reg) : (s.jump a).getD q = s.getD q := rfl
@[simp] theorem State.getD_setSp (s : State) (v : Long) (q : Reg) : (s.setSp v).getD q = s.getD q := by
  simp [State.getD]
@[simp] theorem State.getD_setA (s : State) (r : Reg) (v : Long) (q : Reg) : (s.setA r v).getD q = s.getD q := by
  simp [State.getD]
theorem setWidth_append_low {m n : Nat} (a : BitVec m) (v : BitVec n) : (a ++ v).setWidth n = v := by
  simp [BitVec.setWidth_append]
@[simp] theorem low_merge (sz : Size) (old : Long) (v : BitVec sz.bits) : low sz (merge sz old v) = v := by
  cases sz
  · exact setWidth_append_low (old.extractLsb' 8 24) v
  · exact setWidth_append_low (old.extractLsb' 16 16) v
  · exact BitVec.setWidth_eq v
@[simp] theorem State.getDn_setDn (s : State) (sz : Size) (r : Reg) (v : BitVec sz.bits) :
    (s.setDn sz r v).getDn sz r = v := by
  simp [State.getDn]

/-! ### Address registers -/

@[simp] theorem State.sp_setD (s : State) (r : Reg) (v : Long) : (s.setD r v).sp = s.sp := rfl
@[simp] theorem State.sp_setDn (s : State) (sz : Size) (r : Reg) (v : BitVec sz.bits) : (s.setDn sz r v).sp = s.sp := rfl
@[simp] theorem State.sp_advance (s : State) (n : Nat) : (s.advance n).sp = s.sp := rfl
@[simp] theorem State.sp_jump (s : State) (a : Long) : (s.jump a).sp = s.sp := rfl
@[simp] theorem State.sp_setSp (s : State) (v : Long) : (s.setSp v).sp = v := by
  cases h : s.sr.s <;> simp [State.sp, h]
theorem State.sp_setSr (s : State) (f : StatusReg) (h : f.s = s.sr.s) : (s.setSr f).sp = s.sp := by
  simp [State.sp, h]
@[simp] theorem State.getA_setA (s : State) (r q : Reg) (v : Long) : (s.setA r v).getA q = if r = q then v else s.getA q := by
  by_cases hr : r.toNat < 7 <;> by_cases hq : q.toNat < 7
  · simp only [State.getA, State.setA, hr, hq, dite_true, Vector.getElem_set]
    congr 1
    exact propext BitVec.toNat_inj
  · have : r ≠ q := fun h => hq (h ▸ hr)
    simp [State.getA, State.setA, hr, hq, this, State.sp]
  · have : r ≠ q := fun h => hr (h ▸ hq)
    simp [State.getA, State.setA, hr, hq, this]
  · have : r = q := by
      apply BitVec.eq_of_toNat_eq
      have := r.isLt
      have := q.isLt
      omega
    simp [State.getA, State.setA, hq, this]
@[simp] theorem State.getA_setD (s : State) (r : Reg) (v : Long) (q : Reg) : (s.setD r v).getA q = s.getA q := rfl
@[simp] theorem State.getA_setDn (s : State) (sz : Size) (r : Reg) (v : BitVec sz.bits) (q : Reg) : (s.setDn sz r v).getA q = s.getA q := rfl
@[simp] theorem State.getA_advance (s : State) (n : Nat) (q : Reg) : (s.advance n).getA q = s.getA q := rfl
@[simp] theorem State.getA_jump (s : State) (a : Long) (q : Reg) : (s.jump a).getA q = s.getA q := rfl
theorem State.getA_setSr (s : State) (f : StatusReg) (q : Reg) (h : f.s = s.sr.s) : (s.setSr f).getA q = s.getA q := by
  simp [State.getA, State.sp, h]
@[simp] theorem State.getA_seven (s : State) : s.getA 7 = s.sp := rfl
@[simp] theorem State.setA_seven (s : State) (v : Long) : s.setA 7 v = s.setSp v := rfl

/-! ### `npc` -/

@[simp] theorem State.npc_setD (s : State) (r : Reg) (v : Long) (n : Nat) : (s.setD r v).npc n = s.npc n := by
  simp [State.npc]
@[simp] theorem State.npc_setDn (s : State) (sz : Size) (r : Reg) (v : BitVec sz.bits) (n : Nat) : (s.setDn sz r v).npc n = s.npc n := by
  simp [State.npc]
@[simp] theorem State.npc_setSr (s : State) (f : StatusReg) (n : Nat) : (s.setSr f).npc n = s.npc n := by
  simp [State.npc]
@[simp] theorem State.npc_setA (s : State) (r : Reg) (v : Long) (n : Nat) : (s.setA r v).npc n = s.npc n := by
  simp [State.npc]
@[simp] theorem State.npc_setSp (s : State) (v : Long) (n : Nat) : (s.setSp v).npc n = s.npc n := by
  simp [State.npc]

end Sys2Proof.Machine
end

