-- ==== Sys2Proof/Laws/Exec.lean ====
section
/-! SUPPORT. How the pieces of a meaning run: one lemma per shared operation, which says all it can do; and the rule
by which what every piece keeps, the whole keeps. -/

namespace Sys2Proof.Machine

/-! ### The monad -/

theorem Exec.map_ok {α β : Type} (g : α → β) {m : Exec α} {s t : State} {a : α} (h : m.run s = .ok a t) :
    (g <$> m).run s = .ok (g a) t := by
  rw [EStateM.run_map, h]
  rfl

theorem Exec.bind_ok {α β : Type} {m : Exec α} (f : α → Exec β) {s t : State} {a : α} (h : m.run s = .ok a t) :
    (m >>= f).run s = (f a).run t := by
  rw [EStateM.run_bind, h]

@[simp] theorem Exec.run_ite {α : Type} (p : Prop) [Decidable p] (m m' : Exec α) (s : State) :
    (if p then m else m').run s = if p then m.run s else m'.run s := by
  split <;> rfl

theorem complete_of_ok {m : Exec Unit} {s t : State} (h : m.run s = .ok () t) : complete m s = t := by
  simp [complete, h]

theorem complete_of_error {m : Exec Unit} {s t : State} {e : AccessError} (h : m.run s = .error e t) :
    complete m s = groupZero e t := by
  simp [complete, h]

theorem run_of_ok {m : Exec Unit} {s t : State} (h : m.run s = .ok () t) : run m s = .next t := by
  simp [run, complete_of_ok h]

/-! ### Accesses -/

/-- An access meets no error exactly when the address is aligned and every byte is mapped (R74 to R76). -/
theorem State.accessError_eq_none_iff (s : State) (kind : AccessKind) (sp : Space) (k : Nat) (a : Long) :
    s.accessError kind sp k a = none ↔
      (2 ≤ k → a.getLsbD 0 = false) ∧ ∀ i, i < k → s.mapped kind (a + BitVec.ofNat 32 i) = true := by
  unfold State.accessError
  by_cases h : 2 ≤ k ∧ a.getLsbD 0 = true
  · rw [if_pos h]
    constructor
    · intro h'
      exact absurd h' (by simp)
    · intro h'
      rw [h'.1 h.1] at h
      exact absurd h.2 (by simp)
  · rw [if_neg h]
    have h1 : 2 ≤ k → a.getLsbD 0 = false := fun hk => by simpa using fun ha => h ⟨hk, ha⟩
    cases hf : (List.range k).find? (fun i => !s.mapped kind (a + BitVec.ofNat 32 i)) with
    | none =>
      have := List.find?_eq_none.1 hf
      simp only [true_iff]
      exact ⟨h1, fun i hi => by simpa using this i (List.mem_range.2 hi)⟩
    | some i =>
      have hm := List.mem_range.1 (List.mem_of_find?_eq_some hf)
      have hp := List.find?_some hf
      simp only [reduceCtorEq, false_iff, not_and]
      intro _ hall
      rw [hall i hm] at hp
      exact absurd hp (by simp)

/-- A word or long at an odd address is an address error (R76). -/
theorem State.accessError_of_odd (s : State) (kind : AccessKind) (sp : Space) (k : Nat) (a : Long) (hk : 2 ≤ k)
    (ha : a.getLsbD 0 = true) :
    s.accessError kind sp k a = some { vector := 3, address := a, kind := kind, fc := functionCode sp s.sr.s } := by
  unfold State.accessError
  rw [if_pos ⟨hk, ha⟩]

/-- Which accesses are answered depends only on S, on the platform's holes and on the address width. -/
theorem State.mapped_congr {s t : State} (hs : t.sr.s = s.sr.s) (hh : t.holes = s.holes)
    (hb : t.mem.addrBits = s.mem.addrBits) (kind : AccessKind) (a : Long) :
    t.mapped kind a = s.mapped kind a := by
  simp [State.mapped, hs, hh, Memory.key_congr hb]

theorem State.accessError_congr {s t : State} (hs : t.sr.s = s.sr.s) (hh : t.holes = s.holes)
    (hb : t.mem.addrBits = s.mem.addrBits) (kind : AccessKind) (sp : Space) (k : Nat) (a : Long) : t.accessError kind sp k a = s.accessError kind sp k a := by
  simp [State.accessError, State.mapped, hs, hh, Memory.key_congr hb, Memory.addrMask_congr hb]

theorem State.mapped_of_no_holes {s : State} (h : s.holes = []) (kind : AccessKind) (a : Long) : s.mapped kind a = true := by
  simp [State.mapped, h]

theorem readMem_run (sz : Size) (sp : Space) (a : Long) (s : State) :
    (readMem sz sp a).run s = match s.accessError .read sp sz.bytes a with
      | none => .ok (s.mem.load sz a) s
      | some e => .error e s := rfl

theorem writeMem_run (sz : Size) (a : Long) (v : BitVec sz.bits) (s : State) :
    (writeMem sz a v).run s = match s.accessError .write .data sz.bytes a with
      | none => .ok () { s with mem := s.mem.store sz a v }
      | some e => .error e s := rfl

theorem readMem_ok {sz : Size} {sp : Space} {a : Long} {s : State} (h : s.accessError .read sp sz.bytes a = none) :
    (readMem sz sp a).run s = .ok (s.mem.load sz a) s := by
  rw [readMem_run, h]

theorem writeMem_ok {sz : Size} {a : Long} {v : BitVec sz.bits} {s : State}
    (h : s.accessError .write .data sz.bytes a = none) :
    (writeMem sz a v).run s = .ok () { s with mem := s.mem.store sz a v } := by
  rw [writeMem_run, h]

theorem push_ok {sz : Size} {v : BitVec sz.bits} {s : State}
    (h : s.accessError .write .data sz.bytes (s.sp - BitVec.ofNat 32 sz.bytes) = none) :
    (push sz v).run s = .ok ()
      { s.setSp (s.sp - BitVec.ofNat 32 sz.bytes) with mem := s.mem.store sz (s.sp - BitVec.ofNat 32 sz.bytes) v } := by
  have h' : (s.setSp (s.sp - BitVec.ofNat 32 sz.bytes)).accessError .write .data sz.bytes (s.sp - BitVec.ofNat 32 sz.bytes) =
      none := (State.accessError_congr (by simp) (by simp) (by simp) _ _ _ _).trans h
  simp [push, writeMem_ok h']

theorem pop_ok {sz : Size} {s : State} (h : s.accessError .read .data sz.bytes s.sp = none) :
    (pop sz).run s = .ok (s.mem.load sz s.sp) (s.setSp (s.sp + BitVec.ofNat 32 sz.bytes)) := by
  simp [pop, readMem_ok h]

/-- The words of an instruction stream that are fetched either all answer or end in an access error, and the state is as
it was (R78). -/
theorem checkFetch_run (n : Nat) (a : Long) (s : State) :
    (checkFetch n a).run s = .ok () s ∨ ∃ e, (checkFetch n a).run s = .error e s := by
  induction n generalizing a with
  | zero => exact .inl rfl
  | succ n ih =>
    unfold checkFetch
    rw [EStateM.run_bind, EStateM.run_get]
    cases h : s.accessError .fetch .program 2 a with
    | none => simpa only [h] using ih (a + 2)
    | some e => exact .inr ⟨e, by simp only [h]; rfl⟩

theorem checkFetch_ok {n : Nat} {a : Long} {s : State} (ha : a.getLsbD 0 = false)
    (h : ∀ i, i < 2 * n → s.mapped .fetch (a + BitVec.ofNat 32 i) = true) : (checkFetch n a).run s = .ok () s := by
  induction n generalizing a with
  | zero => rfl
  | succ n ih =>
    have h1 : s.accessError .fetch .program 2 a = none := by
      rw [State.accessError_eq_none_iff]
      exact ⟨fun _ => ha, fun i hi => h i (by omega)⟩
    have h2 : (a + 2).getLsbD 0 = false := by
      revert ha
      generalize ha' : a = b
      intro hb
      simp [BitVec.getLsbD, BitVec.toNat_add] at *
      omega
    unfold checkFetch
    rw [EStateM.run_bind, EStateM.run_get]
    simp only [h1]
    refine ih h2 fun i hi => ?_
    rw [BitVec.add_assoc, show (2 : Long) = BitVec.ofNat 32 2 from rfl, ← BitVec.ofNat_add]
    exact h _ (by omega)

/-! ### Operands -/

@[simp] theorem run_place (own : Nat) (sz : Size) (ea : EA) (s : State) :
    (place own sz ea).run s = .ok (evalEA (s.npc (1 + own)) sz ea s).1 (evalEA (s.npc (1 + own)) sz ea s).2 := rfl

theorem readLoc_run (sz : Size) (l : Loc) (s : State) :
    (readLoc sz l).run s = match l.readError sz s with
      | none => .ok (l.value sz s) s
      | some e => .error e s := rfl

theorem writeLoc_run (sz : Size) (l : Loc) (v : BitVec sz.bits) (s : State) :
    (writeLoc sz l v).run s = match l.writeError sz s with
      | none => .ok () (l.put sz v s)
      | some e => .error e s := rfl

theorem readLoc_ok {sz : Size} {l : Loc} {s : State} (h : l.readError sz s = none) :
    (readLoc sz l).run s = .ok (l.value sz s) s := by
  rw [readLoc_run, h]

theorem writeLoc_ok {sz : Size} {l : Loc} {v : BitVec sz.bits} {s : State} (h : l.writeError sz s = none) :
    (writeLoc sz l v).run s = .ok () (l.put sz v s) := by
  rw [writeLoc_run, h]

/-- Evaluating an operand changes nothing but one address register. -/
theorem evalEA_state (xp : Long) (sz : Size) (ea : EA) (s : State) :
    (evalEA xp sz ea s).2 = s ∨ ∃ r v, (evalEA xp sz ea s).2 = s.setA r v := by
  cases ea <;> first | exact .inl rfl | exact .inr ⟨_, _, rfl⟩

/-- What evaluating an operand leaves alone follows from what `setA` leaves alone. -/
theorem evalEA_keeps {α : Type} (π : State → α) (h : ∀ s r v, π (s.setA r v) = π s) (xp : Long) (sz : Size) (ea : EA)
    (s : State) : π (evalEA xp sz ea s).2 = π s := by
  rcases evalEA_state xp sz ea s with e | ⟨r, v, e⟩
  · rw [e]
  · rw [e, h]

@[simp] theorem evalEA_d (xp : Long) (sz : Size) (ea : EA) (s : State) : (evalEA xp sz ea s).2.d = s.d :=
  evalEA_keeps (fun s => s.d) (fun s r v => State.setA_d s r v) xp sz ea s
@[simp] theorem evalEA_pc (xp : Long) (sz : Size) (ea : EA) (s : State) : (evalEA xp sz ea s).2.pc = s.pc :=
  evalEA_keeps (fun s => s.pc) (fun s r v => State.setA_pc s r v) xp sz ea s
@[simp] theorem evalEA_sr (xp : Long) (sz : Size) (ea : EA) (s : State) : (evalEA xp sz ea s).2.sr = s.sr :=
  evalEA_keeps (fun s => s.sr) (fun s r v => State.setA_sr s r v) xp sz ea s
@[simp] theorem evalEA_mem (xp : Long) (sz : Size) (ea : EA) (s : State) : (evalEA xp sz ea s).2.mem = s.mem :=
  evalEA_keeps (fun s => s.mem) (fun s r v => State.setA_mem s r v) xp sz ea s
@[simp] theorem evalEA_prefetch (xp : Long) (sz : Size) (ea : EA) (s : State) : (evalEA xp sz ea s).2.prefetch = s.prefetch :=
  evalEA_keeps (fun s => s.prefetch) (fun s r v => State.setA_prefetch s r v) xp sz ea s
@[simp] theorem evalEA_ir (xp : Long) (sz : Size) (ea : EA) (s : State) : (evalEA xp sz ea s).2.ir = s.ir :=
  evalEA_keeps (fun s => s.ir) (fun s r v => State.setA_ir s r v) xp sz ea s
@[simp] theorem evalEA_run (xp : Long) (sz : Size) (ea : EA) (s : State) : (evalEA xp sz ea s).2.run = s.run :=
  evalEA_keeps (fun s => s.run) (fun s r v => State.setA_run s r v) xp sz ea s
@[simp] theorem evalEA_traceDue (xp : Long) (sz : Size) (ea : EA) (s : State) : (evalEA xp sz ea s).2.traceDue = s.traceDue :=
  evalEA_keeps (fun s => s.traceDue) (fun s r v => State.setA_traceDue s r v) xp sz ea s
@[simp] theorem evalEA_inputs (xp : Long) (sz : Size) (ea : EA) (s : State) : (evalEA xp sz ea s).2.inputs = s.inputs :=
  evalEA_keeps (fun s => s.inputs) (fun s r v => State.setA_inputs s r v) xp sz ea s
@[simp] theorem evalEA_lastIpl (xp : Long) (sz : Size) (ea : EA) (s : State) : (evalEA xp sz ea s).2.lastIpl = s.lastIpl :=
  evalEA_keeps (fun s => s.lastIpl) (fun s r v => State.setA_lastIpl s r v) xp sz ea s
@[simp] theorem evalEA_holes (xp : Long) (sz : Size) (ea : EA) (s : State) : (evalEA xp sz ea s).2.holes = s.holes :=
  evalEA_keeps (fun s => s.holes) (fun s r v => State.setA_holes s r v) xp sz ea s
@[simp] theorem evalEA_haltAddr (xp : Long) (sz : Size) (ea : EA) (s : State) : (evalEA xp sz ea s).2.haltAddr = s.haltAddr :=
  evalEA_keeps (fun s => s.haltAddr) (fun s r v => State.setA_haltAddr s r v) xp sz ea s
@[simp] theorem evalEA_draws (xp : Long) (sz : Size) (ea : EA) (s : State) : (evalEA xp sz ea s).2.draws = s.draws :=
  evalEA_keeps (fun s => s.draws) (fun s r v => State.setA_draws s r v) xp sz ea s
@[simp] theorem evalEA_getD (xp : Long) (sz : Size) (ea : EA) (s : State) (r : Reg) : (evalEA xp sz ea s).2.getD r = s.getD r :=
  evalEA_keeps (fun s => s.getD r) (fun s q v => State.getD_setA s q v r) xp sz ea s
@[simp] theorem evalEA_getDn (xp : Long) (sz z : Size) (ea : EA) (s : State) (r : Reg) :
    (evalEA xp sz ea s).2.getDn z r = s.getDn z r := by
  simp [State.getDn]
@[simp] theorem evalEA_npc (xp : Long) (sz : Size) (ea : EA) (s : State) (n : Nat) : (evalEA xp sz ea s).2.npc n = s.npc n := by
  simp [State.npc]

@[simp] theorem Loc.put_pc (sz : Size) (l : Loc) (v : BitVec sz.bits) (s : State) : (l.put sz v s).pc = s.pc := by
  cases l <;> simp [Loc.put]
@[simp] theorem Loc.put_sr (sz : Size) (l : Loc) (v : BitVec sz.bits) (s : State) : (l.put sz v s).sr = s.sr := by
  cases l <;> simp [Loc.put]
@[simp] theorem Loc.put_prefetch (sz : Size) (l : Loc) (v : BitVec sz.bits) (s : State) : (l.put sz v s).prefetch = s.prefetch := by
  cases l <;> simp [Loc.put]
@[simp] theorem Loc.put_ir (sz : Size) (l : Loc) (v : BitVec sz.bits) (s : State) : (l.put sz v s).ir = s.ir := by
  cases l <;> simp [Loc.put]
@[simp] theorem Loc.put_run (sz : Size) (l : Loc) (v : BitVec sz.bits) (s : State) : (l.put sz v s).run = s.run := by
  cases l <;> simp [Loc.put]
@[simp] theorem Loc.put_traceDue (sz : Size) (l : Loc) (v : BitVec sz.bits) (s : State) : (l.put sz v s).traceDue = s.traceDue := by
  cases l <;> simp [Loc.put]
@[simp] theorem Loc.put_inputs (sz : Size) (l : Loc) (v : BitVec sz.bits) (s : State) : (l.put sz v s).inputs = s.inputs := by
  cases l <;> simp [Loc.put]
@[simp] theorem Loc.put_lastIpl (sz : Size) (l : Loc) (v : BitVec sz.bits) (s : State) : (l.put sz v s).lastIpl = s.lastIpl := by
  cases l <;> simp [Loc.put]
@[simp] theorem Loc.put_holes (sz : Size) (l : Loc) (v : BitVec sz.bits) (s : State) : (l.put sz v s).holes = s.holes := by
  cases l <;> simp [Loc.put]
@[simp] theorem Loc.put_haltAddr (sz : Size) (l : Loc) (v : BitVec sz.bits) (s : State) : (l.put sz v s).haltAddr = s.haltAddr := by
  cases l <;> simp [Loc.put]
@[simp] theorem Loc.put_draws (sz : Size) (l : Loc) (v : BitVec sz.bits) (s : State) : (l.put sz v s).draws = s.draws := by
  cases l <;> simp [Loc.put]

/-- The control modes step no register. -/
theorem evalEA_control (xp : Long) (sz : Size) (ea : EA) (s : State) (h : ea.mode.isControl = true) :
    (evalEA xp sz ea s).2 = s := by
  cases ea <;> first | rfl | simp [EA.mode, EaMode.isControl] at h

/-- What reading an operand meets depends only on S, the platform's holes and the address width. -/
theorem Loc.readError_congr {s t : State} (hs : t.sr.s = s.sr.s) (hh : t.holes = s.holes)
    (hb : t.mem.addrBits = s.mem.addrBits) (sz : Size) (l : Loc) :
    l.readError sz t = l.readError sz s := by
  cases l <;> simp [Loc.readError, State.accessError_congr hs hh hb]

theorem Loc.writeError_congr {s t : State} (hs : t.sr.s = s.sr.s) (hh : t.holes = s.holes)
    (hb : t.mem.addrBits = s.mem.addrBits) (sz : Size) (l : Loc) :
    l.writeError sz t = l.writeError sz s := by
  cases l <;> simp [Loc.writeError, State.accessError_congr hs hh hb]

/-! ### Instruction shapes, when no access fails -/

theorem source_ok {own : Nat} {sz : Size} {ea : EA} {s : State} {l : Loc} {t : State}
    (he : evalEA (s.npc (1 + own)) sz ea s = (l, t)) (hr : l.readError sz t = none) :
    (source own sz ea).run s = .ok (l.value sz t) t := by
  simp [source, he, readLoc_ok hr]

theorem modifyEA_ok {own : Nat} {sz : Size} {ea : EA} {op : BitVec sz.bits → StatusReg → Result sz.bits} {s : State}
    {l : Loc} {t : State} (he : evalEA (s.npc (1 + own)) sz ea s = (l, t)) (hr : l.readError sz t = none)
    (hw : l.writeError sz t = none) :
    (modifyEA own sz ea op).run s =
      .ok () (((l.put sz (op (l.value sz t) s.sr).1 t).setSr (op (l.value sz t) s.sr).2).advance (1 + own + ea.words sz)) := by
  have hsr : t.sr = s.sr := by simpa [he] using evalEA_sr (s.npc (1 + own)) sz ea s
  simp [modifyEA, he, readLoc_ok hr, writeLoc_ok hw, hsr]

theorem testEA_ok {own : Nat} {sz : Size} {ea : EA} {op : BitVec sz.bits → StatusReg → StatusReg} {s : State} {l : Loc}
    {t : State} (he : evalEA (s.npc (1 + own)) sz ea s = (l, t)) (hr : l.readError sz t = none) :
    (testEA own sz ea op).run s = .ok () ((t.setSr (op (l.value sz t) s.sr)).advance (1 + own + ea.words sz)) := by
  have hsr : t.sr = s.sr := by simpa [he] using evalEA_sr (s.npc (1 + own)) sz ea s
  simp [testEA, source_ok he hr, hsr]

theorem pairOperands_reg (sz : Size) (y x : Reg) (s : State) :
    (pairOperands sz false y x).run s = .ok (s.getDn sz y, s.getDn sz x, .dreg x) s := rfl

theorem pairOperands_mem {sz : Size} {y x : Reg} {s : State} {b a : Long} {u : State} (hb : b = s.getA y - stepOf y sz)
    (ha : a = (s.setA y b).getA x - stepOf x sz) (hu : u = (s.setA y b).setA x a)
    (h1 : s.accessError .read .data sz.bytes b = none) (h2 : s.accessError .read .data sz.bytes a = none) :
    (pairOperands sz true y x).run s = .ok (s.mem.load sz b, s.mem.load sz a, .mem a .data) u := by
  subst hb ha hu
  have e1 : (Loc.mem (s.getA y - stepOf y sz) .data).readError sz (s.setA y (s.getA y - stepOf y sz)) = none :=
    (Loc.readError_congr (by simp) (by simp) (by simp) _ _).trans h1
  have e2 : (Loc.mem ((s.setA y (s.getA y - stepOf y sz)).getA x - stepOf x sz) .data).readError sz
      ((s.setA y (s.getA y - stepOf y sz)).setA x ((s.setA y (s.getA y - stepOf y sz)).getA x - stepOf x sz)) = none :=
    (Loc.readError_congr (s := s) (by simp) (by simp) (by simp) _ _).trans h2
  simp only [pairOperands, if_true, evalEA, EStateM.run_bind, run_place, readLoc_ok e1, readLoc_ok e2, EStateM.run_pure]
  simp [Loc.value]

theorem pairOp_reg (sz : Size) (y x : Reg) (op : BitVec sz.bits → BitVec sz.bits → StatusReg → Result sz.bits) (s : State) :
    (pairOp sz false y x op).run s =
      .ok () (((s.setDn sz x (op (s.getDn sz y) (s.getDn sz x) s.sr).1).setSr
        (op (s.getDn sz y) (s.getDn sz x) s.sr).2).advance 1) := rfl

theorem pairOp_mem {sz : Size} {y x : Reg} {op : BitVec sz.bits → BitVec sz.bits → StatusReg → Result sz.bits} {s : State}
    {b a : Long} {u : State} (hb : b = s.getA y - stepOf y sz) (ha : a = (s.setA y b).getA x - stepOf x sz)
    (hu : u = (s.setA y b).setA x a) (h1 : s.accessError .read .data sz.bytes b = none)
    (h2 : s.accessError .read .data sz.bytes a = none) (h3 : s.accessError .write .data sz.bytes a = none) :
    (pairOp sz true y x op).run s =
      .ok () (({ u with mem := s.mem.store sz a (op (s.mem.load sz b) (s.mem.load sz a) s.sr).1 }.setSr
        (op (s.mem.load sz b) (s.mem.load sz a) s.sr).2).advance 1) := by
  have e3 : (Loc.mem a .data).writeError sz u = none :=
    (Loc.writeError_congr (s := s) (by simp [hu]) (by simp [hu]) (by simp [hu]) _ _).trans h3
  have hm : u.mem = s.mem := by simp [hu]
  have hsr : u.sr = s.sr := by simp [hu]
  simp [pairOp, pairOperands_mem hb ha hu h1 h2, writeLoc_ok e3, Loc.put, hm, hsr]

theorem sourceToDn_ok {sz : Size} {ea : EA} {r : Reg} {op : BitVec sz.bits → BitVec sz.bits → StatusReg → Result sz.bits}
    {s : State} {l : Loc} {t : State} (he : evalEA (s.npc 1) sz ea s = (l, t)) (hr : l.readError sz t = none) :
    (sourceToDn sz ea r op).run s =
      .ok () (((t.setDn sz r (op (l.value sz t) (s.getDn sz r) s.sr).1).setSr
        (op (l.value sz t) (s.getDn sz r) s.sr).2).advance (1 + ea.words sz)) := by
  have hsr : t.sr = s.sr := by simpa [he] using evalEA_sr (s.npc 1) sz ea s
  have hd : t.getDn sz r = s.getDn sz r := by simpa [he] using evalEA_getDn (s.npc 1) sz sz ea s r
  simp [sourceToDn, source_ok (own := 0) he hr, hsr, hd]

theorem sourceToAn_ok {sz : Size} {ea : EA} {r : Reg} {op : Long → Long → Long} {s : State} {l : Loc} {t : State}
    (he : evalEA (s.npc 1) sz ea s = (l, t)) (hr : l.readError sz t = none) :
    (sourceToAn sz ea r op).run s =
      .ok () ((t.setA r (op ((l.value sz t).signExtend 32) (t.getA r))).advance (1 + ea.words sz)) := by
  simp [sourceToAn, source_ok (own := 0) he hr]

end Sys2Proof.Machine
end

