-- ==== Sys2Proof/Laws/Closed.lean ====
section
/-! SUPPORT. The rule for frames and invariants: a relation between states that holds across each small change an
instruction can make holds across the whole instruction, whichever of its accesses fail. -/

namespace Sys2Proof.Machine

/-- The state a computation ends with, whether it goes on or an access ends it. -/
def Exec.final {α : Type} (m : Exec α) (s : State) : State :=
  match m.run s with
  | .ok _ t => t
  | .error _ t => t

theorem Exec.final_of_ok {α : Type} {m : Exec α} {s t : State} {a : α} (h : m.run s = .ok a t) : m.final s = t := by
  simp [Exec.final, h]

theorem Exec.final_of_error {α : Type} {m : Exec α} {s t : State} {e : AccessError} (h : m.run s = .error e t) : m.final s = t := by
  simp [Exec.final, h]

/-- A status register differs from another at most in the flags of a set (R42). -/
def SameBut (F : BitVec 5) (f g : StatusReg) : Prop :=
  g.t = f.t ∧ g.s = f.s ∧ g.i = f.i ∧ g.flags &&& ~~~F = f.flags &&& ~~~F

/-- A relation that holds across every small change of an instruction which writes no data register outside `D`, no
address register outside `A`, no flag outside `F` and no bytes but `W`, and across the changes of a jump. -/
structure Closed (D A : List Reg) (F : BitVec 5) (W : Size → Long → Prop) (R : State → State → Prop) : Prop where
  refl : ∀ s, R s s
  trans : ∀ s t u, R s t → R t u → R s u
  advance : ∀ s n, R s (s.advance n)
  jump : ∀ s a, R s (s.jump a)
  draws : ∀ s n, R s { s with draws := n }
  run : ∀ s r, R s { s with run := r }
  store : ∀ s sz a v, W sz a → R s { s with mem := s.mem.store sz a v }
  setD : ∀ s r v, r ∈ D → R s (s.setD r v)
  setA : ∀ s r v, r ∈ A → R s (s.setA r v)
  setSr : ∀ s f, SameBut F s.sr f → R s (s.setSr f)

/-- A relation that also holds across the changes of an exception (R440, R443). -/
structure ClosedTrap (D A : List Reg) (F : BitVec 5) (R : State → State → Prop) : Prop extends Closed D A F (fun _ _ => True) R where
  enter : ∀ s, R s { s with sr := s.sr.enter }
  ssp : ∀ s v, s.sr.s = true → R s { s with ssp := v }
  traceOff : ∀ s, R s { s with traceDue := false }

variable {D A : List Reg} {F : BitVec 5} {W : Size → Long → Prop} {R : State → State → Prop}

/-! ### Putting pieces together -/

/-- The rule of sequence: the first part, then the second from where the first goes on. -/
theorem Closed.bind {α β : Type} (h : Closed D A F W R) {m : Exec α} {f : α → Exec β} {s : State} (hm : R s (m.final s))
    (hf : ∀ a t, m.run s = .ok a t → R t ((f a).final t)) : R s ((m >>= f).final s) := by
  unfold Exec.final at *
  rw [EStateM.run_bind]
  cases hs : m.run s with
  | ok a t =>
    rw [hs] at hm
    exact h.trans _ _ _ hm (hf a t hs)
  | error e t =>
    rw [hs] at hm
    exact hm

theorem Closed.readMem (h : Closed D A F W R) (sz : Size) (sp : Space) (a : Long) (s : State) :
    R s ((Machine.readMem sz sp a).final s) := by
  unfold Exec.final
  rw [readMem_run]
  cases s.accessError .read sp sz.bytes a <;> exact h.refl s

theorem Closed.readLoc (h : Closed D A F W R) (sz : Size) (l : Loc) (s : State) : R s ((Machine.readLoc sz l).final s) := by
  unfold Exec.final
  rw [readLoc_run]
  cases l.readError sz s <;> exact h.refl s

theorem readMem_state {sz : Size} {sp : Space} {a : Long} {v : BitVec sz.bits} {s t : State}
    (h : (readMem sz sp a).run s = .ok v t) : t = s := by
  rw [readMem_run] at h
  cases he : s.accessError .read sp sz.bytes a <;> rw [he] at h <;> cases h
  rfl

theorem readLoc_state {sz : Size} {l : Loc} {v : BitVec sz.bits} {s t : State} (h : (readLoc sz l).run s = .ok v t) :
    t = s ∧ v = l.value sz s := by
  rw [readLoc_run] at h
  cases he : l.readError sz s <;> rw [he] at h <;> cases h
  exact ⟨rfl, rfl⟩

theorem Closed.writeMem (h : Closed D A F W R) {sz : Size} {a : Long} (v : BitVec sz.bits) (s : State) (hw : W sz a) :
    R s ((Machine.writeMem sz a v).final s) := by
  unfold Exec.final
  rw [writeMem_run]
  cases s.accessError .write .data sz.bytes a
  · exact h.store s sz a v hw
  · exact h.refl s

/-- What writing at a location needs. -/
def Loc.Allowed (D A : List Reg) (W : Size → Long → Prop) (sz : Size) : Loc → Prop
  | .dreg r => r ∈ D
  | .areg r => r ∈ A
  | .mem a _ => W sz a
  | .imm _ => True

theorem Closed.setDn (h : Closed D A F W R) (s : State) (sz : Size) (r : Reg) (v : BitVec sz.bits) (hr : r ∈ D) :
    R s (s.setDn sz r v) := h.setD s r _ hr

theorem Closed.put (h : Closed D A F W R) {sz : Size} {l : Loc} (v : BitVec sz.bits) (s : State) (hl : l.Allowed D A W sz) :
    R s (l.put sz v s) := by
  cases l with
  | dreg r => exact h.setDn s sz r v hl
  | areg r => exact h.setA s r _ hl
  | mem a sp => exact h.store s sz a v hl
  | imm v => exact h.refl s

theorem Closed.writeLoc (h : Closed D A F W R) {sz : Size} {l : Loc} (v : BitVec sz.bits) (s : State)
    (hl : l.Allowed D A W sz) : R s ((Machine.writeLoc sz l v).final s) := by
  unfold Exec.final
  rw [writeLoc_run]
  cases l.writeError sz s
  · exact h.put v s hl
  · exact h.refl s

/-- The address register that evaluating an operand steps is allowed. -/
def EA.Steps (A : List Reg) : EA → Prop
  | .post r | .pre r => r ∈ A
  | _ => True

theorem Closed.evalEA (h : Closed D A F W R) (xp : Long) (sz : Size) (ea : EA) (s : State) (hs : EA.Steps A ea) :
    R s (Machine.evalEA xp sz ea s).2 := by
  cases ea <;> first | exact h.refl s | exact h.setA s _ _ hs

theorem Closed.source (h : Closed D A F W R) (own : Nat) (sz : Size) (ea : EA) (s : State) (hs : EA.Steps A ea) :
    R s ((Machine.source own sz ea).final s) := by
  refine h.bind (h.evalEA _ _ _ _ hs) fun l t ht => ?_
  exact h.readLoc sz l t

/-- A source operand's value and the state after it. -/
theorem source_state {own : Nat} {sz : Size} {ea : EA} {v : BitVec sz.bits} {s t : State} (h : (source own sz ea).run s = .ok v t) :
    t = (evalEA (s.npc (1 + own)) sz ea s).2 ∧ v = (evalEA (s.npc (1 + own)) sz ea s).1.value sz t := by
  unfold source at h
  rw [EStateM.run_bind, run_place] at h
  have := readLoc_state h
  exact ⟨this.1, this.1 ▸ this.2⟩

@[simp] theorem Exec.final_modify (f : State → State) (s : State) : (modify f : Exec Unit).final s = f s := rfl

@[simp] theorem Exec.final_pure {α : Type} (a : α) (s : State) : (pure a : Exec α).final s = s := rfl

@[simp] theorem Exec.final_get (s : State) : (get : Exec State).final s = s := rfl

/-- The rule for an update of the state. -/
theorem Closed.bindModify {β : Type} (h : Closed D A F W R) {f : State → State} {k : Unit → Exec β} {s : State}
    (hf : R s (f s)) (hk : R (f s) ((k ()).final (f s))) : R s ((modify f >>= k).final s) :=
  h.bind hf fun _ _ ht => by cases ht; exact hk

/-- The rule for reading the state. -/
theorem Closed.bindGet {β : Type} (h : Closed D A F W R) {k : State → Exec β} {s : State} (hk : R s ((k s).final s)) :
    R s ((get >>= k).final s) :=
  h.bind (h.refl s) fun _ _ ht => by cases ht; exact hk

/-- The rule for evaluating an operand. -/
theorem Closed.bindPlace {β : Type} (h : Closed D A F W R) {own : Nat} {sz : Size} {ea : EA} {k : Loc → Exec β} {s : State}
    (hs : EA.Steps A ea)
    (hk : R (Machine.evalEA (s.npc (1 + own)) sz ea s).2
      ((k (Machine.evalEA (s.npc (1 + own)) sz ea s).1).final (Machine.evalEA (s.npc (1 + own)) sz ea s).2)) :
    R s ((place own sz ea >>= k).final s) :=
  h.bind (h.evalEA _ _ _ _ hs) fun _ _ ht => by cases ht; exact hk

/-- The rule for reading an operand. -/
theorem Closed.bindReadLoc {β : Type} (h : Closed D A F W R) {sz : Size} {l : Loc} {k : BitVec sz.bits → Exec β} {s : State}
    (hk : R s ((k (l.value sz s)).final s)) : R s ((Machine.readLoc sz l >>= k).final s) :=
  h.bind (h.readLoc sz l s) fun _ _ ht => by
    obtain ⟨rfl, rfl⟩ := readLoc_state ht
    exact hk

/-- The rule for reading memory. -/
theorem Closed.bindReadMem {β : Type} (h : Closed D A F W R) {sz : Size} {sp : Space} {a : Long} {k : BitVec sz.bits → Exec β}
    {s : State} (hk : ∀ v, R s ((k v).final s)) : R s ((Machine.readMem sz sp a >>= k).final s) :=
  h.bind (h.readMem sz sp a s) fun v _ ht => by
    rw [readMem_state ht]
    exact hk v

/-- The rule for fetching words of the instruction stream. -/
theorem Closed.bindCheckFetch {β : Type} (h : Closed D A F W R) {n : Nat} {a : Long} {k : Unit → Exec β} {s : State}
    (hk : R s ((k ()).final s)) : R s ((checkFetch n a >>= k).final s) := by
  rcases checkFetch_run n a s with e | ⟨f, e⟩
  · refine h.bind ?_ fun _ _ ht => ?_
    · rw [Exec.final_of_ok e]
      exact h.refl s
    · rw [e] at ht
      cases ht
      exact hk
  · refine h.bind ?_ fun _ _ ht => ?_
    · rw [Exec.final_of_error e]
      exact h.refl s
    · rw [e] at ht
      cases ht

/-- The rule for writing an operand. -/
theorem Closed.bindWriteLoc {β : Type} (h : Closed D A F W R) {sz : Size} {l : Loc} {v : BitVec sz.bits} {k : Unit → Exec β}
    {s : State} (hl : l.Allowed D A W sz) (hk : R (l.put sz v s) ((k ()).final (l.put sz v s))) :
    R s ((Machine.writeLoc sz l v >>= k).final s) :=
  h.bind (h.writeLoc v s hl) fun _ t ht => by
    rw [writeLoc_run] at ht
    cases he : l.writeError sz s <;> rw [he] at ht <;> cases ht
    exact hk

/-- The rule for writing memory. -/
theorem Closed.bindWriteMem {β : Type} (h : Closed D A F W R) {sz : Size} {a : Long} {v : BitVec sz.bits} {k : Unit → Exec β}
    {s : State} (hw : W sz a)
    (hk : R { s with mem := s.mem.store sz a v } ((k ()).final { s with mem := s.mem.store sz a v })) :
    R s ((Machine.writeMem sz a v >>= k).final s) :=
  h.bind (h.writeMem v s hw) fun _ t ht => by
    rw [writeMem_run] at ht
    cases he : s.accessError .write .data sz.bytes a <;> rw [he] at ht <;> cases ht
    exact hk

/-- The rule for a free value. -/
theorem Closed.bindDraw {β : Type} (h : Closed D A F W R) {n : Nat} {k : BitVec n → Exec β} {s : State}
    (hk : ∀ v, R { s with draws := s.draws + 1 } ((k v).final { s with draws := s.draws + 1 })) :
    R s ((draw n >>= k).final s) :=
  h.bind (h.draws s _) fun v _ ht => by cases ht; exact hk _

/-- The rule for a free flag. -/
theorem Closed.bindDrawFlag {β : Type} (h : Closed D A F W R) {k : Bool → Exec β} {s : State}
    (hk : ∀ v, R { s with draws := s.draws + 1 } ((k v).final { s with draws := s.draws + 1 })) :
    R s ((drawFlag >>= k).final s) :=
  h.bind (h.draws s _) fun v _ ht => by cases ht; exact hk _

/-! ### The shapes of instructions -/

/-- An update of SR's flags, then of `pc`. -/
theorem Closed.flagsAdvance (h : Closed D A F W R) (s : State) (f : StatusReg) (n : Nat) (hf : SameBut F s.sr f) :
    R s ((s.setSr f).advance n) := h.trans _ _ _ (h.setSr s f hf) (h.advance _ n)

theorem Closed.modifyEA (h : Closed D A F W R) {own : Nat} {sz : Size} {ea : EA}
    {op : BitVec sz.bits → StatusReg → Result sz.bits} (s : State) (hs : EA.Steps A ea)
    (hl : (Machine.evalEA (s.npc (1 + own)) sz ea s).1.Allowed D A W sz) (hf : ∀ v f, SameBut F f (op v f).2) :
    R s ((Machine.modifyEA own sz ea op).final s) := by
  unfold Machine.modifyEA
  refine h.bindPlace hs (h.bindReadLoc (h.bindGet (h.bindWriteLoc hl ?_)))
  exact h.flagsAdvance _ _ _ (by simpa using hf _ s.sr)

theorem Closed.testEA (h : Closed D A F W R) {own : Nat} {sz : Size} {ea : EA}
    {op : BitVec sz.bits → StatusReg → StatusReg} (s : State) (hs : EA.Steps A ea) (hf : ∀ v f, SameBut F f (op v f)) :
    R s ((Machine.testEA own sz ea op).final s) := by
  unfold Machine.testEA
  refine h.bind (h.source own sz ea s hs) fun v t _ => ?_
  exact h.flagsAdvance _ _ _ (hf v t.sr)

theorem Closed.sourceToDn (h : Closed D A F W R) {sz : Size} {ea : EA} {r : Reg}
    {op : BitVec sz.bits → BitVec sz.bits → StatusReg → Result sz.bits} (s : State) (hs : EA.Steps A ea) (hr : r ∈ D)
    (hf : ∀ v w f, SameBut F f (op v w f).2) : R s ((Machine.sourceToDn sz ea r op).final s) := by
  unfold Machine.sourceToDn
  refine h.bind (h.source 0 sz ea s hs) fun v t _ => ?_
  exact h.trans _ _ _ (h.setDn t sz r _ hr) (h.flagsAdvance _ _ _ (hf v _ t.sr))

theorem Closed.sourceToAn (h : Closed D A F W R) {sz : Size} {ea : EA} {r : Reg} {op : Long → Long → Long} (s : State)
    (hs : EA.Steps A ea) (hr : r ∈ A) : R s ((Machine.sourceToAn sz ea r op).final s) := by
  unfold Machine.sourceToAn
  refine h.bind (h.source 0 sz ea s hs) fun v t _ => ?_
  exact h.trans _ _ _ (h.setA t r _ hr) (h.advance _ _)

/-! ### Exceptions -/

/-- A relation across a computation that starts, and goes on, in supervisor state. -/
def Exec.Super {α : Type} (R : State → State → Prop) (m : Exec α) : Prop :=
  ∀ s, s.sr.s = true → R s (m.final s) ∧ ∀ a t, m.run s = .ok a t → t.sr.s = true

theorem ClosedTrap.bindSuper {α β : Type} (h : ClosedTrap D A F R) {m : Exec α} {f : α → Exec β} (hm : Exec.Super R m)
    (hf : ∀ a, Exec.Super R (f a)) : Exec.Super R (m >>= f) := by
  intro s hs
  refine ⟨h.toClosed.bind (hm s hs).1 fun a t ht => (hf a t ((hm s hs).2 a t ht)).1, fun b u hu => ?_⟩
  rw [EStateM.run_bind] at hu
  cases hr : m.run s with
  | ok a t =>
    rw [hr] at hu
    exact (hf a t ((hm s hs).2 a t hr)).2 b u hu
  | error e t =>
    rw [hr] at hu
    cases hu

theorem ClosedTrap.push (h : ClosedTrap D A F R) (sz : Size) (v : BitVec sz.bits) : Exec.Super R (Machine.push sz v) := by
  intro s hs
  have hsp : s.setSp (s.sp - BitVec.ofNat 32 sz.bytes) = { s with ssp := s.ssp - BitVec.ofNat 32 sz.bytes } := by
    simp [State.setSp, State.sp, hs]
  refine ⟨?_, fun a t ht => ?_⟩
  · unfold Machine.push
    refine h.toClosed.bindModify (by rw [hsp]; exact h.ssp s _ hs) (h.toClosed.bindGet ?_)
    exact h.toClosed.writeMem v _ trivial
  · simp only [Machine.push, EStateM.run_bind, EStateM.run_modify, EStateM.run_get, writeMem_run] at ht
    split at ht <;> cases ht
    simpa using hs

theorem ClosedTrap.draw (h : ClosedTrap D A F R) (n : Nat) : Exec.Super R (Machine.draw n) := by
  intro s hs
  refine ⟨h.draws s _, fun a t ht => ?_⟩
  cases ht
  exact hs

theorem ClosedTrap.loadVector (h : ClosedTrap D A F R) (v : Nat) : Exec.Super R (Machine.loadVector v) := by
  intro s hs
  refine ⟨?_, fun a t ht => ?_⟩
  · exact h.toClosed.bindReadMem fun a => h.jump s a
  · simp only [Machine.loadVector, EStateM.run_bind, EStateM.run_modify] at ht
    split at ht <;> rename_i hu <;> cases ht
    rw [readMem_state hu]
    exact hs

theorem ClosedTrap.exception (h : ClosedTrap D A F R) (v : Nat) (pc : Long) (s : State) :
    R s ((Machine.exception v pc).final s) := by
  unfold Machine.exception enterException
  refine h.toClosed.bindGet (h.toClosed.bindModify ?_ ?_)
  · exact h.trans _ _ _ (h.enter s) (h.run _ _)
  · exact ((h.bindSuper (h.push .l pc) fun _ => h.bindSuper (h.push .w _) fun _ => h.loadVector v) _ rfl).1

theorem ClosedTrap.abortTo (h : ClosedTrap D A F R) (v : Nat) (s : State) : R s ((Machine.abortTo v).final s) := by
  unfold Machine.abortTo
  exact h.toClosed.bindModify (h.traceOff s) (h.toClosed.bindGet (h.exception v _ _))

theorem ClosedTrap.groupZero (h : ClosedTrap D A F R) (e : AccessError) (s : State) : R s (Machine.groupZero e s) := by
  have : R s ((groupZeroEntry e).final s) := by
    unfold groupZeroEntry
    refine h.toClosed.bindGet (h.toClosed.bindModify ?_ ?_)
    · exact h.trans _ _ _ (h.enter s) (h.trans _ _ _ (h.run _ _) (h.traceOff _))
    · exact ((h.bindSuper (h.draw 32) fun u => h.bindSuper (h.push .l u) fun _ => h.bindSuper (h.push .w _) fun _ =>
        h.bindSuper (h.push .w _) fun _ => h.bindSuper (h.push .l _) fun _ => h.bindSuper (h.draw 32) fun _ =>
        h.bindSuper (h.push .w _) fun _ => h.loadVector _) _ rfl).1
  unfold Exec.final at this
  unfold Machine.groupZero
  cases hr : (groupZeroEntry e).run s with
  | ok a t =>
    rw [hr] at this
    exact this
  | error e t =>
    rw [hr] at this
    exact h.trans _ _ _ this (h.run t _)

/-- An instruction whose computation keeps the relation keeps it, whatever its accesses meet. -/
theorem ClosedTrap.complete (h : ClosedTrap D A F R) {m : Exec Unit} {s : State} (hm : R s (m.final s)) :
    R s (Machine.complete m s) := by
  unfold Exec.final at hm
  unfold Machine.complete
  cases hr : m.run s with
  | ok a t =>
    rw [hr] at hm
    exact hm
  | error e t =>
    rw [hr] at hm
    exact h.trans _ _ _ hm (h.groupZero e t)

theorem ClosedTrap.next (h : ClosedTrap D A F R) {m : Exec Unit} {s t : State} (hm : R s (m.final s))
    (hn : Machine.run m s = .next t) : R s t := by
  cases hn
  exact h.complete hm

end Sys2Proof.Machine
end

