-- ==== Sys2Proof/Laws/Exception.lean ====
section
/-! SUPPORT. What taking an exception does: one lemma per operation of it (`60_exceptions.md` R440 to R443, R452,
R461). -/

namespace Sys2Proof.Machine

/-- The six bytes of a frame with `savedPc` and the status register `f`, below `p` (R441). -/
def Memory.frame (m : Memory) (p savedPc : Long) (f : StatusReg) : Memory :=
  (m.setLong (p - 4) savedPc).setWord (p - 6) f.toWord

/-- The state after an exception entry that changes SR by `enter` (R440). -/
def State.enteredBy (enter : StatusReg → StatusReg) (v : Nat) (savedPc : Long) (s : State) : State :=
  { s with
    ssp := s.ssp - 6
    mem := s.mem.frame s.ssp savedPc s.sr
    sr := enter s.sr
    pc := (s.mem.frame s.ssp savedPc s.sr).long (vectorAddress v)
    prefetch := []
    run := .running }

theorem loadVector_ok {v : Nat} {s : State} (h : s.accessError .read .data Size.l.bytes (vectorAddress v) = none) :
    (loadVector v).run s = .ok () (s.jump (s.mem.long (vectorAddress v))) := by
  simp [loadVector, readMem_ok h, Memory.load]

/-- An exception entry whose six bytes and whose vector answer. -/
theorem enterException_ok {enter : StatusReg → StatusReg} {v : Nat} {savedPc : Long} {s : State}
    (hs : (enter s.sr).s = true)
    (h1 : { s with sr := enter s.sr }.accessError .write .data Size.l.bytes (s.ssp - 4) = none)
    (h2 : { s with sr := enter s.sr }.accessError .write .data Size.w.bytes (s.ssp - 6) = none)
    (h3 : { s with sr := enter s.sr }.accessError .read .data Size.l.bytes (vectorAddress v) = none) :
    (enterException enter v savedPc).run s = .ok () (s.enteredBy enter v savedPc) := by
  let a : State := { s with sr := enter s.sr, run := .running }
  have a1 : a.accessError .write .data Size.l.bytes (a.sp - BitVec.ofNat 32 Size.l.bytes) = none := by
    rw [show a.sp - BitVec.ofNat 32 Size.l.bytes = s.ssp - 4 by simp [a, State.sp, hs]]
    exact (State.accessError_congr (s := { s with sr := enter s.sr }) rfl rfl rfl _ _ _ _).trans h1
  let b : State := { a with ssp := s.ssp - 4, mem := s.mem.setLong (s.ssp - 4) savedPc }
  have ab : (push .l savedPc).run a = .ok () b := by
    rw [push_ok a1]
    simp [a, b, State.sp, State.setSp, hs, Memory.store]
  have b1 : b.accessError .write .data Size.w.bytes (b.sp - BitVec.ofNat 32 Size.w.bytes) = none := by
    rw [show b.sp - BitVec.ofNat 32 Size.w.bytes = s.ssp - 6 by
      simp [b, a, State.sp, hs, BitVec.sub_sub, Size.bytes]]
    exact (State.accessError_congr (s := { s with sr := enter s.sr }) rfl rfl rfl _ _ _ _).trans h2
  let c : State := { b with ssp := s.ssp - 6, mem := s.mem.frame s.ssp savedPc s.sr }
  have bc : (push .w s.sr.toWord).run b = .ok () c := by
    rw [push_ok b1]
    simp [a, b, c, State.sp, State.setSp, hs, Memory.store, Memory.frame, BitVec.sub_sub, Size.bytes]
  have c1 : c.accessError .read .data Size.l.bytes (vectorAddress v) = none :=
    (State.accessError_congr (s := { s with sr := enter s.sr }) rfl rfl rfl _ _ _ _).trans h3
  unfold enterException
  simp only [EStateM.run_bind, EStateM.run_get, EStateM.run_modify]
  rw [ab]
  simp only
  rw [bc]
  exact loadVector_ok c1

/-- An exception instead of an instruction, when its bytes answer. -/
theorem abortTo_ok {v : Nat} {s : State}
    (h1 : { s with sr := s.sr.enter }.accessError .write .data Size.l.bytes (s.ssp - 4) = none)
    (h2 : { s with sr := s.sr.enter }.accessError .write .data Size.w.bytes (s.ssp - 6) = none)
    (h3 : { s with sr := s.sr.enter }.accessError .read .data Size.l.bytes (vectorAddress v) = none) :
    (abortTo v).run s = .ok () ({ s with traceDue := false }.enteredBy StatusReg.enter v s.pc) := by
  unfold abortTo exception
  simp only [EStateM.run_bind, EStateM.run_modify, EStateM.run_get]
  exact enterException_ok rfl
    ((State.accessError_congr (s := { s with sr := s.sr.enter }) rfl rfl rfl _ _ _ _).trans h1)
    ((State.accessError_congr (s := { s with sr := s.sr.enter }) rfl rfl rfl _ _ _ _).trans h2)
    ((State.accessError_congr (s := { s with sr := s.sr.enter }) rfl rfl rfl _ _ _ _).trans h3)

/-- A push in supervisor state, when its bytes answer. -/
theorem push_super {sz : Size} {v : BitVec sz.bits} {s : State} {a : Long} (hs : s.sr.s = true)
    (ha : a = s.ssp - BitVec.ofNat 32 sz.bytes) (h : s.accessError .write .data sz.bytes a = none) :
    (push sz v).run s = .ok () { s with ssp := a, mem := s.mem.store sz a v } := by
  subst ha
  have hsp : s.sp = s.ssp := by simp [State.sp, hs]
  rw [push_ok (by rw [hsp]; exact h)]
  simp [hsp, State.setSp, hs]

/-- A push in supervisor state with an odd stack pointer is an address error. -/
theorem push_odd {sz : Size} {v : BitVec sz.bits} {s : State} (hs : s.sr.s = true) (ho : s.ssp.getLsbD 0 = true)
    (hsz : sz ≠ .b) : ∃ e t, (push sz v).run s = .error e t := by
  have hp : (s.setSp (s.sp - BitVec.ofNat 32 sz.bytes)).sp = s.ssp - BitVec.ofNat 32 sz.bytes := by
    simp [State.sp, State.setSp, hs]
  have ho' : (s.ssp - BitVec.ofNat 32 sz.bytes).getLsbD 0 = true := by
    revert ho
    generalize s.ssp = a
    intro ho
    cases sz
    · exact absurd rfl hsz
    all_goals simp only [BitVec.getLsbD, BitVec.toNat_sub, Size.bytes, BitVec.toNat_ofNat, Nat.testBit_zero, decide_eq_true_eq] at *; omega
  have h2 : 2 ≤ sz.bytes := by cases sz <;> simp_all [Size.bytes]
  unfold push
  simp only [EStateM.run_bind, EStateM.run_modify, EStateM.run_get, hp, writeMem_run]
  rw [State.accessError_of_odd _ _ _ _ _ h2 ho']
  exact ⟨_, _, rfl⟩

/-- The frame of a bus or address error (R443). -/
def Memory.longFrame (m : Memory) (p savedPc : Long) (f : StatusReg) (ir : Word) (addr : Long) (access : Word) : Memory :=
  ((((m.setLong (p - 4) savedPc).setWord (p - 6) f.toWord).setWord (p - 8) ir).setLong (p - 12) addr).setWord (p - 14) access

/-- The frame of a bus or address error, by offsets from its lowest byte. -/
theorem Memory.longFrame_offsets (m : Memory) (p savedPc : Long) (f : StatusReg) (ir : Word) (addr : Long) (access : Word) :
    m.longFrame p savedPc f ir addr access =
      ((((m.setLong (p - 14 + BitVec.ofNat 32 10) savedPc).setWord (p - 14 + BitVec.ofNat 32 8) f.toWord).setWord
        (p - 14 + BitVec.ofNat 32 6) ir).setLong (p - 14 + BitVec.ofNat 32 2) addr).setWord
        (p - 14 + BitVec.ofNat 32 0) access := by
  have off : ∀ j k : Nat, j + k = 14 → p - 14 + BitVec.ofNat 32 j = p - BitVec.ofNat 32 k := by
    intro j k h
    have h' : (14 : Long) = BitVec.ofNat 32 j + BitVec.ofNat 32 k := by rw [← BitVec.ofNat_add, h]; rfl
    rw [h']
    generalize BitVec.ofNat 32 j = a
    generalize BitVec.ofNat 32 k = b
    bv_omega
  rw [off 10 4 rfl, off 8 6 rfl, off 6 8 rfl, off 2 12 rfl, off 0 14 rfl]
  rfl

/-- What the fields of that frame read as (R443). -/
theorem Memory.longFrame_reads {m : Memory} (hm : m.addressable) (p savedPc : Long) (f : StatusReg) (ir : Word) (addr : Long)
    (access : Word) :
    let n := m.longFrame p savedPc f ir addr access
    n.word (p - 14) = access ∧ n.long (p - 14 + 2) = addr ∧ n.word (p - 14 + 6) = ir ∧ n.word (p - 14 + 8) = f.toWord := by
  intro n
  have hn : n = _ := m.longFrame_offsets p savedPc f ir addr access
  rw [hn, show p - 14 = p - 14 + BitVec.ofNat 32 0 by simp]
  generalize p - 14 + BitVec.ofNat 32 0 = q
  rw [show q + BitVec.ofNat 32 0 = q by simp]
  obtain ⟨m1, e1⟩ : ∃ x, x = m.setLong (q + BitVec.ofNat 32 10) savedPc := ⟨_, rfl⟩
  obtain ⟨m2, e2⟩ : ∃ x, x = m1.setWord (q + BitVec.ofNat 32 8) f.toWord := ⟨_, rfl⟩
  obtain ⟨m3, e3⟩ : ∃ x, x = m2.setWord (q + BitVec.ofNat 32 6) ir := ⟨_, rfl⟩
  obtain ⟨m4, e4⟩ : ∃ x, x = m3.setLong (q + BitVec.ofNat 32 2) addr := ⟨_, rfl⟩
  have h1 : m1.addressable := by rw [e1]; simpa [Memory.addressable] using hm
  have h2 : m2.addressable := by rw [e2]; simpa [Memory.addressable] using h1
  have h3 : m3.addressable := by rw [e3]; simpa [Memory.addressable] using h2
  have h4 : m4.addressable := by rw [e4]; simpa [Memory.addressable] using h3
  rw [← e1, ← e2, ← e3, ← e4]
  refine ⟨Memory.word_setWord h4 _ _, ?_, ?_, ?_⟩
  · have := Memory.long_setWord_offset h4 q access 0 2 (by omega) (by omega) (by omega)
    rw [show q + BitVec.ofNat 32 0 = q by simp] at this
    rw [show q + 2 = q + BitVec.ofNat 32 2 from rfl, this, e4, Memory.long_setLong h3]
  · have := Memory.word_setWord_offset h4 q access 0 6 (by omega) (by omega) (by omega)
    rw [show q + BitVec.ofNat 32 0 = q by simp] at this
    rw [show q + 6 = q + BitVec.ofNat 32 6 from rfl, this, e4,
      Memory.word_setLong_offset h3 q addr 2 6 (by omega) (by omega) (by omega), e3, Memory.word_setWord h2]
  · have := Memory.word_setWord_offset h4 q access 0 8 (by omega) (by omega) (by omega)
    rw [show q + BitVec.ofNat 32 0 = q by simp] at this
    rw [show q + 8 = q + BitVec.ofNat 32 8 from rfl, this, e4,
      Memory.word_setLong_offset h3 q addr 2 8 (by omega) (by omega) (by omega), e3,
      Memory.word_setWord_offset h2 q ir 6 8 (by omega) (by omega) (by omega), e2, Memory.word_setWord h1]

/-- That frame changes its fourteen bytes only. -/
theorem Memory.byte_longFrame {m : Memory} (p savedPc : Long) (f : StatusReg) (ir : Word) (addr : Long) (access : Word)
    (b : Long) (h : ¬ m.inRange (p - 14) 14 b) : (m.longFrame p savedPc f ir addr access).byte b = m.byte b := by
  have out : ∀ (n : Memory) (sz : Size) (j : Nat) (v : BitVec sz.bits), n.addrBits = m.addrBits → j + sz.bytes ≤ 14 →
      (n.store sz (p - 14 + BitVec.ofNat 32 j) v).byte b = n.byte b := by
    intro n sz j v hb hj
    refine Memory.byte_store_of_not_inRange _ _ _ _ _ fun ⟨i, hi, hk⟩ => h ⟨j + i, by omega, ?_⟩
    rwa [Memory.key_congr hb, Memory.key_congr hb, BitVec.add_assoc, ← BitVec.ofNat_add] at hk
  rw [Memory.longFrame_offsets]
  refine (out _ .w 0 access ?_ (by decide)).trans ((out _ .l 2 addr ?_ (by decide)).trans ((out _ .w 6 ir ?_ (by decide)).trans
    ((out _ .w 8 f.toWord ?_ (by decide)).trans (out m .l 10 savedPc rfl (by decide))))) <;> simp

/-- The bits of a frame's first word that are given (R443). -/
theorem accessWord_fields (u : Long) (e : AccessError) :
    (accessWord u e).getLsbD 4 = decide (e.kind ≠ .write) ∧ (accessWord u e).getLsbD 3 = decide (e.kind ≠ .fetch) ∧
    (accessWord u e).extractLsb' 0 3 = e.fc := by
  have key : ∀ (a : BitVec 11) (b c : BitVec 1) (d : BitVec 3), (a ++ b ++ c ++ d : BitVec 16).getLsbD 4 = b.getLsbD 0 ∧
      (a ++ b ++ c ++ d : BitVec 16).getLsbD 3 = c.getLsbD 0 ∧ (a ++ b ++ c ++ d : BitVec 16).extractLsb' 0 3 = d := by
    intro a b c d
    have h : ∀ i, (a ++ b ++ c ++ d : BitVec 16).getLsbD i = (a ++ b ++ c ++ d : BitVec (11 + 1 + 1 + 3)).getLsbD i :=
      fun _ => rfl
    refine ⟨?_, ?_, BitVec.eq_of_getLsbD_eq fun i hi => ?_⟩
    · rw [h, BitVec.getLsbD_append, BitVec.getLsbD_append, BitVec.getLsbD_append]
      simp
    · rw [h, BitVec.getLsbD_append, BitVec.getLsbD_append]
      simp
    · rw [BitVec.getLsbD_extractLsb', h, BitVec.getLsbD_append]
      simp [hi]
  unfold accessWord
  refine ⟨?_, ?_, (key _ _ _ _).2.2⟩
  · rw [(key _ _ _ _).1]
    simp
  · rw [(key _ _ _ _).2.1]
    simp

/-- A free value of 32 bits. -/
theorem draw_run (s : State) : (draw 32).run s = .ok (Config.free s.draws) { s with draws := s.draws + 1 } := by
  show EStateM.Result.ok ((Config.free s.draws).setWidth 32) _ = _
  rw [BitVec.setWidth_eq]

/-- The exception entry of a bus or address error whose fourteen bytes and whose vector answer. -/
theorem groupZeroEntry_ok {e : AccessError} {s : State} (ho : s.ssp.getLsbD 0 = false)
    (hw : ∀ i, i < 14 → { s with sr := s.sr.enter }.mapped .write (s.ssp - 14 + BitVec.ofNat 32 i) = true)
    (hv : { s with sr := s.sr.enter }.accessError .read .data Size.l.bytes (vectorAddress e.vector) = none) :
    let m := s.mem.longFrame s.ssp (Config.free s.draws) s.sr s.ir e.address (accessWord (Config.free (s.draws + 1)) e)
    (groupZeroEntry e).run s =
      .ok () { s with ssp := s.ssp - 14, mem := m, sr := s.sr.enter, pc := m.long (vectorAddress e.vector), prefetch := []
                      run := .running, traceDue := false, draws := s.draws + 2 } := by
  intro m
  have acc : ∀ (t : State) (k : Nat) (j : Nat), t.sr = s.sr.enter → t.holes = s.holes →
      t.mem.addrBits = s.mem.addrBits → j % 2 = 0 → j + k ≤ 14 →
      t.accessError .write .data k (s.ssp - 14 + BitVec.ofNat 32 j) = none := by
    intro t k j h1 h2 h3 hj hk
    refine (State.accessError_congr (s := { s with sr := s.sr.enter }) (congrArg _ h1) h2 h3 _ _ _ _).trans ?_
    rw [State.accessError_eq_none_iff]
    constructor
    · intro _
      revert ho
      generalize s.ssp = a
      intro ho
      simp [BitVec.getLsbD, BitVec.toNat_sub, BitVec.toNat_add] at *
      omega
    · intro i hi
      have := hw (j + i) (by omega)
      rwa [BitVec.add_assoc, ← BitVec.ofNat_add]
  have sub : ∀ j : Nat, j ≤ 14 → s.ssp - BitVec.ofNat 32 (14 - j) = s.ssp - 14 + BitVec.ofNat 32 j := by
    intro j hj
    interval_cases j <;> bv_omega
  let s0 : State := { s with sr := s.sr.enter, run := .running, traceDue := false }
  let s1 : State := { s0 with draws := s.draws + 1 }
  let s2 : State := { s1 with ssp := s.ssp - 4, mem := s.mem.setLong (s.ssp - 4) (Config.free s.draws) }
  let s3 : State := { s2 with ssp := s.ssp - 6, mem := s2.mem.setWord (s.ssp - 6) s.sr.toWord }
  let s4 : State := { s3 with ssp := s.ssp - 8, mem := s3.mem.setWord (s.ssp - 8) s.ir }
  let s5 : State := { s4 with ssp := s.ssp - 12, mem := s4.mem.setLong (s.ssp - 12) e.address }
  let s6 : State := { s5 with draws := s5.draws + 1 }
  let s7 : State := { s6 with ssp := s.ssp - 14, mem := s6.mem.setWord (s.ssp - 14) (accessWord (Config.free (s.draws + 1)) e) }
  have b2 : s2.mem.addrBits = s.mem.addrBits := Memory.setLong_addrBits _ _ _
  have b3 : s3.mem.addrBits = s.mem.addrBits := (Memory.setWord_addrBits _ _ _).trans b2
  have b4 : s4.mem.addrBits = s.mem.addrBits := (Memory.setWord_addrBits _ _ _).trans b3
  have b5 : s5.mem.addrBits = s.mem.addrBits := (Memory.setLong_addrBits _ _ _).trans b4
  have b7 : s7.mem.addrBits = s.mem.addrBits := (Memory.setWord_addrBits _ _ _).trans b5
  have d1 : (draw 32).run s0 = .ok (Config.free s.draws) s1 := draw_run s0
  have p1 : (push .l (Config.free s.draws)).run s1 = .ok () s2 := by
    apply push_super rfl
    · simp [s1, s0, Size.bytes]
    · exact sub 10 (by omega) ▸ acc s1 4 10 rfl rfl rfl rfl (by omega)
  have p2 : (push .w s.sr.toWord).run s2 = .ok () s3 := by
    apply push_super rfl
    · simp [s2, BitVec.sub_sub, Size.bytes]
    · exact sub 8 (by omega) ▸ acc s2 2 8 rfl rfl b2 rfl (by omega)
  have p3 : (push .w s.ir).run s3 = .ok () s4 := by
    apply push_super rfl
    · simp [s3, BitVec.sub_sub, Size.bytes]
    · exact sub 6 (by omega) ▸ acc s3 2 6 rfl rfl b3 rfl (by omega)
  have p4 : (push .l e.address).run s4 = .ok () s5 := by
    apply push_super rfl
    · simp [s4, BitVec.sub_sub, Size.bytes]
    · exact sub 2 (by omega) ▸ acc s4 4 2 rfl rfl b4 rfl (by omega)
  have d2 : (draw 32).run s5 = .ok (Config.free (s.draws + 1)) s6 := draw_run s5
  have p5 : (push .w (accessWord (Config.free (s.draws + 1)) e)).run s6 = .ok () s7 := by
    apply push_super rfl
    · simp [s6, s5, BitVec.sub_sub, Size.bytes]
    · exact sub 0 (by omega) ▸ acc s6 2 0 rfl rfl b5 rfl (by omega)
  have v1 : s7.accessError .read .data Size.l.bytes (vectorAddress e.vector) = none :=
    (State.accessError_congr (t := s7) (s := { s with sr := s.sr.enter }) rfl rfl b7 _ _ _ _).trans hv
  unfold groupZeroEntry
  simp only [EStateM.run_bind, EStateM.run_get, EStateM.run_modify]
  rw [show (draw 32).run _ = _ from d1]
  simp only
  rw [p1]
  simp only
  rw [p2]
  simp only
  rw [p3]
  simp only
  rw [p4]
  simp only
  rw [d2]
  simp only
  rw [p5]
  exact loadVector_ok v1

/-- With an odd supervisor stack pointer the exception of a bus or address error meets another: the processor halts
(R452). -/
theorem groupZero_odd {e : AccessError} {s : State} (ho : s.ssp.getLsbD 0 = true) : (groupZero e s).run = .halted := by
  let s1 : State := { s with sr := s.sr.enter, run := .running, traceDue := false, draws := s.draws + 1 }
  have d1 : (draw 32).run { s with sr := s.sr.enter, run := .running, traceDue := false } = .ok (Config.free s.draws) s1 := draw_run _
  obtain ⟨f, t, h⟩ := push_odd (sz := .l) (v := Config.free s.draws) (s := s1) rfl ho (by decide)
  have : (groupZeroEntry e).run s = .error f t := by
    unfold groupZeroEntry
    simp only [EStateM.run_bind, EStateM.run_get, EStateM.run_modify]
    rw [d1]
    simp only
    rw [h]
  simp [groupZero, this]

theorem loadVector_inv {v : Nat} {s t : State} {u : Unit} (h : (loadVector v).run s = .ok u t) :
    s.accessError .read .data Size.l.bytes (vectorAddress v) = none := by
  unfold loadVector at h
  rw [EStateM.run_bind, readMem_run] at h
  cases ha : s.accessError .read .data Size.l.bytes (vectorAddress v) with
  | none => rfl
  | some e =>
    rw [ha] at h
    cases h

/-- What a push that answers says: its bytes answer, the stack pointer has moved, and what decides which accesses are
answered is as before. -/
theorem push_inv {sz : Size} {v : BitVec sz.bits} {s t : State} {u : Unit} (hs : s.sr.s = true)
    (h : (push sz v).run s = .ok u t) :
    s.accessError .write .data sz.bytes (s.ssp - BitVec.ofNat 32 sz.bytes) = none ∧
    t.ssp = s.ssp - BitVec.ofNat 32 sz.bytes ∧ t.sr = s.sr ∧ t.holes = s.holes ∧ t.mem.addrBits = s.mem.addrBits := by
  cases ha : s.accessError .write .data sz.bytes (s.ssp - BitVec.ofNat 32 sz.bytes) with
  | none =>
    rw [push_super hs rfl ha] at h
    cases h
    exact ⟨rfl, rfl, rfl, rfl, Memory.store_addrBits _ _ _ _⟩
  | some e =>
    have hp : (s.setSp (s.sp - BitVec.ofNat 32 sz.bytes)).sp = s.ssp - BitVec.ofNat 32 sz.bytes := by
      simp [State.sp, State.setSp, hs]
    have ha' := (State.accessError_congr (t := s.setSp (s.sp - BitVec.ofNat 32 sz.bytes)) (s := s) (by simp) (by simp)
      (by simp) .write .data sz.bytes (s.ssp - BitVec.ofNat 32 sz.bytes)).trans ha
    unfold push at h
    simp only [EStateM.run_bind, EStateM.run_modify, EStateM.run_get, hp, writeMem_run, ha'] at h
    cases h

/-- The exception entry of a bus or address error that meets no other: SSP is even, and the fourteen bytes and the vector
answer (R443, R452). -/
theorem groupZeroEntry_inv {e : AccessError} {s t : State} {u : Unit} (h : (groupZeroEntry e).run s = .ok u t) :
    s.ssp.getLsbD 0 = false ∧
    (∀ i, i < 14 → { s with sr := s.sr.enter }.mapped .write (s.ssp - 14 + BitVec.ofNat 32 i) = true) ∧
    { s with sr := s.sr.enter }.accessError .read .data Size.l.bytes (vectorAddress e.vector) = none := by
  have word : ∀ (t : State) (k j : Nat) (a : Long), t.accessError .write .data k a = none →
      t.sr = s.sr.enter → t.holes = s.holes → t.mem.addrBits = s.mem.addrBits → a = s.ssp - 14 + BitVec.ofNat 32 j →
      ∀ i, j ≤ i → i < j + k → { s with sr := s.sr.enter }.mapped .write (s.ssp - 14 + BitVec.ofNat 32 i) = true := by
    intro t k j a h4 h1 h2 h3 h5 i hj hi
    rw [State.accessError_congr (t := t) (s := { s with sr := s.sr.enter }) (congrArg _ h1) h2 h3,
      State.accessError_eq_none_iff] at h4
    have := h4.2 (i - j) (by omega)
    rwa [h5, BitVec.add_assoc, ← BitVec.ofNat_add, Nat.add_sub_cancel' hj] at this
  unfold groupZeroEntry at h
  simp only [EStateM.run_bind, EStateM.run_get, EStateM.run_modify, draw_run] at h
  split at h <;> [skip; cases h]
  rename_i x1 s1 p1
  split at h <;> [skip; cases h]
  rename_i x2 s2 p2
  split at h <;> [skip; cases h]
  rename_i x3 s3 p3
  split at h <;> [skip; cases h]
  rename_i x4 s4 p4
  split at h <;> [skip; cases h]
  rename_i x5 s5 p5
  obtain ⟨a1, q1, r1, l1, b1⟩ := push_inv rfl p1
  obtain ⟨a2, q2, r2, l2, b2⟩ := push_inv (by rw [r1]; rfl) p2
  obtain ⟨a3, q3, r3, l3, b3⟩ := push_inv (by rw [r2, r1]; rfl) p3
  obtain ⟨a4, q4, r4, l4, b4⟩ := push_inv (by rw [r3, r2, r1]; rfl) p4
  obtain ⟨a5, q5, r5, l5, b5⟩ := push_inv (by simp only [r4, r3, r2, r1]; rfl) p5
  simp only at q1 r1 l1 b1 q5 r5 l5 b5
  have e1 := word _ 4 10 _ a1 rfl rfl rfl (by simp only [Size.bytes]; bv_omega)
  have e2 := word _ 2 8 _ a2 r1 l1 b1 (by simp only [q1, Size.bytes]; bv_omega)
  have e3 := word _ 2 6 _ a3 (r2.trans r1) (l2.trans l1) (b2.trans b1) (by simp only [q2, q1, Size.bytes]; bv_omega)
  have e4 := word _ 4 2 _ a4 (r3.trans (r2.trans r1)) (l3.trans (l2.trans l1)) (b3.trans (b2.trans b1))
    (by simp only [q3, q2, q1, Size.bytes]; bv_omega)
  have e5 := word _ 2 0 _ a5 (r4.trans (r3.trans (r2.trans r1))) (l4.trans (l3.trans (l2.trans l1)))
    (b4.trans (b3.trans (b2.trans b1))) (by simp only [q4, q3, q2, q1, Size.bytes]; bv_omega)
  refine ⟨?_, fun i hi => ?_, ?_⟩
  · have := ((State.accessError_eq_none_iff _ _ _ _ _).1 a1).1 (by decide)
    simp [Size.bytes, BitVec.getLsbD, BitVec.toNat_sub] at this ⊢
    omega
  · rcases (by omega : i < 2 ∨ (2 ≤ i ∧ i < 6) ∨ (6 ≤ i ∧ i < 8) ∨ (8 ≤ i ∧ i < 10) ∨ (10 ≤ i ∧ i < 14)) with h | h | h | h | h
    · exact e5 i (by omega) h
    · exact e4 i h.1 h.2
    · exact e3 i h.1 h.2
    · exact e2 i h.1 h.2
    · exact e1 i h.1 h.2
  · have sr5 : s5.sr = s.sr.enter := r5.trans (r4.trans (r3.trans (r2.trans r1)))
    exact (State.accessError_congr (t := s5) (s := { s with sr := s.sr.enter }) (congrArg _ sr5)
      (l5.trans (l4.trans (l3.trans (l2.trans l1)))) (b5.trans (b4.trans (b3.trans (b2.trans b1)))) _ _ _ _).symm.trans
      (loadVector_inv h)

end Sys2Proof.Machine
end

