-- ==== Sys2Proof/Laws/Fetch.lean ====
section
/-! SUPPORT. What fetching an instruction does (`20_memory.md` R78, R92, `10_state.md` R48). -/

namespace Sys2Proof.Machine

/-- Every word of the prefetch queue is the word memory holds at its address. -/
abbrev State.queueCurrent (s : State) : Prop := ∀ p ∈ s.prefetch, p.2 = s.mem.word p.1

theorem State.queued_eq {s : State} (h : s.queueCurrent) (a : Long) : s.queued a = none ∨ s.queued a = some (s.mem.word a) := by
  unfold State.queued
  cases hf : s.prefetch.find? fun p => p.1 == a with
  | none => exact .inl rfl
  | some p =>
    have h1 := h p (List.mem_of_find?_eq_some hf)
    have h2 : p.1 = a := by simpa using List.find?_some hf
    right
    rw [← h2, ← h1]
    rfl

/-- What a fetch of one word answers: the queue's word where it agrees with memory, memory's where the queue has none, and
one of the two where they differ (R92). -/
theorem streamWord_run (a : Long) (s : State) :
    (streamWord a).run s = match s.queued a with
      | none => .ok (s.mem.word a) s
      | some w =>
        if w = s.mem.word a then .ok w s
        else .ok (if (Config.free s.draws).getLsbD 0 then w else s.mem.word a) { s with draws := s.draws + 1 } := rfl

theorem streamWord_current {s : State} (h : s.queueCurrent) (a : Long) : (streamWord a).run s = .ok (s.mem.word a) s := by
  rw [streamWord_run]
  rcases State.queued_eq h a with e | e
  · rw [e]
  · rw [e]
    exact if_pos rfl

theorem streamWords_current {s : State} (h : s.queueCurrent) (n : Nat) (a : Long) :
    (streamWords n a).run s = .ok ((List.range n).map fun k => s.mem.word (a + BitVec.ofNat 32 (2 * k))) s := by
  induction n generalizing a with
  | zero => rfl
  | succ n ih =>
    have hmap : ∀ k, a + 2 + BitVec.ofNat 32 (2 * k) = a + BitVec.ofNat 32 (2 * (k + 1)) := by
      intro k
      rw [BitVec.add_assoc, Nat.mul_add, Nat.mul_one, Nat.add_comm, BitVec.ofNat_add]
      rfl
    simp [streamWords, streamWord_current h, ih, List.range_succ_eq_map]
    intro k _
    rw [← hmap k]
    rfl

/-- The state after a fetch whose words answer and whose queue agrees with memory. -/
def State.afterFetch (i : Instr) (s : State) : State :=
  { s with
    ir := s.mem.word s.pc
    traceDue := s.sr.t
    prefetch := [s.npc i.words, s.npc i.words + 2].map fun a => (a, s.mem.word a) }

/-- The words at `pc`, as many as the longest instruction has. -/
def State.streamAt (s : State) : List Word := (List.range maxWords).map fun k => s.mem.word (s.pc + BitVec.ofNat 32 (2 * k))

theorem readAhead_current {s : State} (h : s.queueCurrent) (a : Long) :
    (readAhead a).run s = .ok (a, s.mem.word a) s := by
  unfold readAhead
  rw [EStateM.run_bind, streamWord_current h]
  rfl

theorem fetch_ok {s : State} {i : Instr} {rest : List Word} (hq : s.queueCurrent) (hpc : s.pc.getLsbD 0 = false)
    (hm : ∀ a, s.mapped .fetch a = true) (hd : decodeWords s.streamAt = .ok (i, rest)) :
    fetch.run s = .ok (some i) (s.afterFetch i) := by
  have hc : ∀ n (t : State), t.sr = s.sr → t.holes = s.holes → t.mem = s.mem → (checkFetch n s.pc).run t = .ok () t := by
    intro n t h1 h2 h3
    exact checkFetch_ok hpc fun j _ => (State.mapped_congr (by rw [h1]) h2 (by rw [h3]) _ _).trans (hm _)
  have hs := streamWords_current hq maxWords s.pc
  unfold fetch
  rw [EStateM.run_bind, EStateM.run_get]
  simp only
  rw [EStateM.run_bind, hc 1 s rfl rfl rfl]
  simp only
  rw [EStateM.run_bind, hs]
  simp only
  rw [EStateM.run_bind, EStateM.run_modify]
  simp only
  rw [show (List.range maxWords).map (fun k => s.mem.word (s.pc + BitVec.ofNat 32 (2 * k))) = s.streamAt from rfl, hd]
  have h0 : s.streamAt.headD 0 = s.mem.word s.pc := by simp [State.streamAt, maxWords, List.range_succ_eq_map]
  rw [h0]
  let t : State := { s with ir := s.mem.word s.pc, traceDue := s.sr.t }
  simp only
  rw [EStateM.run_bind, EStateM.run_get]
  simp only
  rw [EStateM.run_bind, hc _ t rfl rfl rfl]
  simp only
  have hr : ∀ a, (readAhead a).run t = .ok (a, t.mem.word a) t := readAhead_current (s := t) hq
  rw [EStateM.run_bind, EStateM.run_get]
  simp only
  rw [EStateM.run_bind, hr]
  simp only
  rw [EStateM.run_bind, hr]
  simp only
  rw [EStateM.run_bind, EStateM.run_modify]
  rfl

theorem fetch_illegal {s : State} {e : Reject} (hq : s.queueCurrent) (hpc : s.pc.getLsbD 0 = false)
    (hm : ∀ a, s.mapped .fetch a = true) (hd : decodeWords s.streamAt = .error e) :
    fetch.run s = .ok none { s with ir := s.mem.word s.pc, traceDue := s.sr.t } := by
  have hs := streamWords_current hq maxWords s.pc
  unfold fetch
  rw [EStateM.run_bind, EStateM.run_get]
  simp only
  rw [EStateM.run_bind, checkFetch_ok hpc fun j _ => hm _]
  simp only
  rw [EStateM.run_bind, hs]
  simp only
  rw [EStateM.run_bind, EStateM.run_modify]
  simp only
  rw [show (List.range maxWords).map (fun k => s.mem.word (s.pc + BitVec.ofNat 32 (2 * k))) = s.streamAt from rfl, hd]
  have h0 : s.streamAt.headD 0 = s.mem.word s.pc := by simp [State.streamAt, maxWords, List.range_succ_eq_map]
  rw [h0]
  rfl

end Sys2Proof.Machine
end

