-- ==== Sys2Proof/Laws/PerInstr.lean ====
section
/-! SUPPORT. Laws stated per instruction. `Length`: the encoder writes as many words as the instruction is long, and no
instruction is longer than five words (`30_encoding.md` R110, R118). -/

namespace Sys2Proof.Laws.Length

/-- The encoding of an instruction has the instruction's length, at most five words (R110, R118). -/
def Statement (i : Instr) : Prop := (encode i).length = i.words ∧ i.words ≤ maxWords

theorem immExt_length (sz : Size) (v : Long) : (immExt sz v).length = immWords sz := by cases sz <;> rfl

theorem ext_length (sz : Size) (ea : EA) : (ea.ext sz).length = ea.words sz := by
  cases ea <;> first | rfl | exact immExt_length _ _

theorem immWords_le (sz : Size) : immWords sz ≤ 2 := by cases sz <;> decide

theorem words_le (sz : Size) (ea : EA) : ea.words sz ≤ 2 := by
  cases ea <;> first | exact immWords_le sz | simp [EA.words]

/-- An instruction of an operation word, own words and one operand. -/
theorem of_ea {i : Instr} (line : BitVec 4) (r9 op : BitVec 3) (own : List Word) (sz : Size) (ea : EA)
    (he : encode i = encEA line r9 op own sz ea) (hw : i.words = 1 + own.length + ea.words sz) (ho : own.length ≤ 2) :
    Statement i := by
  have := words_le sz ea
  refine ⟨?_, by rw [hw, maxWords]; omega⟩
  rw [he, hw]
  simp only [encEA, List.length_cons, List.length_append, ext_length]
  omega

/-- An instruction with an immediate and one operand. -/
theorem of_imm {i : Instr} (line : BitVec 4) (r9 op : BitVec 3) (sz : Size) (v : Long) (ea : EA)
    (he : encode i = encEA line r9 op (immExt sz v) sz ea) (hw : i.words = 1 + immWords sz + ea.words sz) : Statement i :=
  of_ea line r9 op (immExt sz v) sz ea he (by rw [hw, immExt_length]) (by rw [immExt_length]; exact immWords_le sz)

/-- A MOVE, with two operands. -/
theorem of_move {i : Instr} (line : BitVec 4) (sz : Size) (src dst : EA) (he : encode i = encMove line sz src dst)
    (hw : i.words = 1 + 0 + (src.words sz + dst.words sz)) : Statement i := by
  have h1 := words_le sz src
  have h2 := words_le sz dst
  refine ⟨?_, by rw [hw, maxWords]; omega⟩
  rw [he, hw]
  simp only [encMove, List.length_cons, List.length_append, ext_length]
  omega

/-- A branch. -/
theorem of_branch {i : Instr} (c : Cond) (d : Disp) (he : encode i = encBranch c d) (hw : i.words = 1 + d.words + 0) :
    Statement i := by
  unfold Statement
  rw [he, hw]
  cases d <;> exact ⟨rfl, by simp [Disp.words, maxWords]⟩

/-- A register shift. -/
theorem of_shift {i : Instr} (tt : BitVec 2) (d : BitVec 1) (sz : Size) (c : ShiftCount) (r : Reg)
    (he : encode i = encShift tt d sz c r) (hw : i.words = 1) : Statement i := by
  unfold Statement
  rw [he, hw]
  cases c <;> exact ⟨rfl, by decide⟩

theorem ori (sz : Size) (v : Long) (ea : EA) : Statement (.ori sz v ea) := of_imm _ _ _ _ _ _ rfl rfl
theorem andi (sz : Size) (v : Long) (ea : EA) : Statement (.andi sz v ea) := of_imm _ _ _ _ _ _ rfl rfl
theorem subi (sz : Size) (v : Long) (ea : EA) : Statement (.subi sz v ea) := of_imm _ _ _ _ _ _ rfl rfl
theorem addi (sz : Size) (v : Long) (ea : EA) : Statement (.addi sz v ea) := of_imm _ _ _ _ _ _ rfl rfl
theorem eori (sz : Size) (v : Long) (ea : EA) : Statement (.eori sz v ea) := of_imm _ _ _ _ _ _ rfl rfl
theorem cmpi (sz : Size) (v : Long) (ea : EA) : Statement (.cmpi sz v ea) := of_imm _ _ _ _ _ _ rfl rfl
theorem btst (n : Byte) (ea : EA) : Statement (.btst n ea) := of_ea _ _ _ _ _ _ rfl rfl (Nat.le_succ 1)
theorem bchg (n : Byte) (ea : EA) : Statement (.bchg n ea) := of_ea _ _ _ _ _ _ rfl rfl (Nat.le_succ 1)
theorem bclr (n : Byte) (ea : EA) : Statement (.bclr n ea) := of_ea _ _ _ _ _ _ rfl rfl (Nat.le_succ 1)
theorem bset (n : Byte) (ea : EA) : Statement (.bset n ea) := of_ea _ _ _ _ _ _ rfl rfl (Nat.le_succ 1)
theorem btstDn (d : Reg) (ea : EA) : Statement (.btstDn d ea) := of_ea _ _ _ _ _ _ rfl rfl (Nat.le_of_ble_eq_true rfl)
theorem bchgDn (d : Reg) (ea : EA) : Statement (.bchgDn d ea) := of_ea _ _ _ _ _ _ rfl rfl (Nat.le_of_ble_eq_true rfl)
theorem bclrDn (d : Reg) (ea : EA) : Statement (.bclrDn d ea) := of_ea _ _ _ _ _ _ rfl rfl (Nat.le_of_ble_eq_true rfl)
theorem bsetDn (d : Reg) (ea : EA) : Statement (.bsetDn d ea) := of_ea _ _ _ _ _ _ rfl rfl (Nat.le_of_ble_eq_true rfl)
theorem movep (toMem long : Bool) (d a : Reg) (disp : Word) : Statement (.movep toMem long d a disp) := ⟨rfl, Nat.le_of_ble_eq_true rfl⟩
theorem oriToCcr (v : Word) : Statement (.oriToCcr v) := ⟨rfl, Nat.le_of_ble_eq_true rfl⟩
theorem oriToSr (v : Word) : Statement (.oriToSr v) := ⟨rfl, Nat.le_of_ble_eq_true rfl⟩
theorem andiToCcr (v : Word) : Statement (.andiToCcr v) := ⟨rfl, Nat.le_of_ble_eq_true rfl⟩
theorem andiToSr (v : Word) : Statement (.andiToSr v) := ⟨rfl, Nat.le_of_ble_eq_true rfl⟩
theorem eoriToCcr (v : Word) : Statement (.eoriToCcr v) := ⟨rfl, Nat.le_of_ble_eq_true rfl⟩
theorem eoriToSr (v : Word) : Statement (.eoriToSr v) := ⟨rfl, Nat.le_of_ble_eq_true rfl⟩
theorem moveB (src dst : EA) : Statement (.moveB src dst) := of_move _ _ _ _ rfl rfl
theorem moveW (src dst : EA) : Statement (.moveW src dst) := of_move _ _ _ _ rfl rfl
theorem moveaW (src : EA) (a : Reg) : Statement (.moveaW src a) := of_ea _ _ _ _ _ _ rfl rfl (Nat.le_of_ble_eq_true rfl)
theorem moveL (src dst : EA) : Statement (.moveL src dst) := of_move _ _ _ _ rfl rfl
theorem moveaL (src : EA) (a : Reg) : Statement (.moveaL src a) := of_ea _ _ _ _ _ _ rfl rfl (Nat.le_of_ble_eq_true rfl)
theorem negx (sz : Size) (ea : EA) : Statement (.negx sz ea) := of_ea _ _ _ _ _ _ rfl rfl (Nat.le_of_ble_eq_true rfl)
theorem clr (sz : Size) (ea : EA) : Statement (.clr sz ea) := of_ea _ _ _ _ _ _ rfl rfl (Nat.le_of_ble_eq_true rfl)
theorem neg (sz : Size) (ea : EA) : Statement (.neg sz ea) := of_ea _ _ _ _ _ _ rfl rfl (Nat.le_of_ble_eq_true rfl)
theorem not (sz : Size) (ea : EA) : Statement (.not sz ea) := of_ea _ _ _ _ _ _ rfl rfl (Nat.le_of_ble_eq_true rfl)
theorem tst (sz : Size) (ea : EA) : Statement (.tst sz ea) := of_ea _ _ _ _ _ _ rfl rfl (Nat.le_of_ble_eq_true rfl)
theorem moveFromSr (ea : EA) : Statement (.moveFromSr ea) := of_ea _ _ _ _ _ _ rfl rfl (Nat.le_of_ble_eq_true rfl)
theorem moveToCcr (ea : EA) : Statement (.moveToCcr ea) := of_ea _ _ _ _ _ _ rfl rfl (Nat.le_of_ble_eq_true rfl)
theorem moveToSr (ea : EA) : Statement (.moveToSr ea) := of_ea _ _ _ _ _ _ rfl rfl (Nat.le_of_ble_eq_true rfl)
theorem nbcd (ea : EA) : Statement (.nbcd ea) := of_ea _ _ _ _ _ _ rfl rfl (Nat.le_of_ble_eq_true rfl)
theorem swap (r : Reg) : Statement (.swap r) := ⟨rfl, Nat.le_of_ble_eq_true rfl⟩
theorem pea (ea : EA) : Statement (.pea ea) := of_ea _ _ _ _ _ _ rfl rfl (Nat.le_of_ble_eq_true rfl)
theorem extW (r : Reg) : Statement (.extW r) := ⟨rfl, Nat.le_of_ble_eq_true rfl⟩
theorem extL (r : Reg) : Statement (.extL r) := ⟨rfl, Nat.le_of_ble_eq_true rfl⟩
theorem movemToMem (long : Bool) (mask : Word) (ea : EA) : Statement (.movemToMem long mask ea) := of_ea _ _ _ _ _ _ rfl rfl (Nat.le_succ 1)
theorem movemToRegs (long : Bool) (mask : Word) (ea : EA) : Statement (.movemToRegs long mask ea) := of_ea _ _ _ _ _ _ rfl rfl (Nat.le_succ 1)
theorem tas (ea : EA) : Statement (.tas ea) := of_ea _ _ _ _ _ _ rfl rfl (Nat.le_of_ble_eq_true rfl)
theorem illegal : Statement (.illegal) := ⟨rfl, Nat.le_of_ble_eq_true rfl⟩
theorem trap (v : BitVec 4) : Statement (.trap v) := ⟨rfl, Nat.le_of_ble_eq_true rfl⟩
theorem link (r : Reg) (d : Word) : Statement (.link r d) := ⟨rfl, Nat.le_of_ble_eq_true rfl⟩
theorem unlk (r : Reg) : Statement (.unlk r) := ⟨rfl, Nat.le_of_ble_eq_true rfl⟩
theorem moveUsp (toReg : Bool) (r : Reg) : Statement (.moveUsp toReg r) := ⟨rfl, Nat.le_of_ble_eq_true rfl⟩
theorem reset : Statement (.reset) := ⟨rfl, Nat.le_of_ble_eq_true rfl⟩
theorem nop : Statement (.nop) := ⟨rfl, Nat.le_of_ble_eq_true rfl⟩
theorem stop (v : Word) : Statement (.stop v) := ⟨rfl, Nat.le_of_ble_eq_true rfl⟩
theorem rte : Statement (.rte) := ⟨rfl, Nat.le_of_ble_eq_true rfl⟩
theorem rts : Statement (.rts) := ⟨rfl, Nat.le_of_ble_eq_true rfl⟩
theorem trapv : Statement (.trapv) := ⟨rfl, Nat.le_of_ble_eq_true rfl⟩
theorem rtr : Statement (.rtr) := ⟨rfl, Nat.le_of_ble_eq_true rfl⟩
theorem jsr (ea : EA) : Statement (.jsr ea) := of_ea _ _ _ _ _ _ rfl rfl (Nat.le_of_ble_eq_true rfl)
theorem jmp (ea : EA) : Statement (.jmp ea) := of_ea _ _ _ _ _ _ rfl rfl (Nat.le_of_ble_eq_true rfl)
theorem lea (ea : EA) (a : Reg) : Statement (.lea ea a) := of_ea _ _ _ _ _ _ rfl rfl (Nat.le_of_ble_eq_true rfl)
theorem chk (ea : EA) (d : Reg) : Statement (.chk ea d) := of_ea _ _ _ _ _ _ rfl rfl (Nat.le_of_ble_eq_true rfl)
theorem addq (sz : Size) (q : BitVec 3) (ea : EA) : Statement (.addq sz q ea) := of_ea _ _ _ _ _ _ rfl rfl (Nat.le_of_ble_eq_true rfl)
theorem subq (sz : Size) (q : BitVec 3) (ea : EA) : Statement (.subq sz q ea) := of_ea _ _ _ _ _ _ rfl rfl (Nat.le_of_ble_eq_true rfl)
theorem scc (c : Cond) (ea : EA) : Statement (.scc c ea) := of_ea _ _ _ _ _ _ rfl rfl (Nat.le_of_ble_eq_true rfl)
theorem dbcc (c : Cond) (r : Reg) (d : Word) : Statement (.dbcc c r d) := ⟨rfl, Nat.le_of_ble_eq_true rfl⟩
theorem bra (d : Disp) : Statement (.bra d) := of_branch _ _ rfl rfl
theorem bsr (d : Disp) : Statement (.bsr d) := of_branch _ _ rfl rfl
theorem bcc (c : Cond) (d : Disp) : Statement (.bcc c d) := of_branch _ _ rfl rfl
theorem moveq (v : Byte) (r : Reg) : Statement (.moveq v r) := ⟨rfl, Nat.le_of_ble_eq_true rfl⟩
theorem orEaDn (sz : Size) (ea : EA) (d : Reg) : Statement (.orEaDn sz ea d) := of_ea _ _ _ _ _ _ rfl rfl (Nat.le_of_ble_eq_true rfl)
theorem orDnEa (sz : Size) (d : Reg) (ea : EA) : Statement (.orDnEa sz d ea) := of_ea _ _ _ _ _ _ rfl rfl (Nat.le_of_ble_eq_true rfl)
theorem divu (ea : EA) (d : Reg) : Statement (.divu ea d) := of_ea _ _ _ _ _ _ rfl rfl (Nat.le_of_ble_eq_true rfl)
theorem divs (ea : EA) (d : Reg) : Statement (.divs ea d) := of_ea _ _ _ _ _ _ rfl rfl (Nat.le_of_ble_eq_true rfl)
theorem sbcd (mem : Bool) (y x : Reg) : Statement (.sbcd mem y x) := ⟨rfl, Nat.le_of_ble_eq_true rfl⟩
theorem subEaDn (sz : Size) (ea : EA) (d : Reg) : Statement (.subEaDn sz ea d) := of_ea _ _ _ _ _ _ rfl rfl (Nat.le_of_ble_eq_true rfl)
theorem subDnEa (sz : Size) (d : Reg) (ea : EA) : Statement (.subDnEa sz d ea) := of_ea _ _ _ _ _ _ rfl rfl (Nat.le_of_ble_eq_true rfl)
theorem suba (long : Bool) (ea : EA) (a : Reg) : Statement (.suba long ea a) := of_ea _ _ _ _ _ _ rfl rfl (Nat.le_of_ble_eq_true rfl)
theorem subx (sz : Size) (mem : Bool) (y x : Reg) : Statement (.subx sz mem y x) := ⟨rfl, Nat.le_of_ble_eq_true rfl⟩
theorem cmp (sz : Size) (ea : EA) (d : Reg) : Statement (.cmp sz ea d) := of_ea _ _ _ _ _ _ rfl rfl (Nat.le_of_ble_eq_true rfl)
theorem cmpa (long : Bool) (ea : EA) (a : Reg) : Statement (.cmpa long ea a) := of_ea _ _ _ _ _ _ rfl rfl (Nat.le_of_ble_eq_true rfl)
theorem eor (sz : Size) (d : Reg) (ea : EA) : Statement (.eor sz d ea) := of_ea _ _ _ _ _ _ rfl rfl (Nat.le_of_ble_eq_true rfl)
theorem cmpm (sz : Size) (y x : Reg) : Statement (.cmpm sz y x) := ⟨rfl, Nat.le_of_ble_eq_true rfl⟩
theorem andEaDn (sz : Size) (ea : EA) (d : Reg) : Statement (.andEaDn sz ea d) := of_ea _ _ _ _ _ _ rfl rfl (Nat.le_of_ble_eq_true rfl)
theorem andDnEa (sz : Size) (d : Reg) (ea : EA) : Statement (.andDnEa sz d ea) := of_ea _ _ _ _ _ _ rfl rfl (Nat.le_of_ble_eq_true rfl)
theorem mulu (ea : EA) (d : Reg) : Statement (.mulu ea d) := of_ea _ _ _ _ _ _ rfl rfl (Nat.le_of_ble_eq_true rfl)
theorem muls (ea : EA) (d : Reg) : Statement (.muls ea d) := of_ea _ _ _ _ _ _ rfl rfl (Nat.le_of_ble_eq_true rfl)
theorem abcd (mem : Bool) (y x : Reg) : Statement (.abcd mem y x) := ⟨rfl, Nat.le_of_ble_eq_true rfl⟩
theorem exgDD (x y : Reg) : Statement (.exgDD x y) := ⟨rfl, Nat.le_of_ble_eq_true rfl⟩
theorem exgAA (x y : Reg) : Statement (.exgAA x y) := ⟨rfl, Nat.le_of_ble_eq_true rfl⟩
theorem exgDA (x y : Reg) : Statement (.exgDA x y) := ⟨rfl, Nat.le_of_ble_eq_true rfl⟩
theorem addEaDn (sz : Size) (ea : EA) (d : Reg) : Statement (.addEaDn sz ea d) := of_ea _ _ _ _ _ _ rfl rfl (Nat.le_of_ble_eq_true rfl)
theorem addDnEa (sz : Size) (d : Reg) (ea : EA) : Statement (.addDnEa sz d ea) := of_ea _ _ _ _ _ _ rfl rfl (Nat.le_of_ble_eq_true rfl)
theorem adda (long : Bool) (ea : EA) (a : Reg) : Statement (.adda long ea a) := of_ea _ _ _ _ _ _ rfl rfl (Nat.le_of_ble_eq_true rfl)
theorem addx (sz : Size) (mem : Bool) (y x : Reg) : Statement (.addx sz mem y x) := ⟨rfl, Nat.le_of_ble_eq_true rfl⟩
theorem asrReg (sz : Size) (c : ShiftCount) (r : Reg) : Statement (.asrReg sz c r) := of_shift _ _ _ _ _ rfl rfl
theorem asrMem (ea : EA) : Statement (.asrMem ea) := of_ea _ _ _ _ _ _ rfl rfl (Nat.le_of_ble_eq_true rfl)
theorem aslReg (sz : Size) (c : ShiftCount) (r : Reg) : Statement (.aslReg sz c r) := of_shift _ _ _ _ _ rfl rfl
theorem aslMem (ea : EA) : Statement (.aslMem ea) := of_ea _ _ _ _ _ _ rfl rfl (Nat.le_of_ble_eq_true rfl)
theorem lsrReg (sz : Size) (c : ShiftCount) (r : Reg) : Statement (.lsrReg sz c r) := of_shift _ _ _ _ _ rfl rfl
theorem lsrMem (ea : EA) : Statement (.lsrMem ea) := of_ea _ _ _ _ _ _ rfl rfl (Nat.le_of_ble_eq_true rfl)
theorem lslReg (sz : Size) (c : ShiftCount) (r : Reg) : Statement (.lslReg sz c r) := of_shift _ _ _ _ _ rfl rfl
theorem lslMem (ea : EA) : Statement (.lslMem ea) := of_ea _ _ _ _ _ _ rfl rfl (Nat.le_of_ble_eq_true rfl)
theorem roxrReg (sz : Size) (c : ShiftCount) (r : Reg) : Statement (.roxrReg sz c r) := of_shift _ _ _ _ _ rfl rfl
theorem roxrMem (ea : EA) : Statement (.roxrMem ea) := of_ea _ _ _ _ _ _ rfl rfl (Nat.le_of_ble_eq_true rfl)
theorem roxlReg (sz : Size) (c : ShiftCount) (r : Reg) : Statement (.roxlReg sz c r) := of_shift _ _ _ _ _ rfl rfl
theorem roxlMem (ea : EA) : Statement (.roxlMem ea) := of_ea _ _ _ _ _ _ rfl rfl (Nat.le_of_ble_eq_true rfl)
theorem rorReg (sz : Size) (c : ShiftCount) (r : Reg) : Statement (.rorReg sz c r) := of_shift _ _ _ _ _ rfl rfl
theorem rorMem (ea : EA) : Statement (.rorMem ea) := of_ea _ _ _ _ _ _ rfl rfl (Nat.le_of_ble_eq_true rfl)
theorem rolReg (sz : Size) (c : ShiftCount) (r : Reg) : Statement (.rolReg sz c r) := of_shift _ _ _ _ _ rfl rfl
theorem rolMem (ea : EA) : Statement (.rolMem ea) := of_ea _ _ _ _ _ _ rfl rfl (Nat.le_of_ble_eq_true rfl)
theorem lineA (x : BitVec 12) : Statement (.lineA x) := ⟨rfl, Nat.le_of_ble_eq_true rfl⟩
theorem lineF (x : BitVec 12) : Statement (.lineF x) := ⟨rfl, Nat.le_of_ble_eq_true rfl⟩

end Sys2Proof.Laws.Length
end

