-- ==== Sys2Proof/Tests/Slice0.lean ====
section
/-! SUPPORT. Tests: what WellFormed refuses, decoding of words written out from `30_encoding.md`, one step of each
instruction against the vectors of `95_test_vectors.md` (named `V…` beside each; `by hand` where the vectors have none),
and for every statement with hypotheses a state that meets them. -/

namespace Sys2Proof.Tests

open Sys2Proof.Machine Sys2Proof.Claims

/-! ### States -/

/-- User state at 0x1000 with the given CCR, USP 0x7000 and SSP 0x8000. -/
def user (ccr : Word) : State :=
  { State.reset with pc := 0x1000, usp := 0x7000, ssp := 0x8000, sr := StatusReg.ofWord ccr }

/-- The same in supervisor state. -/
def super (ccr : Word) : State := { user 0 with sr := StatusReg.ofWord (0x2000 ||| ccr) }

/-- A state with words stored from an address. -/
def with_ (a : Long) (ws : List Word) (s : State) : State := { s with mem := storeWords s.mem a ws }

/-- A0 = 0x2000, A1 = 0x3000, and the given words at 0x2000. -/
def pointing (ws : List Word) (s : State) : State := with_ 0x2000 ws ((s.setA 0 0x2000).setA 1 0x3000)

/-- The instruction has a next state, of which `p` holds. -/
def gives (i : Instr) (s : State) (p : State → Bool) : Bool :=
  match exec i s with
  | .next t => p t
  | .fault _ | .refused _ => false

/-- The same of a step. -/
def stepGives (s : State) (p : State → Bool) : Bool :=
  match step s with
  | .next t => p t
  | .fault _ | .refused _ => false

/-! ### WellFormed -/

theorem test_wf_accepts :
    (Instr.ori .b 0xFF (.ind 3)).wellFormed = true ∧ (Instr.addq .l 0 (.an 3)).wellFormed = true ∧
    (Instr.bcc .eq (.byte 1)).wellFormed = true ∧ (Instr.movemToMem true 1 (.pre 7)).wellFormed = true := by
  decide

theorem test_wf_refuses_immediate_too_large :
    (Instr.ori .b 0x100 (.dn 0)).wellFormed = false ∧ (Instr.moveW (.imm 0x10000) (.dn 0)).wellFormed = false ∧
    (Instr.adda false (.imm 0x10000) 0).wellFormed = false ∧ (Instr.moveaW (.imm 0x10000) 0).wellFormed = false := by
  decide

theorem test_wf_refuses_address_register_byte :
    (Instr.moveB (.an 0) (.dn 0)).wellFormed = false ∧ (Instr.addEaDn .b (.an 0) 0).wellFormed = false ∧
    (Instr.addq .b 1 (.an 0)).wellFormed = false ∧ (Instr.cmp .b (.an 0) 0).wellFormed = false := by
  decide

theorem test_wf_refuses_not_data_alterable :
    (Instr.addi .w 1 (.an 0)).wellFormed = false ∧ (Instr.bchg 0 (.pcDisp 0)).wellFormed = false ∧
    (Instr.bsetDn 0 (.imm 0)).wellFormed = false ∧ (Instr.moveL (.dn 0) (.pcDisp 0)).wellFormed = false ∧
    (Instr.tst .w (.imm 0)).wellFormed = false ∧ (Instr.moveFromSr (.pcIdx ⟨false, 0, false, 0⟩)).wellFormed = false ∧
    (Instr.nbcd (.an 0)).wellFormed = false ∧ (Instr.tas (.an 0)).wellFormed = false ∧
    (Instr.scc .t (.an 0)).wellFormed = false ∧ (Instr.eor .w 0 (.an 0)).wellFormed = false := by
  decide

theorem test_wf_refuses_not_data :
    (Instr.btst 0 (.imm 0)).wellFormed = false ∧ (Instr.btstDn 0 (.an 0)).wellFormed = false ∧
    (Instr.moveToCcr (.an 0)).wellFormed = false ∧ (Instr.moveToSr (.an 0)).wellFormed = false ∧
    (Instr.chk (.an 0) 0).wellFormed = false ∧ (Instr.orEaDn .w (.an 0) 0).wellFormed = false ∧
    (Instr.divu (.an 0) 0).wellFormed = false := by
  decide

theorem test_wf_refuses_not_control :
    (Instr.pea (.post 0)).wellFormed = false ∧ (Instr.jsr (.dn 0)).wellFormed = false ∧
    (Instr.jmp (.imm 0)).wellFormed = false ∧ (Instr.lea (.pre 0) 0).wellFormed = false ∧
    (Instr.movemToMem true 1 (.post 0)).wellFormed = false ∧ (Instr.movemToRegs true 1 (.pre 0)).wellFormed = false := by
  decide

theorem test_wf_refuses_not_memory_alterable :
    (Instr.orDnEa .w 0 (.dn 0)).wellFormed = false ∧ (Instr.addDnEa .w 0 (.an 0)).wellFormed = false ∧
    (Instr.aslMem (.dn 0)).wellFormed = false ∧ (Instr.roxrMem (.imm 0)).wellFormed = false ∧
    (Instr.subq .w 1 (.pcDisp 0)).wellFormed = false := by
  decide

theorem test_wf_refuses_branch :
    (Instr.bra (.byte 0)).wellFormed = false ∧ (Instr.bsr (.byte 0)).wellFormed = false ∧
    (Instr.bcc .t (.byte 1)).wellFormed = false ∧ (Instr.bcc .f (.byte 1)).wellFormed = false ∧
    (Instr.bcc .eq (.byte 0)).wellFormed = false := by
  decide

/-! ### Decoding: words written out bit by bit from the patterns of `30_encoding.md` R121 to R128 and R150 -/

theorem test_decode_immediate :
    decodeWords [0b0000000000010011, 0x0012] = .ok (.ori .b 0x12 (.ind 3), []) ∧
    decodeWords [0b0000001001101010, 0x8001, 0xFFFE] = .ok (.andi .w 0x8001 (.disp 2 0xFFFE), []) ∧
    decodeWords [0b0000010010000101, 0x1234, 0x5678] = .ok (.subi .l 0x12345678 (.dn 5), []) ∧
    decodeWords [0b0000011001011001, 0x0001] = .ok (.addi .w 1 (.post 1), []) ∧
    decodeWords [0b0000101000100111, 0x00FF] = .ok (.eori .b 0xFF (.pre 7), []) ∧
    decodeWords [0b0000110001111000, 0x0003, 0x2000] = .ok (.cmpi .w 3 (.absW 0x2000), []) := by
  decide

theorem test_decode_bit_1 :
    decodeWords [0b0000100000111010, 0x0003, 0x0004] = .ok (.btst 3 (.pcDisp 4), []) ∧
    decodeWords [0b0000100001000110, 0x001F] = .ok (.bchg 31 (.dn 6), []) ∧
    decodeWords [0b0000100010010100, 0x0007] = .ok (.bclr 7 (.ind 4), []) ∧
    decodeWords [0b0000100011010000, 0x0107] = .ok (.bset 7 (.ind 0), []) ∧
    decodeWords [0b0000011100111100, 0x0080] = .ok (.btstDn 3 (.imm 0x80), []) ∧
    decodeWords [0b0000001101000010] = .ok (.bchgDn 1 (.dn 2), []) := by
  decide

theorem test_decode_bit_2 :
    decodeWords [0b0000101110100110] = .ok (.bclrDn 5 (.pre 6), []) ∧
    decodeWords [0b0000111111011000] = .ok (.bsetDn 7 (.post 0), []) := by
  decide

theorem test_decode_status_1 :
    decodeWords [0b0000000000111100, 0x0001] = .ok (.oriToCcr 1, []) ∧
    decodeWords [0b0000000001111100, 0x8700] = .ok (.oriToSr 0x8700, []) ∧
    decodeWords [0b0000001000111100, 0x001E] = .ok (.andiToCcr 0x1E, []) ∧
    decodeWords [0b0000001001111100, 0xF8FF] = .ok (.andiToSr 0xF8FF, []) ∧
    decodeWords [0b0000101000111100, 0x0010] = .ok (.eoriToCcr 0x10, []) ∧
    decodeWords [0b0000101001111100, 0x2000] = .ok (.eoriToSr 0x2000, []) := by
  decide

theorem test_decode_status_2 :
    decodeWords [0b0100000011000011] = .ok (.moveFromSr (.dn 3), []) ∧
    decodeWords [0b0100010011011111] = .ok (.moveToCcr (.post 7), []) ∧
    decodeWords [0b0100011011111100, 0x2700] = .ok (.moveToSr (.imm 0x2700), []) ∧
    decodeWords [0b0100111001101110] = .ok (.moveUsp true 6, []) := by
  decide

theorem test_decode_move_1 :
    decodeWords [0b0001001111111100, 0x0012, 0x00FF, 0x0001] = .ok (.moveB (.imm 0x12) (.absL 0x00FF0001), []) ∧
    decodeWords [0b0011100110101010, 0x0002, 0x9804] = .ok (.moveW (.disp 2 2) (.idx 4 { isA := true, reg := 1, long := true, disp := 4 }), []) ∧
    decodeWords [0b0011110001000001] = .ok (.moveaW (.dn 1) 6, []) ∧
    decodeWords [0b0010011010001101] = .ok (.moveL (.an 5) (.ind 3), []) ∧
    decodeWords [0b0010111001011111] = .ok (.moveaL (.post 7) 7, []) ∧
    decodeWords [0b0100100011100111, 0xC080] = .ok (.movemToMem true 0xC080 (.pre 7), []) := by
  decide

theorem test_decode_move_2 :
    decodeWords [0b0100110010111011, 0x0201, 0x00FE] = .ok (.movemToRegs false 0x0201 (.pcIdx { isA := false, reg := 0, long := false, disp := 0xFE }), []) ∧
    decodeWords [0b0000010110001101, 0xFFFC] = .ok (.movep true false 2 5 0xFFFC, []) ∧
    decodeWords [0b0111111010000000] = .ok (.moveq 0x80 7, []) ∧
    decodeWords [0b0100001111101000, 0xFFFC] = .ok (.lea (.disp 0 0xFFFC) 1, []) ∧
    decodeWords [0b0100100001010011] = .ok (.pea (.ind 3), []) ∧
    decodeWords [0b1100001101000110] = .ok (.exgDD 1 6, []) := by
  decide

theorem test_decode_move_3 :
    decodeWords [0b1100000101001111] = .ok (.exgAA 0 7, []) ∧
    decodeWords [0b1100111110001010] = .ok (.exgDA 7 2, []) ∧
    decodeWords [0b0100100001000100] = .ok (.swap 4, []) ∧
    decodeWords [0b0100111001010110, 0xFFFC] = .ok (.link 6 0xFFFC, []) ∧
    decodeWords [0b0100111001011101] = .ok (.unlk 5, []) := by
  decide

theorem test_decode_unary_1 :
    decodeWords [0b0100000000000001] = .ok (.negx .b (.dn 1), []) ∧
    decodeWords [0b0100001001011000] = .ok (.clr .w (.post 0), []) ∧
    decodeWords [0b0100010010010101] = .ok (.neg .l (.ind 5), []) ∧
    decodeWords [0b0100011001100011] = .ok (.not .w (.pre 3), []) ∧
    decodeWords [0b0100101000000111] = .ok (.tst .b (.dn 7), []) ∧
    decodeWords [0b0100100000000010] = .ok (.nbcd (.dn 2), []) := by
  decide

theorem test_decode_unary_2 :
    decodeWords [0b0100101011010110] = .ok (.tas (.ind 6), []) ∧
    decodeWords [0b0100100010000011] = .ok (.extW 3, []) ∧
    decodeWords [0b0100100011000100] = .ok (.extL 4, []) ∧
    decodeWords [0b0101110011000001] = .ok (.scc .ge (.dn 1), []) := by
  decide

theorem test_decode_control_1 :
    decodeWords [0b0100101011111100] = .ok (.illegal, []) ∧
    decodeWords [0b0100111001001101] = .ok (.trap 13, []) ∧
    decodeWords [0b0100111001110000] = .ok (.reset, []) ∧
    decodeWords [0b0100111001110001] = .ok (.nop, []) ∧
    decodeWords [0b0100111001110010, 0x2300] = .ok (.stop 0x2300, []) ∧
    decodeWords [0b0100111001110011] = .ok (.rte, []) := by
  decide

theorem test_decode_control_2 :
    decodeWords [0b0100111001110101] = .ok (.rts, []) ∧
    decodeWords [0b0100111001110110] = .ok (.trapv, []) ∧
    decodeWords [0b0100111001110111] = .ok (.rtr, []) ∧
    decodeWords [0b0100111010111001, 0x0001, 0x2344] = .ok (.jsr (.absL 0x12344), []) ∧
    decodeWords [0b0100111011111010, 0x0006] = .ok (.jmp (.pcDisp 6), []) ∧
    decodeWords [0b0100101110000001] = .ok (.chk (.dn 1) 5, []) := by
  decide

theorem test_decode_control_3 :
    decodeWords [0b0101011011001001, 0x0016] = .ok (.dbcc .ne 1 0x16, []) ∧
    decodeWords [0b0110000011111111] = .ok (.bra (.byte 0xFF), []) ∧
    decodeWords [0b0110000100000000, 0xF7FE] = .ok (.bsr (.word 0xF7FE), []) ∧
    decodeWords [0b0110011100001110] = .ok (.bcc .eq (.byte 0x0E), []) ∧
    decodeWords [0b1010000100100011] = .ok (.lineA 0x123, []) ∧
    decodeWords [0b1111111111111111] = .ok (.lineF 0xFFF, []) := by
  decide

theorem test_decode_arithmetic_1 :
    decodeWords [0b0101000010001011] = .ok (.addq .l 0 (.an 3), []) ∧
    decodeWords [0b0101101101000010] = .ok (.subq .w 5 (.dn 2), []) ∧
    decodeWords [0b1001001001001100] = .ok (.subEaDn .w (.an 4) 1, []) ∧
    decodeWords [0b1001110100010011] = .ok (.subDnEa .b 6 (.ind 3), []) ∧
    decodeWords [0b1001010111000101] = .ok (.suba true (.dn 5) 2, []) ∧
    decodeWords [0b1001001110001000] = .ok (.subx .l true 0 1, []) := by
  decide

theorem test_decode_arithmetic_2 :
    decodeWords [0b1011001000000000] = .ok (.cmp .b (.dn 0) 1, []) ∧
    decodeWords [0b1011011011000111] = .ok (.cmpa false (.dn 7) 3, []) ∧
    decodeWords [0b1011001101001000] = .ok (.cmpm .w 0 1, []) ∧
    decodeWords [0b1101000001011010] = .ok (.addEaDn .w (.post 2) 0, []) ∧
    decodeWords [0b1101001101010000] = .ok (.addDnEa .w 1 (.ind 0), []) ∧
    decodeWords [0b1101111011111100, 0x7FFF] = .ok (.adda false (.imm 0x7FFF) 7, []) := by
  decide

theorem test_decode_arithmetic_3 :
    decodeWords [0b1101010100000101] = .ok (.addx .b false 5 2, []) ∧
    decodeWords [0b1100001100001000] = .ok (.abcd true 0 1, []) ∧
    decodeWords [0b1000100100000011] = .ok (.sbcd false 3 4, []) ∧
    decodeWords [0b1000010011111100, 0x000A] = .ok (.divu (.imm 10) 2, []) ∧
    decodeWords [0b1000000111000001] = .ok (.divs (.dn 1) 0, []) ∧
    decodeWords [0b1100011011010000] = .ok (.mulu (.ind 0) 3, []) := by
  decide

theorem test_decode_arithmetic_4 :
    decodeWords [0b1100101111000110] = .ok (.muls (.dn 6) 5, []) := by
  decide

theorem test_decode_logic :
    decodeWords [0b1000001010000000] = .ok (.orEaDn .l (.dn 0) 1, []) ∧
    decodeWords [0b1000010101100000] = .ok (.orDnEa .w 2 (.pre 0), []) ∧
    decodeWords [0b1011000101000001] = .ok (.eor .w 0 (.dn 1), []) ∧
    decodeWords [0b1100111000110001, 0x1700] = .ok (.andEaDn .b (.idx 1 { isA := false, reg := 1, long := false, disp := 0 }) 7, []) ∧
    decodeWords [0b1100011110010101] = .ok (.andDnEa .l 3 (.ind 5), []) := by
  decide

theorem test_decode_shift_1 :
    decodeWords [0b1110001000000010] = .ok (.asrReg .b (.imm 1) 2, []) ∧
    decodeWords [0b1110000011010010] = .ok (.asrMem (.ind 2), []) ∧
    decodeWords [0b1110010101100111] = .ok (.aslReg .w (.reg 2) 7, []) ∧
    decodeWords [0b1110000111011111] = .ok (.aslMem (.post 7), []) ∧
    decodeWords [0b1110011010001100] = .ok (.lsrReg .l (.imm 3) 4, []) ∧
    decodeWords [0b1110001011100100] = .ok (.lsrMem (.pre 4), []) := by
  decide

theorem test_decode_shift_2 :
    decodeWords [0b1110100100101001] = .ok (.lslReg .b (.reg 4) 1, []) ∧
    decodeWords [0b1110001111010001] = .ok (.lslMem (.ind 1), []) ∧
    decodeWords [0b1110101001010110] = .ok (.roxrReg .w (.imm 5) 6, []) ∧
    decodeWords [0b1110010011011110] = .ok (.roxrMem (.post 6), []) ∧
    decodeWords [0b1110110110110011] = .ok (.roxlReg .l (.reg 6) 3, []) ∧
    decodeWords [0b1110010111100011] = .ok (.roxlMem (.pre 3), []) := by
  decide

theorem test_decode_shift_3 :
    decodeWords [0b1110111000011000] = .ok (.rorReg .b (.imm 7) 0, []) ∧
    decodeWords [0b1110011011010000] = .ok (.rorMem (.ind 0), []) ∧
    decodeWords [0b1110000101111101] = .ok (.rolReg .w (.reg 0) 5, []) ∧
    decodeWords [0b1110011111011101] = .ok (.rolMem (.post 5), []) := by
  decide

/-- Words that are no instruction (V60-06 to V60-11 and section 12 of the vectors). -/
theorem test_decode_illegal :
    decodeWords [0x4E74] = .error .illegal ∧ decodeWords [0x7100] = .error .illegal ∧
    decodeWords [0x123D, 0, 0] = .error .illegal ∧ decodeWords [0x1040] = .error .illegal ∧
    decodeWords [0x5008] = .error .illegal ∧ decodeWords [0x42C0] = .error .illegal ∧
    decodeWords [0x083C, 0, 0] = .error .illegal ∧ decodeWords [0xE8C0] = .error .illegal := by
  decide

/-- The decoder on bytes, on the numbering of the opcode table, and on too few words. -/
theorem test_decode_layouts :
    decode [0x06, 0x50, 0x00, 0x01] = .ok (.addi .w 1 (.ind 0), []) ∧
    decodeTableWord 32 0x00010650 = some (.addi .w 1 (.ind 0)) ∧ decodeTableWord 16 0x4E71 = some .nop ∧
    decodeTableWord 16 0x4E74 = none ∧ decodeWords [0x0650] = .error .truncated := by
  decide

/-! ### One step of each instruction -/

/-- V41-01, V41-08. -/
theorem test_add :
    gives (.addEaDn .b (.dn 0) 1) (((user 0).setD 0 1).setD 1 0x1234567F)
      (fun t => t.getD 1 = 0x12345680 ∧ t.sr.flags = 0b01010) = true ∧
    gives (.addDnEa .w 0 (.ind 0)) (pointing [0x7FFF] ((user 0).setD 0 1))
      (fun t => t.mem.word 0x2000 = 0x8000 ∧ t.sr.flags = 0b01010) = true := by
  decide

/-- V41-12, V41-16, V41-21. -/
theorem test_adda_addi_addq :
    gives (.adda false (.dn 0) 0) (((user 0x1F).setD 0 0x8000).setA 0 0x10000)
      (fun t => t.getA 0 = 0x8000 ∧ t.sr.flags = 0b11111) = true ∧
    gives (.addi .l 0x80000000 (.dn 0)) ((user 0).setD 0 0x80000000)
      (fun t => t.getD 0 = 0 ∧ t.sr.flags = 0b10111 ∧ t.pc = 0x1006) = true ∧
    gives (.addq .w 0 (.an 0)) ((user 0).setA 0 0xFFFC) (fun t => t.getA 0 = 0x10004 ∧ t.sr.flags = 0) = true := by
  decide

/-- V41-27, V41-30 (both operands through A7, by 2). -/
theorem test_addx :
    gives (.addx .l false 0 0) ((user 0x10).setD 0 0x80000000) (fun t => t.getD 0 = 1 ∧ t.sr.flags = 0b10011) = true ∧
    gives (.addx .b true 7 7) (with_ 0x3000 [0x0200, 0x0100] ((user 0).setA 7 0x3004))
      (fun t => t.mem.byte 0x3000 = 3 ∧ t.usp = 0x3000) = true := by
  decide

/-- V41-32, V41-36. -/
theorem test_abcd :
    gives (.abcd false 0 1) (((user 4).setD 0 0x50).setD 1 0x50)
      (fun t => t.getD 1 = 0 ∧ t.sr.x = true ∧ t.sr.z = true ∧ t.sr.c = true) = true ∧
    gives (.abcd false 0 0) ((user 0x10).setD 0 0xABCDEF45)
      (fun t => t.getD 0 = 0xABCDEF91 ∧ t.sr.x = false ∧ t.sr.z = false ∧ t.sr.c = false) = true := by
  decide

/-- By hand from R607: 10 - 01 = 09; 0 - 1 - 1 = 98 with a borrow. -/
theorem test_sbcd_nbcd :
    gives (.sbcd false 0 1) (((user 4).setD 0 1).setD 1 0x10)
      (fun t => t.getD 1 = 9 ∧ t.sr.x = false ∧ t.sr.z = false ∧ t.sr.c = false) = true ∧
    gives (.nbcd (.dn 0)) ((user 0x14).setD 0 1)
      (fun t => t.getD 0 = 0x98 ∧ t.sr.x = true ∧ t.sr.z = false ∧ t.sr.c = true) = true := by
  decide

/-- V41-69, V41-72, V41-76. -/
theorem test_sub_subi :
    gives (.subEaDn .b (.dn 0) 1) (((user 0).setD 0 0x80).setD 1 0x7F)
      (fun t => t.getD 1 = 0xFF ∧ t.sr.flags = 0b11011) = true ∧
    gives (.subDnEa .w 0 (.ind 0)) (pointing [0x8000] ((user 0).setD 0 1))
      (fun t => t.mem.word 0x2000 = 0x7FFF ∧ t.sr.flags = 0b00010) = true ∧
    gives (.subi .l 1 (.ind 0)) (pointing [] (user 0))
      (fun t => t.mem.long 0x2000 = 0xFFFFFFFF ∧ t.sr.flags = 0b11001) = true := by
  decide

/-- V41-74, V41-80, V41-83. -/
theorem test_suba_subq_subx :
    gives (.suba true (.an 0) 0) ((user 0).setA 0 0x12345678) (fun t => t.getA 0 = 0) = true ∧
    gives (.subq .w 0 (.an 7)) ((user 0x1F).setA 7 0x10004) (fun t => t.usp = 0xFFFC ∧ t.sr.flags = 0b11111) = true ∧
    gives (.subx .w false 0 1) (((user 4).setD 0 1).setD 1 0x8000)
      (fun t => t.getD 1 = 0x7FFF ∧ t.sr.flags = 0b00010) = true := by
  decide

/-- V41-42, V41-48, V41-50, V41-53. -/
theorem test_compare :
    gives (.cmp .b (.dn 0) 1) (((user 0).setD 0 0x80).setD 1 0x7F) (fun t => t.getD 1 = 0x7F ∧ t.sr.flags = 0b01011) = true ∧
    gives (.cmpa false (.dn 0) 0) (((user 0).setD 0 0x8000).setA 0 0x7FFFFFFF) (fun t => t.sr.flags = 0b01011) = true ∧
    gives (.cmpi .l 1 (.ind 0)) (pointing [] (user 0)) (fun t => t.mem.long 0x2000 = 0 ∧ t.sr.flags = 0b01001) = true ∧
    gives (.cmpm .b 7 7) (with_ 0x3000 [0x0100, 0x0200] ((user 0).setA 7 0x3000))
      (fun t => t.usp = 0x3004 ∧ t.sr.flags = 0) = true := by
  decide

/-- V41-38, V41-55, V41-57, V41-58, V41-65, V41-89. -/
theorem test_one_operand :
    gives (.clr .b (.dn 0)) ((user 0x1B).setD 0 0x12345678) (fun t => t.getD 0 = 0x12345600 ∧ t.sr.flags = 0b10100) = true ∧
    gives (.extW 0) ((user 0).setD 0 0x80) (fun t => t.getD 0 = 0xFF80 ∧ t.sr.flags = 0b01000) = true ∧
    gives (.extL 0) ((user 0).setD 0 0x8000) (fun t => t.getD 0 = 0xFFFF8000 ∧ t.sr.flags = 0b01000) = true ∧
    gives (.neg .b (.dn 0)) ((user 0).setD 0 0x80) (fun t => t.getD 0 = 0x80 ∧ t.sr.flags = 0b11011) = true ∧
    gives (.negx .b (.dn 0)) ((user 0x10).setD 0 0x80) (fun t => t.getD 0 = 0x7F ∧ t.sr.flags = 0b10001) = true ∧
    gives (.tst .b (.pre 7)) (with_ 0x3000 [0x8000] ((user 0).setA 7 0x3002))
      (fun t => t.usp = 0x3000 ∧ t.sr.flags = 0b01000) = true := by
  decide

/-- V42-06, V42-08, V42-19, V42-20, V42-22, V42-29. -/
theorem test_multiply_divide :
    gives (.mulu (.dn 0) 0) ((user 0).setD 0 0x1FFFF) (fun t => t.getD 0 = 0xFFFE0001 ∧ t.sr.flags = 0b01000) = true ∧
    gives (.muls (.dn 1) 0) (((user 0).setD 0 0x8000).setD 1 0x7FFF)
      (fun t => t.getD 0 = 0xC0008000 ∧ t.sr.flags = 0b01000) = true ∧
    gives (.divu (.dn 1) 0) (((user 0).setD 0 0x80000000).setD 1 0xABCD8001)
      (fun t => t.getD 0 = 0x0002FFFE ∧ t.sr.flags = 0b01000) = true ∧
    gives (.divu (.dn 0) 0) ((user 0).setD 0 0x30003) (fun t => t.getD 0 = 0x30003 ∧ t.sr.v = true ∧ t.sr.c = false) = true ∧
    gives (.divs (.dn 1) 0) (((user 0).setD 0 0xFFFFFFF9).setD 1 0xFFFE)
      (fun t => t.getD 0 = 0xFFFF0003 ∧ t.sr.flags = 0) = true ∧
    gives (.divs (.dn 1) 0) (((user 0).setD 0 0x3FFF8000).setD 1 0x8000)
      (fun t => t.getD 0 = 0x8001 ∧ t.sr.flags = 0b01000) = true := by
  decide

/-- V42-33; V42-34: the source's register step is kept. (The stacked SR holds free bits, so memory, and the vector read
from it, do not evaluate.) -/
theorem test_divide_by_zero :
    gives (.divu (.dn 1) 0) (with_ 0x14 [0, 0x4000] ((user 0x10).setD 0 0x12345678))
      (fun t => t.getD 0 = 0x12345678 ∧ t.ssp = 0x7FFA ∧ t.usp = 0x7000 ∧ t.sr.s = true ∧ t.sr.x = true ∧ t.sr.c = false) = true ∧
    gives (.divs (.post 0) 0) (pointing [0] (with_ 0x14 [0, 0x4000] (super 0)))
      (fun t => t.getA 0 = 0x2002 ∧ t.ssp = 0x7FFA) = true := by
  decide

/-- V43-04, V43-07, V43-10, V43-12, V43-16, V43-18, V43-19 and AND and OR to a register, V43-01, V43-09. -/
theorem test_logic :
    gives (.andEaDn .b (.dn 0) 1) (((user 0x13).setD 0 0xF0).setD 1 0x1234568F)
      (fun t => t.getD 1 = 0x12345680 ∧ t.sr.flags = 0b11000) = true ∧
    gives (.andDnEa .w 0 (.ind 0)) (pointing [0xFF00] ((user 0).setD 0 0xFF))
      (fun t => t.mem.word 0x2000 = 0 ∧ t.sr.flags = 0b00100) = true ∧
    gives (.andi .w 0x8000 (.dn 0)) ((user 0x13).setD 0 0xFFFFFFFF)
      (fun t => t.getD 0 = 0xFFFF8000 ∧ t.sr.flags = 0b11000) = true ∧
    gives (.orEaDn .l (.dn 0) 1) (((user 0).setD 0 0x80000000).setD 1 1)
      (fun t => t.getD 1 = 0x80000001 ∧ t.sr.flags = 0b01000) = true ∧
    gives (.orDnEa .w 0 (.pre 0)) (with_ 0x2000 [1] (((user 0).setD 0 0x8000).setA 0 0x2002))
      (fun t => t.mem.word 0x2000 = 0x8001 ∧ t.getA 0 = 0x2000 ∧ t.sr.flags = 0b01000) = true ∧
    gives (.ori .l 0xF0000000 (.dn 0)) ((user 0).setD 0 0xF) (fun t => t.getD 0 = 0xF000000F ∧ t.sr.flags = 0b01000) = true ∧
    gives (.eor .b 0 (.ind 0)) (with_ 0x2000 [0x000F] (((user 0).setD 0 0xFF).setA 0 0x2001))
      (fun t => t.mem.byte 0x2001 = 0xF0 ∧ t.sr.flags = 0b01000) = true ∧
    gives (.eori .l 0xFFFFFFFF (.ind 0)) (pointing [0x7FFF, 0xFFFF] (user 0))
      (fun t => t.mem.long 0x2000 = 0x80000000 ∧ t.sr.flags = 0b01000) = true ∧
    gives (.not .b (.dn 0)) ((user 0x13).setD 0 0x12345600) (fun t => t.getD 0 = 0x123456FF ∧ t.sr.flags = 0b11000) = true := by
  decide

/-- V44-12, V44-14, V44-22, V44-29. -/
theorem test_shift :
    gives (.aslReg .w (.reg 1) 0) (((user 0).setD 0 0xF7FF).setD 1 4)
      (fun t => t.getD 0 = 0x7FF0 ∧ t.sr.flags = 0b10011) = true ∧
    gives (.asrReg .b (.imm 1) 0) ((user 0).setD 0 0x81) (fun t => t.getD 0 = 0xC0 ∧ t.sr.flags = 0b11001) = true ∧
    gives (.lslReg .b (.imm 1) 0) ((user 0).setD 0 0xC0) (fun t => t.getD 0 = 0x80 ∧ t.sr.flags = 0b11001) = true ∧
    gives (.lsrReg .l (.imm 0) 0) ((user 0).setD 0 0x80000080) (fun t => t.getD 0 = 0x800000 ∧ t.sr.flags = 0b10001) = true := by
  decide

/-- V44-36, V44-41, V44-48, V44-56. -/
theorem test_rotate :
    gives (.rolReg .l (.reg 1) 0) (((user 0).setD 0 0x80000001).setD 1 0x20)
      (fun t => t.getD 0 = 0x80000001 ∧ t.sr.flags = 0b01001) = true ∧
    gives (.rorReg .l (.imm 0) 0) ((user 0).setD 0 0x12345678) (fun t => t.getD 0 = 0x78123456 ∧ t.sr.flags = 0) = true ∧
    gives (.roxlReg .b (.reg 1) 0) (((user 0x10).setD 0 0x81).setD 1 9)
      (fun t => t.getD 0 = 0x81 ∧ t.sr.flags = 0b11001) = true ∧
    gives (.roxrReg .b (.reg 1) 0) (((user 0).setD 0 1).setD 1 0x11) (fun t => t.getD 0 = 2 ∧ t.sr.flags = 0) = true := by
  decide

/-- V44-21, V44-57 to V44-59, and by hand for the other four memory forms. -/
theorem test_shift_memory :
    gives (.asrMem (.ind 0)) (pointing [0x8001] (user 0)) (fun t => t.mem.word 0x2000 = 0xC000 ∧ t.sr.flags = 0b11001) = true ∧
    gives (.aslMem (.ind 0)) (pointing [0x4000] (user 0)) (fun t => t.mem.word 0x2000 = 0x8000 ∧ t.sr.flags = 0b01010) = true ∧
    gives (.lsrMem (.post 0)) (pointing [1] (user 0)) (fun t => t.getA 0 = 0x2002 ∧ t.sr.flags = 0b10101) = true ∧
    gives (.lslMem (.ind 0)) (pointing [0xC000] (user 0)) (fun t => t.mem.word 0x2000 = 0x8000 ∧ t.sr.flags = 0b11001) = true ∧
    gives (.roxrMem (.ind 0)) (pointing [2] (user 0x10)) (fun t => t.mem.word 0x2000 = 0x8001 ∧ t.sr.flags = 0b01000) = true ∧
    gives (.roxlMem (.ind 0)) (pointing [0xC000] (user 0)) (fun t => t.mem.word 0x2000 = 0x8000 ∧ t.sr.flags = 0b11001) = true ∧
    gives (.rorMem (.ind 0)) (pointing [1] (user 0)) (fun t => t.mem.word 0x2000 = 0x8000 ∧ t.sr.flags = 0b01001) = true ∧
    gives (.rolMem (.absW 0x2000)) (pointing [0x8000] (user 0)) (fun t => t.mem.word 0x2000 = 1 ∧ t.sr.flags = 1) = true := by
  decide

/-- V46-02, V46-04, V46-11, V46-12, V46-14, V46-16, V46-18, V46-19. -/
theorem test_bits :
    gives (.btstDn 1 (.dn 0)) (((user 0).setD 0 0x80000000).setD 1 0x3F) (fun t => t.sr.flags = 0) = true ∧
    gives (.btst 7 (.absW 0x2000)) (pointing [0x7F00] (user 0)) (fun t => t.sr.flags = 0b00100 ∧ t.pc = 0x1006) = true ∧
    gives (.bchg 32 (.dn 0)) ((user 0).setD 0 1) (fun t => t.getD 0 = 0 ∧ t.sr.flags = 0) = true ∧
    gives (.bchgDn 1 (.post 0)) (pointing [] ((user 0).setD 1 7))
      (fun t => t.mem.byte 0x2000 = 0x80 ∧ t.getA 0 = 0x2001 ∧ t.sr.flags = 0b00100) = true ∧
    gives (.bclr 31 (.dn 0)) ((user 0).setD 0 0xFFFFFFFF) (fun t => t.getD 0 = 0x7FFFFFFF ∧ t.sr.flags = 0) = true ∧
    gives (.bclrDn 1 (.ind 0)) (pointing [0xFF00] ((user 0).setD 1 0xB)) (fun t => t.mem.byte 0x2000 = 0xF7) = true ∧
    gives (.bset 7 (.ind 0)) (pointing [] (user 0)) (fun t => t.mem.byte 0x2000 = 0x80 ∧ t.sr.flags = 0b00100) = true ∧
    gives (.bsetDn 1 (.dn 0)) ((user 0).setD 1 0x28) (fun t => t.getD 0 = 0x100 ∧ t.sr.flags = 0b00100) = true := by
  decide

/-- V47-06, V47-08, V40-21, V47-13, V47-16, V47-18. -/
theorem test_move :
    gives (.moveB (.post 7) (.dn 0)) (with_ 0x3000 [0x7F00] ((user 0).setA 7 0x3000))
      (fun t => t.getD 0 = 0x7F ∧ t.usp = 0x3002 ∧ t.sr.flags = 0) = true ∧
    gives (.moveW (.pre 0) (.pre 0)) (with_ 0x2002 [0x1234] ((user 0).setA 0 0x2004))
      (fun t => t.mem.word 0x2000 = 0x1234 ∧ t.getA 0 = 0x2000) = true ∧
    gives (.moveL (.dn 0) (.ind 0)) (((user 0).setD 0 0x11223344).setA 0 0xFFFFFE)
      (fun t => t.mem.word 0xFFFFFE = 0x1122 ∧ t.mem.word 0 = 0x3344) = true ∧
    gives (.moveaW (.dn 0) 0) ((user 0x15).setD 0 0xFFFF) (fun t => t.getA 0 = 0xFFFFFFFF ∧ t.sr.flags = 0b10101) = true ∧
    gives (.moveaL (.post 7) 7) (with_ 0x3000 [0, 0x5000] ((user 0).setA 7 0x3000)) (fun t => t.usp = 0x5000) = true ∧
    gives (.moveq 0x80 7) (user 0) (fun t => t.getD 7 = 0xFFFFFF80 ∧ t.sr.flags = 0b01000) = true := by
  decide

/-- V47-33, V47-36. -/
theorem test_movem :
    gives (.movemToMem true 0x8080 (.pre 0)) (((user 0).setD 0 0xDDDDDDDD).setA 0 0x2008)
      (fun t => t.mem.long 0x2000 = 0xDDDDDDDD ∧ t.mem.long 0x2004 = 0x2008 ∧ t.getA 0 = 0x2000) = true ∧
    gives (.movemToRegs false 0x0201 (.post 0)) (pointing [0xFFFE, 0x7FFF] ((user 0).setD 0 0x12345678))
      (fun t => t.getD 0 = 0xFFFFFFFE ∧ t.getA 1 = 0x7FFF ∧ t.getA 0 = 0x2004) = true := by
  decide

/-- V47-20, V47-23, V47-24, V47-27, V47-31, V47-43, V47-45, and EXG of data registers. -/
theorem test_registers_and_movep :
    gives (.swap 0) ((user 0x13).setD 0 0xFFFF) (fun t => t.getD 0 = 0xFFFF0000 ∧ t.sr.flags = 0b11000) = true ∧
    gives (.exgDD 1 2) (((user 0).setD 1 5).setD 2 6) (fun t => t.getD 1 = 6 ∧ t.getD 2 = 5) = true ∧
    gives (.exgAA 0 7) (((user 0).setA 0 0x1111).setA 7 0x2222) (fun t => t.getA 0 = 0x2222 ∧ t.usp = 0x1111) = true ∧
    gives (.exgDA 7 7) (((user 0).setD 7 0x3001).setA 7 0x2222) (fun t => t.getD 7 = 0x2222 ∧ t.usp = 0x3001) = true ∧
    gives (.lea (.pcIdx { isA := false, reg := 0, long := false, disp := 0xFE }) 0) ((user 0).setD 0 0x8000)
      (fun t => t.getA 0 = 0xFFFF9000) = true ∧
    gives (.movep true true 0 0 0xFFFC) (((user 0).setD 0 0x11223344).setA 0 0x2004)
      (fun t => t.mem.byte 0x2000 = 0x11 ∧ t.mem.byte 0x2002 = 0x22 ∧ t.mem.byte 0x2004 = 0x33 ∧ t.mem.byte 0x2006 = 0x44) = true ∧
    gives (.movep false false 0 0 1) (pointing [0x12, 0x34] ((user 0).setD 0 0xFFFFFFFF)) (fun t => t.getD 0 = 0xFFFF1234) = true := by
  decide

/-- V45-08 to V45-57: a branch each way, BSR on the supervisor stack, DBcc's three ways, and JMP, JSR, RTS, Scc. -/
theorem test_control :
    gives (.bcc .hi (.byte 0x0E)) (user 1) (fun t => t.pc = 0x1002) = true ∧
    gives (.bcc .gt (.byte 0x0E)) (user 0xA) (fun t => t.pc = 0x1010) = true ∧
    gives (.bra (.word 0xFEFE)) (user 0) (fun t => t.pc = 0xF00) = true ∧
    gives (.bsr (.byte 0x0E)) (super 0)
      (fun t => t.pc = 0x1010 ∧ t.ssp = 0x7FFC ∧ t.usp = 0x7000 ∧ t.mem.long 0x7FFC = 0x1002) = true ∧
    gives (.dbcc .f 0 0xFFF6) { user 0 with pc := 0x1008 } (fun t => t.getD 0 = 0xFFFF ∧ t.pc = 0x100C) = true ∧
    gives (.dbcc .eq 0 0xFFF6) ({ user 0 with pc := 0x1008 }.setD 0 3) (fun t => t.getD 0 = 2 ∧ t.pc = 0x1000) = true ∧
    gives (.dbcc .eq 0 0xFFF6) ({ user 4 with pc := 0x1008 }.setD 0 3) (fun t => t.getD 0 = 3 ∧ t.pc = 0x100C) = true ∧
    gives (.jmp (.absW 0x8000)) (user 0) (fun t => t.pc = 0xFFFF8000) = true ∧
    gives (.jsr (.pcDisp 0xFFFE)) (user 0) (fun t => t.pc = 0x1000 ∧ t.mem.long 0x6FFC = 0x1004) = true ∧
    gives .rts (with_ 0x7000 [0x12, 0x3456] (user 0)) (fun t => t.pc = 0x123456 ∧ t.usp = 0x7004) = true ∧
    gives .nop (user 0x15) (fun t => t.pc = 0x1002 ∧ t.sr.flags = 0b10101) = true ∧
    gives (.scc .lt (.pre 7)) (user 8) (fun t => t.mem.byte 0x6FFE = 0xFF ∧ t.usp = 0x6FFE ∧ t.sr.flags = 0b01000) = true := by
  decide

/-- V60-01, V60-03, V60-04, V60-05, V60-12, V60-13. -/
theorem test_traps :
    gives (.trap 0) (with_ 0x80 [0, 0x4000] (user 0x1F))
      (fun t => t.sr.toWord = 0x201F ∧ t.ssp = 0x7FFA ∧ t.usp = 0x7000 ∧ t.mem.word 0x7FFA = 0x1F ∧
        t.mem.long 0x7FFC = 0x1002 ∧ t.pc = 0x4000) = true ∧
    gives .trapv (with_ 0x1C [0, 0x4000] (user 2)) (fun t => t.mem.long 0x7FFC = 0x1002 ∧ t.pc = 0x4000) = true ∧
    gives .trapv (user 0x1D) (fun t => t.pc = 0x1002 ∧ t.ssp = 0x8000) = true ∧
    gives .illegal (with_ 0x10 [0, 0x4000] (super 0)) (fun t => t.mem.long 0x7FFC = 0x1000 ∧ t.pc = 0x4000) = true ∧
    gives (.lineA 0) (with_ 0x28 [0, 0x4000] (user 0)) (fun t => t.mem.long 0x7FFC = 0x1000 ∧ t.pc = 0x4000) = true ∧
    gives (.lineF 0xFFF) (with_ 0x2C [0, 0x4000] (user 0)) (fun t => t.mem.long 0x7FFC = 0x1000 ∧ t.pc = 0x4000) = true := by
  decide

/-- V60-14, V60-15, V60-17; RTR by hand from R611. -/
theorem test_returns :
    gives .rte (with_ 0x20 [0, 0x4000] (user 0)) (fun t => t.ssp = 0x7FFA ∧ t.mem.long 0x7FFC = 0x1000 ∧ t.pc = 0x4000) = true ∧
    gives .rte { with_ 0x7FFA [0x1F, 0, 0x1234] (super 0x700) with ssp := 0x7FFA }
      (fun t => t.sr.toWord = 0x1F ∧ t.ssp = 0x8000 ∧ t.getA 7 = 0x7000 ∧ t.pc = 0x1234) = true ∧
    gives .rte { with_ 0x7FFA [0x58E0, 0, 0x1234] (super 0) with ssp := 0x7FFA } (fun t => t.sr.toWord = 0) = true ∧
    gives .rtr (with_ 0x7000 [0xFFFF, 0, 0x1234] (user 0))
      (fun t => t.sr.toWord = 0x1F ∧ t.usp = 0x7006 ∧ t.pc = 0x1234) = true := by
  decide

/-- By hand from R603, R609 and R610, in supervisor state but for the CCR forms and MOVE from SR. -/
theorem test_status :
    gives (.oriToCcr 0xFF) (user 0) (fun t => t.sr.toWord = 0x1F) = true ∧
    gives (.andiToCcr 0x1E) (user 0x1F) (fun t => t.sr.toWord = 0x1E) = true ∧
    gives (.eoriToCcr 0x11) (user 1) (fun t => t.sr.toWord = 0x10) = true ∧
    gives (.oriToSr 0x8700) (super 1) (fun t => t.sr.toWord = 0xA701) = true ∧
    gives (.andiToSr 0xDFFF) (super 4) (fun t => t.sr.toWord = 4 ∧ t.getA 7 = 0x7000) = true ∧
    gives (.eoriToSr 0x0701) (super 1) (fun t => t.sr.toWord = 0x2700) = true ∧
    gives (.moveFromSr (.dn 0)) ((user 9).setD 0 0xFFFFFFFF) (fun t => t.getD 0 = 0xFFFF0009) = true ∧
    gives (.moveToCcr (.imm 0xFFE5)) (user 0) (fun t => t.sr.toWord = 5 ∧ t.pc = 0x1004) = true ∧
    gives (.moveToSr (.dn 0)) ((super 0).setD 0 0x58FF) (fun t => t.sr.toWord = 0x1F) = true ∧
    gives (.moveUsp true 0) (super 0) (fun t => t.getA 0 = 0x7000) = true ∧
    gives (.moveUsp false 0) ((super 0).setA 0 0x1234) (fun t => t.usp = 0x1234 ∧ t.ssp = 0x8000) = true ∧
    gives .reset (super 0) (fun t => t.pc = 0x1002) = true ∧
    gives (.stop 0x2300) (super 0) (fun t => t.run = .stopped ∧ t.sr.toWord = 0x2300 ∧ t.pc = 0x1004) = true := by
  decide

/-- By hand from R604 to R606 and R608: LINK and UNLK undo each other; CHK at its bound and above it. -/
theorem test_link_chk_tas :
    gives (.link 6 0xFFF8) ((user 0).setA 6 0x1111)
      (fun t => t.mem.long 0x6FFC = 0x1111 ∧ t.getA 6 = 0x6FFC ∧ t.usp = 0x6FF4 ∧ t.pc = 0x1004) = true ∧
    gives (.unlk 6) (with_ 0x6FFC [0, 0x1111] ({ user 0 with usp := 0x6FF4 }.setA 6 0x6FFC))
      (fun t => t.getA 6 = 0x1111 ∧ t.usp = 0x7000) = true ∧
    gives (.pea (.disp 0 4)) (pointing [] (user 0)) (fun t => t.mem.long 0x6FFC = 0x2004 ∧ t.usp = 0x6FFC) = true ∧
    gives (.chk (.imm 5) 0) (with_ 0x18 [0, 0x4000] ((user 0).setD 0 5)) (fun t => t.pc = 0x1004) = true ∧
    gives (.chk (.imm 5) 0) (with_ 0x18 [0, 0x4000] ((user 0).setD 0 6))
      (fun t => t.ssp = 0x7FFA ∧ t.sr.s = true ∧ t.sr.n = false) = true ∧
    gives (.chk (.imm 5) 0) (with_ 0x18 [0, 0x4000] ((user 0).setD 0 0xFFFF)) (fun t => t.ssp = 0x7FFA ∧ t.sr.n = true) = true ∧
    gives (.tas (.ind 0)) (pointing [0x0100] (user 0x13)) (fun t => t.mem.byte 0x2000 = 0x81 ∧ t.sr.flags = 0b10000) = true := by
  decide

/-- V40-08, V40-10, V40-12, V40-14: the indexed and PC-relative modes; V40-03: the sign-extended absolute short. -/
theorem test_addressing :
    gives (.moveW (.idx 0 { isA := false, reg := 1, long := false, disp := 0 }) (.dn 0))
      (with_ 0x1FFE [0x4444] ((pointing [] (user 0)).setD 1 0x1FFFE)) (fun t => t.getD 0 = 0x4444) = true ∧
    gives (.moveW (.idx 0 { isA := true, reg := 1, long := false, disp := 0x80 }) (.dn 0))
      (with_ 0x2002 [0x6666] (((user 0).setA 0 0x2080).setA 1 0xFFFF0002)) (fun t => t.getD 0 = 0x6666) = true ∧
    gives (.moveW (.pcDisp 0xFFFE) (.dn 0)) (with_ 0x1000 [0x303A, 0xFFFE] (user 0)) (fun t => t.getD 0 = 0x303A) = true ∧
    gives (.moveW (.absW 0x8000) (.dn 0)) (with_ 0xFF8000 [0x5678] (user 0)) (fun t => t.getD 0 = 0x5678) = true := by
  decide

/-- The access of V40-25, which this model takes as an exception (log entry 5): R443's frame of 14 bytes, some of them
free, and the register step kept. -/
theorem test_address_error :
    gives (.moveW (.post 0) (.dn 0)) (with_ 0xC [0, 0x4000] { (user 0).setA 0 0x2001 with ir := 0x3018 })
      (fun t => t.getA 0 = 0x2003 ∧ t.getD 0 = 0 ∧ t.ssp = 0x7FF2 ∧ t.sr.toWord = 0x2000) = true := by
  decide

/-- By hand: MOVE.W (A0)+,(xxx).L with its third word in a range that nothing answers. The source is read and A0 stepped
before that word is fetched (R180, R383); R443's first word has bits 4 and 3 of a fetch, and of a write. -/
theorem test_bus_error_after_source :
    stepGives { with_ 0x3FFC [0x33D8] ((user 0).setA 0 0x2000) with
        pc := 0x3FFC, holes := [⟨0x4000, 0x4FFF, true, true, true, true, true⟩] }
      (fun t => t.getA 0 = 0x2002 ∧ t.ssp = 0x7FF2 ∧ t.ir = 0x33D8 ∧ t.sr.toWord = 0x2000) = true ∧
    accessWord 0 { vector := 2, address := 0x4000, kind := .fetch, fc := 2 } = 0b10010 ∧
    accessWord 0 { vector := 2, address := 0x4000, kind := .write, fc := 5 } = 0b01101 := by
  decide

/-- By hand: with 20 address bits the byte at 0x102000 is the one at 0x2000 (R72, D2). -/
theorem test_address_width :
    gives (.moveB (.absL 0x00102000) (.dn 0))
      (with_ 0x2000 [0x1234] { user 0 with mem := { addrBits := 20, cells := [] } }) (fun t => t.getD 0 = 0x12) = true := by
  decide

/-- P8: a level 3 interrupt between two instructions of a user program; and one instruction by `step`. -/
theorem test_step :
    stepGives { with_ 0x6C [0, 0x410] (user 0) with inputs := [{ ipl := 3, ack := .autovector, reset := false }] }
      (fun t => t.sr.toWord = 0x2300 ∧ t.ssp = 0x7FFA ∧ t.mem.word 0x7FFA = 0 ∧ t.mem.long 0x7FFC = 0x1000 ∧ t.pc = 0x410 ∧
        t.inputs = []) = true ∧
    stepGives (with_ 0x1000 [0x7001] (user 0)) (fun t => t.getD 0 = 1 ∧ t.pc = 0x1002 ∧ t.ir = 0x7001) = true ∧
    stepGives (State.reset.withFetchWord 16 0x7001) (fun t => t.getD 0 = 1) = true := by
  decide

/-! ### Witnesses: for each statement with hypotheses, states and operands that meet them, each clause at a boundary -/

/-- The operand of a form that reads and writes it answers both. -/
def modifiable (own : Nat) (sz : Size) (ea : EA) (s : State) : Bool :=
  let p := evalEA (s.npc (1 + own)) sz ea s
  reads sz p.1 p.2 && writes sz p.1 p.2

/-- The operand answers a read. -/
def readable (own : Nat) (sz : Size) (ea : EA) (s : State) : Bool :=
  let p := evalEA (s.npc (1 + own)) sz ea s
  reads sz p.1 p.2

/-- A long at the top of memory wraps round to address 0; a byte may be odd; a range nothing answers is one that the
statements' hypotheses shut out. -/
theorem test_witness_answers :
    answers (user 0) .read .l 0x00FFFFFE = true ∧ answers (user 0) .write .b 0x00FFFFFF = true ∧
    answers (user 0) .read .w 0x00FFFFFF = false ∧
    answers { user 0 with holes := [⟨0x4000, 0x4FFF, true, true, true, true, true⟩] } .write .l 0x3FFC = true ∧
    answers { user 0 with holes := [⟨0x4000, 0x4FFF, true, true, true, true, true⟩] } .write .l 0x3FFE = false := by
  decide

/-- A user state whose instruction at `pc` is ADDI.W #1,(A0). -/
def atAddi : State := with_ 0x1000 [0x0650, 0x0001] (pointing [0xFFFF] (user 0))

/-- A user state with no instruction at `pc`. -/
def atIllegal : State := with_ 0x1000 [0x4E74] (user 0)

theorem test_witness_DecodeEncodeRoundTrip :
    (Instr.moveL (.imm 0xFFFFFFFF) (.absL 0xFFFFFFFF)).wellFormed = true ∧ (Instr.lineF 0xFFF).wellFormed = true := by
  decide

theorem test_witness_StepKeepsInvariant : State.reset.wf ∧ ∃ t, step State.reset = .next t := ⟨by decide, _, rfl⟩

/-- The first and the last byte of the space; 20 address bits (D2's MC68008); and a cell outside the space. -/
theorem test_witness_ResetState :
    Memory.wf { addrBits := 24, cells := [(0, 1), (0xFFFFFF, 0xFF)] } ∧ Memory.empty.wf ∧
    Memory.wf { addrBits := 20, cells := [(0xFFFFF, 1)] } ∧ ¬ Memory.wf { addrBits := 20, cells := [(0x100000, 1)] } := by
  decide

theorem test_witness_StepRunsDecodedInstruction :
    fetches atAddi = true ∧ allMapped atAddi = true ∧ atAddi.pc.getLsbD 0 = false ∧ queueFresh atAddi = true ∧
    decodeWords (wordsAt atAddi) = .ok (.addi .w 1 (.ind 0), [0, 0, 0]) := by
  decide

theorem test_witness_UndefinedWordTakesVectorFour :
    fetches atIllegal = true ∧ allMapped atIllegal = true ∧ atIllegal.pc.getLsbD 0 = false ∧
    queueFresh atIllegal = true ∧ decodeWords (wordsAt atIllegal) = .error .illegal ∧ canEnter 4 atIllegal = true := by
  decide

theorem test_witness_ModeFrame :
    (∃ t, exec .nop (user 0) = .next t ∧ (user 0).sr.s = false ∧ t.sr.s = false) ∧
    (∃ t, exec (.oriToSr 0x700) (user 0) = .next t ∧ (user 0).sr.s = false) ∧
    (∃ t, exec (.trap 0) (super 0) = .next t ∧ writesSr (.trap 0) = false ∧ (super 0).sr.s = true) ∧
    ∀ r, Instr.nop ≠ .moveUsp false r :=
  ⟨⟨_, rfl, rfl, rfl⟩, ⟨_, rfl, rfl⟩, ⟨_, rfl, rfl, rfl⟩, nofun⟩

theorem test_witness_DataRegisterFrame :
    ∃ t, exec (.moveq 1 0) (user 0) = .next t ∧ (1 : Reg) ∉ dataWritten (.moveq 1 0) ∧ (7 : Reg) ∉ dataWritten .rte :=
  ⟨_, rfl, by decide, by decide⟩

theorem test_witness_AddressRegisterFrame :
    ∃ t, exec (.moveaW (.dn 0) 6) (user 0) = .next t ∧ (5 : Reg) ∉ addressWritten (.moveaW (.dn 0) 6) ∧
      (7 : Reg) ∉ addressWritten (.moveaW (.dn 0) 6) ∧ (user 0).sr.s = false ∧
      ∃ u, exec .nop { super 0 with prefetch := [(0x1002, 0)] } = .next u ∧ (super 0).sr.s = true ∧ u.prefetch ≠ [] ∧
        u.run ≠ .halted ∧ (7 : Reg) ∉ addressWritten .nop :=
  ⟨_, rfl, by decide, by decide, rfl, _, rfl, rfl, by decide, by decide, by decide⟩

theorem test_witness_FlagFrame : ∃ t, exec (.bset 7 (.dn 0)) (user 0x1F) = .next t ∧ flagsWritten (.bset 7 (.dn 0)) = 4 :=
  ⟨_, rfl, rfl⟩

/-- The bytes just above a stored word, and just above a trap's frame of six bytes and the room of a nested one. -/
theorem test_witness_MemoryFrame :
    (∃ t, exec (.addDnEa .w 0 (.ind 0)) (pointing [] (user 0)) = .next t ∧
      (∀ p ∈ storedRanges (.addDnEa .w 0 (.ind 0)) (pointing [] (user 0)), ¬ (pointing [] (user 0)).mem.inRange p.1 p.2 0x2002) ∧ t.sr.s = false) ∧
    (∃ t, exec (.trap 0) (user 0) = .next t ∧ storedRanges (.trap 0) (user 0) = [] ∧ t.sr.s = true ∧
      t.prefetch = [] ∧ ¬ (user 0).mem.inRange t.ssp 20 (0x7FFA + 20)) :=
  ⟨⟨_, rfl, by decide, rfl⟩, ⟨_, rfl, rfl, rfl, rfl, by decide⟩⟩

theorem test_witness_StoreThenLoad :
    let m := Memory.empty
    ¬ m.inRange 0x00FFFFFE 4 0x2 ∧ ¬ m.inRange 0x00FFFFFE 4 0x00FFFFFD ∧ m.wf ∧ m.addressable ∧
    (0x01002000 : Long).toNat % 2 ^ m.addrBits = (0x00002000 : Long).toNat % 2 ^ m.addrBits ∧ 3 < Size.l.bytes := by
  decide

theorem test_witness_AddResults_SubResults :
    readable 0 .l (.imm 0x10000) (user 0) = true ∧ readable 0 .b (.post 7) ((user 0).setA 7 0x2001) = true ∧
    modifiable 0 .l (.absL 0x00FFFFFE) (user 0) = true ∧ modifiable (immWords .l) .l (.pre 0) (pointing [] (user 0)) = true := by
  decide

theorem test_witness_QuickResults :
    (EA.dn 0).mode ≠ .an ∧ modifiable 0 .b (.dn 0) (user 0) = true ∧ (EA.ind 0).mode ≠ .an ∧
    modifiable 0 .w (.ind 0) (pointing [] (user 0)) = true := by
  decide

theorem test_witness_AddressRegisterResults :
    readable 0 .w (.an 7) (user 0) = true ∧ readable 0 .l (.post 0) (pointing [] (user 0)) = true := by
  decide

/-- The memory forms with one register for both operands, as in V41-29. -/
theorem test_witness_ExtendedResults :
    let s := pointing [] (user 0)
    let b := s.getA 0 - stepOf 0 .l
    let a := (s.setA 0 b).getA 0 - stepOf 0 .l
    answers s .read .l b = true ∧ answers s .read .l a = true ∧ answers s .write .l a = true := by
  decide

theorem test_witness_CompareResults :
    let s := pointing [] (user 0)
    readable 0 .w (.pcDisp 0xFFFE) s = true ∧ readable (immWords .w) .w (.ind 0) s = true ∧
    answers s .read .b (s.getA 7) = true ∧ answers s .read .b ((s.setA 7 (s.getA 7 + stepOf 7 .b)).getA 7) = true := by
  decide

theorem test_witness_TestClearAndSet_Negate_Logic :
    modifiable 0 .b (.pre 7) (user 0) = true ∧ readable 0 .l (.ind 0) (pointing [] (user 0)) = true ∧
    modifiable 0 .l (.dn 7) (user 0) = true ∧ modifiable (immWords .w) .w (.post 0) (pointing [] (user 0)) = true := by
  decide

theorem test_witness_MultiplyResults : readable 0 .w (.imm 0xFFFF) (user 0) = true := by decide

/-- The quotients 0xFFFF and 0x10000, and the zero divisor. -/
theorem test_witness_DivideUnsignedResults :
    readable 0 .w (.dn 1) (user 0) = true ∧ (1 : Nat) ≠ 0 ∧ 0xFFFF / 1 < 2 ^ 16 ∧ 2 ^ 16 ≤ 0x10000 / 1 ∧
    (((user 0).setD 1 1).getDn .w 1).toNat = 1 ∧ (((user 0).setD 0 0x10000).getD 0).toNat = 0x10000 ∧
    ((user 0).getDn .w 1).toNat = 0 ∧ canEnter 5 (user 0) = true := by
  decide

/-- The quotients -0x8000, which fits, and 0x8000, which does not. -/
theorem test_witness_DivideSignedResults :
    readable 0 .w (.dn 1) (user 0) = true ∧ fits 16 (Int.tdiv (-0x8000) 1) = true ∧ fits 16 (Int.tdiv (-0x8000) (-1)) = false ∧
    (((user 0).setD 1 0xFFFF).getDn .w 1).toInt = -1 ∧ (((user 0).setD 0 0xFFFF8000).getD 0).toInt = -0x8000 ∧
    canEnter 5 (user 0) = true := by
  decide

theorem test_witness_DecimalAddResults_DecimalSubtractResults :
    let s := pointing [0x9900] (user 0x14)
    isBcd 0x99 = true ∧ isBcd 0x00 = true ∧ isBcd 0x9A = false ∧
    answers s .read .b (s.getA 0 - stepOf 0 .b) = true ∧ answers s .read .b (s.getA 1 - stepOf 1 .b) = true ∧
    answers s .write .b (s.getA 1 - stepOf 1 .b) = true ∧ isBcd (s.mem.byte (s.getA 1 - stepOf 1 .b)) = true ∧
    modifiable 0 .b (.ind 0) s = true ∧ isBcd (s.mem.byte 0x2000) = true := by
  decide

theorem test_witness_ShiftResults_RotateResults : modifiable 0 .w (.post 0) (pointing [] (user 0)) = true := by decide

theorem test_witness_BitResults :
    modifiable 1 .l (.dn 0) (user 0) = true ∧ modifiable 1 .b (.post 7) (user 0) = true ∧
    modifiable 0 .b (.absL 0x00FFFFFF) (user 0) = true ∧ readable 0 .b (.imm 0x80) (user 0) = true ∧
    readable 1 .b (.pcDisp 5) (user 0) = true := by
  decide

/-- V47-08: both operands through one register. -/
theorem test_witness_MoveResults :
    let s := pointing [] (user 0)
    let p := evalEA (s.npc 1) .w (.pre 0) s
    let q := evalEA (s.npc 1) .w (.pre 0) p.2
    reads .w p.1 p.2 = true ∧ writes .w q.1 q.2 = true ∧ streams p.2 ((EA.pre 0).words .w) (s.npc 1) = true ∧
    streams p.2 ((EA.absL 0x2000).words .w) (s.npc 1) = true := by
  decide

theorem test_witness_MovemStoreResults :
    let s := pointing [] (user 0)
    ((EA.ind 0).mode.isControl && (EA.ind 0).mode.isAlterable) = true ∧
    (∀ j < (maskBits 0x8101).length, answers s .write .w (0x2000 + BitVec.ofNat 32 (j * 2)) = true) ∧
    (∀ j < (maskBits 0x8101).length, answers s .write .l (s.getA 7 - BitVec.ofNat 32 ((j + 1) * 4)) = true) := by
  decide

theorem test_witness_MovemLoadResults :
    let s := pointing [] (user 0)
    (EA.pcDisp 4).mode.isControl = true ∧ (maskBits 0x0300).length = 2 ∧
    (∀ j < (maskBits 0x0300).length, answers s .read .w (0x1008 + BitVec.ofNat 32 (j * 2)) = true) ∧
    (∀ j < (maskBits 0x0300).length, answers s .read .l (s.getA 0 + BitVec.ofNat 32 (j * 4)) = true) := by
  decide

theorem test_witness_MovepResults :
    (∀ k < 4, answers (user 0) .write .b (0x00FFFFFD + BitVec.ofNat 32 (2 * k)) = true) ∧
    (∀ k < 4, answers (user 0) .read .b (0x2000 + BitVec.ofNat 32 (2 * k)) = true) := by
  decide

theorem test_witness_ExchangeAndLea_Jump :
    (EA.ind 0).mode.isControl = true ∧ (EA.pcIdx ⟨true, 7, true, 0⟩).mode.isControl = true ∧
    answers (user 0) .write .l ((user 0).sp - 4) = true ∧ answers (user 0) .read .l (user 0).sp = true := by
  decide

theorem test_witness_LinkUnlkPeaResults :
    answers (user 0) .write .l ((user 0).sp - 4) = true ∧ answers (user 0) .read .l ((user 0).getA 7) = true ∧
    (EA.absW 0x2000).mode.isControl = true := by
  decide

theorem test_witness_BranchResults :
    condHolds (user 4).sr .eq = true ∧ condHolds (user 0).sr .eq = false ∧ ((user 0).getD 0).setWidth 16 = (0 : Word) ∧
    (((user 0).setD 0 1).getD 0).setWidth 16 ≠ (0 : Word) ∧ answers (super 0) .write .l ((super 0).sp - 4) = true := by
  decide

theorem test_witness_TrapResults :
    canEnter 32 (user 0) = true ∧ canEnter 47 (super 0) = true ∧ (user 2).sr.v = true ∧ canEnter 7 (user 2) = true ∧
    (user 0).sr.v = false := by
  decide

theorem test_witness_UnimplementedResults :
    canEnter 4 (user 0) = true ∧ canEnter 10 (user 0) = true ∧ canEnter 11 (super 0) = true := by
  decide

theorem test_witness_ReturnFromExceptionResult :
    (super 0).sr.s = true ∧ answers (super 0) .read .w (super 0).ssp = true ∧
    answers (super 0) .read .l ((super 0).ssp + 2) = true := by
  decide

theorem test_witness_ReturnUndoesEntry :
    (user 0x1F).mem.addressable ∧ canEnter 33 (user 0x1F) = true ∧ answers (entered 33 0x1002 (user 0x1F)) .read .w ((user 0x1F).ssp - 6) = true ∧
    answers (entered 33 0x1002 (user 0x1F)) .read .l ((user 0x1F).ssp - 4) = true := by
  decide

theorem test_witness_PrivilegeViolation :
    (user 0).sr.s = false ∧ canEnter 8 (user 0) = true ∧
    Instr.stop 0x2000 ∈ [Instr.rte, .oriToSr 0x2000, .andiToSr 0x2000, .eoriToSr 0x2000, .moveToSr (.dn 0), .moveUsp true 0,
      .reset, .stop 0x2000] := by
  decide

theorem test_witness_StatusInstructionResults :
    readable 0 .w (.imm 0x1F) (user 0) = true ∧ modifiable 0 .w (.pre 7) (user 0) = true ∧ (super 0).sr.s = true := by
  decide

/-- CHK at its bound, one above it, and at -1. -/
theorem test_witness_TasRtrChkResults :
    modifiable 0 .b (.ind 0) (pointing [] (user 0)) = true ∧ answers (user 0) .read .w (user 0).sp = true ∧
    answers (user 0) .read .l ((user 0).sp + 2) = true ∧ readable 0 .w (.imm 5) (user 0) = true ∧
    (0 : Int) ≤ 5 ∧ (5 : Int) < 6 ∧ (-1 : Int) < 0 ∧ (((user 0).setD 0 0xFFFF).getD 0).setWidth 16 = (-1 : Word) ∧
    canEnter 6 (user 0) = true := by
  decide

/-- A user state in which nothing answers from 0x4000 to 0x4FFF. -/
def holed : State := { user 0 with holes := [⟨0x4000, 0x4FFF, true, true, true, true, true⟩] }

/-- V40-25's state, and the same address written. -/
theorem test_witness_AddressErrorFrame :
    let s := (user 0).setA 0 0x2001
    let u := s.setA 0 0x2003
    transfers false .w (.post 0) 0 s = some (.moveW (.post 0) (.dn 0), .read) ∧
    transfers true .w (.post 0) 0 s = some (.moveW (.dn 0) (.post 0), .write) ∧
    evalEA (s.npc 1) .w (.post 0) s = (.mem 0x2001 .data, u) ∧ (0x2001 : Long).getLsbD 0 = true ∧
    s.mem.addressable ∧ canEnterError 3 u = true := by
  decide

/-- V45-04's state. -/
theorem test_witness_OddFetchTakesAddressError :
    let s := { user 0 with pc := 0x1001 }
    fetches s = true ∧ s.pc.getLsbD 0 = true ∧ s.mem.addressable ∧ canEnterError 3 s = true := by
  decide

/-- A long whose last two bytes nothing answers, read and written; a fetch there; and MOVE whose second word lies there. -/
theorem test_witness_BusErrorFrame :
    (transfers false .l (.absL 0x3FFE) 0 holed = some (.moveL (.absL 0x3FFE) (.dn 0), .read) ∧
      transfers true .l (.absL 0x3FFE) 0 holed = some (.moveL (.dn 0) (.absL 0x3FFE), .write) ∧
      evalEA (holed.npc 1) .l (.absL 0x3FFE) holed = (.mem 0x3FFE .data, holed) ∧ (0x3FFE : Long).getLsbD 0 = false ∧
      2 < Size.l.bytes ∧ holed.mapped .read (0x3FFE + BitVec.ofNat 32 2) = false ∧
      holed.mapped .write (0x3FFE + BitVec.ofNat 32 2) = false ∧
      (∀ j < 2, holed.mapped .read (0x3FFE + BitVec.ofNat 32 j) = true) ∧
      (∀ j < 2, holed.mapped .write (0x3FFE + BitVec.ofNat 32 j) = true) ∧ holed.mem.addressable ∧
      canEnterError 2 holed = true) ∧
    (let s := { holed with pc := 0x4000 }
     fetches s = true ∧ s.pc.getLsbD 0 = false ∧ (s.mapped .fetch s.pc && s.mapped .fetch (s.pc + 1)) = false ∧
     s.mem.addressable ∧ canEnterError 2 s = true) ∧
    (let s := { holed with pc := 0x3FFC }
     let p := evalEA (s.npc 1) .w (.post 0) s
     reads .w p.1 p.2 = true ∧ 1 < (EA.absL 0).words .w ∧ streams p.2 1 (s.npc 1) = true ∧ (s.npc 1).getLsbD 0 = false ∧
     answers p.2 .fetch .w (s.npc 1 + BitVec.ofNat 32 2) = false ∧ canEnterError 2 p.2 = true) := by
  decide

/-- V60-19's state; a reset whose vectors answer and one whose second vector does not; and a halted state. -/
theorem test_witness_DoubleFaultHalts :
    let r := { user 0 with run := .halted, inputs := [{ ipl := 0, ack := .autovector, reset := true }] }
    { user 0 with ssp := 0x8001 }.ssp.getLsbD 0 = true ∧ canEnterError 3 { user 0 with ssp := 0x8001 } = false ∧
    canEnterError 3 (user 0) = true ∧ r.input.reset = true ∧ r.run = .halted ∧
    answers (inSupervisor r) .read .l 0 = true ∧
    answers (inSupervisor { r with holes := [⟨4, 5, false, true, false, false, true⟩] }) .read .l 4 = false ∧
    { user 0 with run := .halted }.run = .halted ∧ { user 0 with run := .halted }.input.reset = false := by
  decide

/-- Level 3 over mask 2, and a new level 7 under mask 7; each kind of answer. -/
theorem test_witness_InterruptTaken :
    let s := { user 0 with sr := StatusReg.ofWord 0x2200, inputs := [{ ipl := 3, ack := .vector 64, reset := false }] }
    let t := { user 0 with sr := StatusReg.ofWord 0x2700, inputs := [{ ipl := 7, ack := .spurious, reset := false }] }
    s.run ≠ .halted ∧ s.haltAddr ≠ some (s.pc &&& s.mem.addrMask) ∧ s.input.reset = false ∧ s.sr.i < s.input.ipl ∧
    canEnter 64 s = true ∧ t.input.ipl = 7 ∧ t.lastIpl ≠ 7 ∧ canEnter 24 t = true := by
  decide

theorem test_witness_ExternalReset :
    let s := { user 0 with run := .halted, inputs := [{ ipl := 0, ack := .autovector, reset := true }] }
    let t := { s with run := .running }
    s.input.reset = true ∧ s.run = .halted ∧ answers (inSupervisor s) .read .l 0 = true ∧
    answers (inSupervisor s) .read .l 4 = true ∧ t.haltAddr ≠ some (t.pc &&& t.mem.addrMask) := by
  decide

/-- A user state with T set and NOP at `pc`. -/
def tracing : State := with_ 0x1000 [0x4E71] { user 0 with sr := StatusReg.ofWord 0x8000 }

theorem test_witness_TraceFollowsInstruction :
    fetches tracing = true ∧ allMapped tracing = true ∧ tracing.pc.getLsbD 0 = false ∧ queueFresh tracing = true ∧
    decodeWords (wordsAt tracing) = .ok (.nop, [0, 0, 0, 0]) ∧
    ∃ u, exec .nop (fetched .nop tracing) = .next u ∧ u.traceDue = true ∧ canEnter 9 u = true :=
  ⟨by decide, by decide, by decide, by decide, by decide, _, rfl, by decide, by decide⟩

/-- Level 2 under mask 2 does not wake a stopped processor; and `halt_addr`. -/
theorem test_witness_StoppedWaits :
    let s := { user 0 with run := .stopped, sr := StatusReg.ofWord 0x2200, inputs := [{ ipl := 2, ack := .autovector, reset := false }] }
    let t := { user 0 with haltAddr := some 0x1000 }
    s.run = .stopped ∧ s.haltAddr ≠ some (s.pc &&& s.mem.addrMask) ∧ s.input.reset = false ∧
    ¬ (s.sr.i < s.input.ipl ∨ (s.input.ipl = 7 ∧ s.lastIpl ≠ 7)) ∧ t.run ≠ .halted ∧
    t.haltAddr = some (t.pc &&& t.mem.addrMask) := by
  decide

/-- A queue whose second word a store has made stale, or that agrees with memory. -/
def stale (w : Word) : State := { with_ 0x1002 [0x7001] (user 0) with prefetch := [(0x1000, 0), (0x1002, w)] }

theorem test_witness_StaleFetchSeesOldOrNew :
    (∃ v t, (streamWord 0x1004).run (stale 0x4E71) = .ok v t) ∧ (∀ p ∈ (stale 0x4E71).prefetch, p.1 ≠ 0x1004) ∧
    (∃ v t, (streamWord 0x1002).run (stale 0x4E71) = .ok v t) ∧ (∃ p ∈ (stale 0x4E71).prefetch, p.1 = 0x1002) ∧
    (∀ p ∈ (stale 0x4E71).prefetch, p.1 = 0x1002 → p.2 = 0x4E71) ∧ (0x7001 : Word) = (stale 0x7001).mem.word 0x1002 :=
  ⟨⟨_, _, rfl⟩, by simp [stale], ⟨_, _, rfl⟩, by simp [stale], by simp [stale], by decide⟩

end Sys2Proof.Tests
end

section
/-! SUPPORT. The addressing modes (`40_addressing_modes.md`): what each one designates, with the step of `(An)+` and
`-(An)` (R172) and the index register (R187, R189) written out. -/

namespace Sys2Proof.Proofs.AddressingModes

open Sys2Proof.Machine

/-- R172. -/
theorem stepOf_eq (r : Reg) (sz : Size) :
    stepOf r sz = if sz = .b ∧ r = 7 then 2 else BitVec.ofNat 32 sz.bytes := rfl

/-- The index of a brief extension word (R117, R187): a whole register, or its low word sign-extended. -/
theorem indexOf_eq (x : Brief) (s : State) :
    indexOf x s = if x.long then (if x.isA then s.getA x.reg else s.getD x.reg)
      else ((if x.isA then s.getA x.reg else s.getD x.reg).setWidth 16).signExtend 32 := rfl

/-- `(An)+` designates the address before the step (R184). -/
theorem evalEA_post (xp : Long) (sz : Size) (r : Reg) (s : State) :
    evalEA xp sz (.post r) s = (.mem (s.getA r) .data, s.setA r (s.getA r + stepOf r sz)) := rfl

/-- `-(An)` designates the address after the step (R185). -/
theorem evalEA_pre (xp : Long) (sz : Size) (r : Reg) (s : State) :
    evalEA xp sz (.pre r) s = (.mem (s.getA r - stepOf r sz) .data, s.setA r (s.getA r - stepOf r sz)) := rfl

/-- R187. -/
theorem evalEA_idx (xp : Long) (sz : Size) (r : Reg) (x : Brief) (s : State) :
    evalEA xp sz (.idx r x) s = (.mem (s.getA r + indexOf x s + x.disp.signExtend 32) .data, s) := rfl

/-- The base is the extension word's own address, and the operand lies in program space (R189, R71). -/
theorem evalEA_pcIdx (xp : Long) (sz : Size) (x : Brief) (s : State) :
    evalEA xp sz (.pcIdx x) s = (.mem (xp + indexOf x s + x.disp.signExtend 32) .program, s) := rfl

/-- Settles O15, mode by mode: the modes that step a register and those with an index by their own equations, the
others as `evalEA` defines them. -/
theorem addressingModes : Obligations.AddressingModes := by
  intro xp sz s r d a l v x X index step
  have hstep : stepOf r sz = step := stepOf_eq r sz
  have hindex : indexOf x s = index := indexOf_eq x s
  rw [← hstep, ← hindex]
  refine ⟨rfl, rfl, rfl, ?post, ?pre, rfl, ?idx, rfl, rfl, rfl, ?pcIdx, rfl⟩
  case post => exact evalEA_post xp sz r s
  case pre => exact evalEA_pre xp sz r s
  case idx => exact evalEA_idx xp sz r x s
  case pcIdx => exact evalEA_pcIdx xp sz x s

end Sys2Proof.Proofs.AddressingModes
end

section
/-! SUPPORT. Shapes of instructions: each shape of `Sys2Proof.Claims` holds of every instruction whose meaning is the
matching computation of `Machine/Operands.lean`. -/

namespace Sys2Proof.Proofs.Shapes

open Sys2Proof.Machine Sys2Proof.Claims

/-! ### Accesses that memory answers -/

/-- An access that memory answers meets no error, in either space (R74 to R76). -/
theorem accessError_of_answers {s : State} {kind : AccessKind} {sz : Size} {a : Long} (h : answers s kind sz a = true)
    (sp : Space) : s.accessError kind sp sz.bytes a = none := by
  simp only [answers, Bool.and_eq_true, Bool.or_eq_true, decide_eq_true_eq, Bool.not_eq_true', List.all_eq_true,
    List.mem_range] at h
  obtain ⟨haligned, hmapped⟩ := h
  refine (State.accessError_eq_none_iff s kind sp sz.bytes a).2 ⟨fun hsz => ?_, hmapped⟩
  rcases haligned with rfl | heven
  · exact absurd hsz (by decide)
  · exact heven

theorem readError_of_reads {sz : Size} {l : Loc} {s : State} (h : reads sz l s = true) : l.readError sz s = none := by
  cases l with
  | mem a sp => exact accessError_of_answers h sp
  | dreg r | areg r | imm v => rfl

theorem writeError_of_writes {sz : Size} {l : Loc} {s : State} (h : writes sz l s = true) : l.writeError sz s = none := by
  cases l with
  | mem a sp => exact accessError_of_answers h .data
  | dreg r | areg r | imm v => rfl

/-! ### Shapes -/

section

variable {i : Instr} {own : Nat} {sz : Size} {ea : EA} {s : State}

theorem toData_of_exec {d : Reg} {op : BitVec sz.bits → BitVec sz.bits → StatusReg → Result sz.bits}
    (h : exec i s = run (sourceToDn sz ea d op) s) : ToData i sz ea d op s := fun hr =>
  h.trans (run_of_ok (sourceToDn_ok rfl (readError_of_reads hr)))

theorem toAddress_of_exec {a : Reg} {op : Long → Long → Long} (h : exec i s = run (sourceToAn sz ea a op) s) :
    ToAddress i sz ea a op s := fun hr =>
  h.trans (run_of_ok (sourceToAn_ok rfl (readError_of_reads hr)))

theorem modifies_of_exec {op : BitVec sz.bits → StatusReg → Result sz.bits} (h : exec i s = run (modifyEA own sz ea op) s) :
    Modifies i own sz ea op s := fun hr hw =>
  h.trans (run_of_ok (modifyEA_ok rfl (readError_of_reads hr) (writeError_of_writes hw)))

theorem tests_of_exec {op : BitVec sz.bits → StatusReg → StatusReg} (h : exec i s = run (testEA own sz ea op) s) :
    Tests i own sz ea op s := fun hr =>
  h.trans (run_of_ok (testEA_ok rfl (readError_of_reads hr)))

theorem pairs_of_exec {i : Bool → Instr} {y x : Reg} {op : BitVec sz.bits → BitVec sz.bits → StatusReg → Result sz.bits}
    (h : ∀ mem, exec (i mem) s = run (pairOp sz mem y x op) s) : Pairs i sz y x op s :=
  ⟨(h false).trans (run_of_ok (pairOp_reg sz y x op s)), fun hb ha hw =>
    (h true).trans (run_of_ok (pairOp_mem rfl rfl rfl (accessError_of_answers hb .data)
      (accessError_of_answers ha .data) (accessError_of_answers hw .data)))⟩

end

end Sys2Proof.Proofs.Shapes
end

section
/-! SUPPORT. Integer arithmetic (`41_arithmetic.md`): the model's results and flags as the integers they stand for, and
the statements about its instructions. -/

namespace Sys2Proof.Proofs.Arithmetic

open Sys2Proof.Machine Sys2Proof.Claims Sys2Proof.Proofs.Shapes

theorem bits_pos (sz : Size) : 0 < sz.bits := by cases sz <;> decide

theorem two_pow_eq {n : Nat} (hn : 0 < n) : 2 ^ n = 2 * 2 ^ (n - 1) := by
  rw [← Nat.pow_succ', Nat.succ_eq_add_one, Nat.sub_add_cancel hn]

/-! ### Carry-in and overflow (R11) -/

theorem fits_eq_false_iff (n : Nat) (z : Int) :
    fits n z = false ↔ z < -((2 ^ (n - 1) : Nat) : Int) ∨ ((2 ^ (n - 1) : Nat) : Int) ≤ z := by
  simp only [fits, decide_eq_false_iff_not]
  push_cast
  omega

theorem bit_eq_ofNat (n : Nat) (x : Bool) : bit n x = BitVec.ofNat n x.toNat := by cases x <;> rfl

theorem bit_false (n : Nat) : bit n false = 0#n := rfl

theorem add_add_bit {n : Nat} (s d : BitVec n) (x : Bool) :
    d + s + bit n x = BitVec.ofNat n (d.toNat + s.toNat + x.toNat) := by
  simp [bit_eq_ofNat, BitVec.ofNat_add]

theorem sub_sub_bit {n : Nat} (s d : BitVec n) (x : Bool) :
    d - s - bit n x = BitVec.ofInt n ((d.toNat : Int) - s.toNat - x.toNat) := by
  simp [bit_eq_ofNat, Int.sub_eq_add_neg, BitVec.ofInt_add, BitVec.ofInt_neg, BitVec.sub_eq_add_neg]

/-- The sum, as it stands in `n` bits, is off by at most one carry. -/
theorem toNat_add_add_bit {n : Nat} (s d : BitVec n) (x : Bool) :
    (d + s + bit n x).toNat = d.toNat + s.toNat + x.toNat ∨
      (d + s + bit n x).toNat + 2 ^ n = d.toNat + s.toNat + x.toNat := by
  have hs := s.isLt
  have hd := d.isLt
  have hx := x.toNat_le
  rw [add_add_bit, BitVec.toNat_ofNat]
  rcases Nat.lt_or_ge (d.toNat + s.toNat + x.toNat) (2 ^ n) with h | h
  · exact .inl (Nat.mod_eq_of_lt h)
  · right
    rw [Nat.mod_eq_sub_mod h, Nat.mod_eq_of_lt (by omega)]
    omega

/-- The difference, as it stands in `n` bits, is off by at most one borrow. -/
theorem toNat_sub_sub_bit {n : Nat} (s d : BitVec n) (x : Bool) :
    (d - s - bit n x).toNat + s.toNat + x.toNat = d.toNat ∨
      (d - s - bit n x).toNat + s.toNat + x.toNat = d.toNat + 2 ^ n := by
  have hback : d - s - bit n x + s + bit n x = d := by
    rw [BitVec.add_assoc, BitVec.add_comm s, ← BitVec.add_assoc, BitVec.sub_add_cancel, BitVec.sub_add_cancel]
  have h := toNat_add_add_bit s (d - s - bit n x) x
  rw [hback] at h
  omega

/-- The overflow of an addition: the integer sum is outside the signed range (R11). The result is off by at most one carry,
so for each pair of signs the claim is linear in half the modulus. -/
theorem overflowAdd_eq_not_fits {n : Nat} (hn : 0 < n) (s d : BitVec n) (x : Bool) :
    overflowAdd s d (d + s + bit n x) = !fits n (d.toInt + s.toInt + x.toNat) := by
  have hr := toNat_add_add_bit s d x
  have hs := s.isLt
  have hd := d.isLt
  have hx := x.toNat_le
  have hrlt := (d + s + bit n x).isLt
  rw [Bool.eq_iff_iff, Bool.not_eq_true', fits_eq_false_iff]
  simp only [overflowAdd, BitVec.msb_eq_decide, BitVec.toInt_eq_toNat_cond, Bool.and_eq_true, beq_iff_eq, bne_iff_ne, ne_eq,
    decide_eq_decide, two_pow_eq hn] at *
  generalize 2 ^ (n - 1) = half at *
  split_ifs <;> omega

/-- The overflow of a subtraction: the integer difference is outside the signed range (R11). As for addition, with a
borrow for the carry. -/
theorem overflowSub_eq_not_fits {n : Nat} (hn : 0 < n) (s d : BitVec n) (x : Bool) :
    overflowSub s d (d - s - bit n x) = !fits n (d.toInt - s.toInt - x.toNat) := by
  have hr := toNat_sub_sub_bit s d x
  have hs := s.isLt
  have hd := d.isLt
  have hx := x.toNat_le
  have hrlt := (d - s - bit n x).isLt
  rw [Bool.eq_iff_iff, Bool.not_eq_true', fits_eq_false_iff]
  simp only [overflowSub, BitVec.msb_eq_decide, BitVec.toInt_eq_toNat_cond, Bool.and_eq_true, bne_iff_ne, ne_eq,
    decide_eq_decide, two_pow_eq hn] at *
  generalize 2 ^ (n - 1) = half at *
  split_ifs <;> omega

/-! ### The model's operations as integers -/

theorem sumXOf_eq {n : Nat} (hn : 0 < n) : @sumXOf n = addxResult := by
  funext s d f
  simp only [sumXOf, addxResult, StatusReg.addFlags, StatusReg.stickyZero, StatusReg.copyCarry, ← add_add_bit,
    overflowAdd_eq_not_fits hn, carryAdd]

theorem diffXOf_eq {n : Nat} (hn : 0 < n) : @diffXOf n = subxResult := by
  funext s d f
  simp only [diffXOf, subxResult, StatusReg.subFlags, StatusReg.stickyZero, StatusReg.copyCarry, ← sub_sub_bit,
    overflowSub_eq_not_fits hn, borrowSub]

/-- The overflow of ADD is that of ADDX without the extend bit. -/
theorem sumOf_eq {n : Nat} (hn : 0 < n) : @sumOf n = addResult := by
  funext s d f
  have hv := overflowAdd_eq_not_fits hn s d false
  simp only [bit_false, BitVec.add_zero, Bool.toNat_false, Int.natCast_zero, Int.add_zero] at hv
  simp only [sumOf, addResult, StatusReg.addFlags, StatusReg.zero, StatusReg.copyCarry, hv, carryAdd, Bool.toNat_false,
    Nat.add_zero]

/-- The overflow of SUB is that of SUBX without the extend bit. -/
theorem diffOf_eq {n : Nat} (hn : 0 < n) : @diffOf n = subResult := by
  funext s d f
  have hv := overflowSub_eq_not_fits hn s d false
  simp only [bit_false, BitVec.sub_zero, Bool.toNat_false, Int.natCast_zero, Int.sub_zero] at hv
  simp only [diffOf, subResult, StatusReg.subFlags, StatusReg.zero, StatusReg.copyCarry, hv, borrowSub, Bool.toNat_false,
    Nat.add_zero]

theorem compareOf_eq {n : Nat} (hn : 0 < n) : @compareOf n = cmpFlags := by
  funext s d f
  rw [compareOf, diffOf_eq hn]
  rfl

theorem quick_eq_ofNat (n : Nat) (q : BitVec 3) : quick n q = BitVec.ofNat n (if q = 0 then 8 else q.toNat) := by
  unfold quick
  split
  · rfl
  · exact (BitVec.ofNat_toNat n q).symm

/-! ### Two operands -/

/-- Settles O19: all three forms compute `addResult`, whose flags are those of the integer sum. -/
theorem addResults : Obligations.AddResults := by
  intro sz ea d v s
  rw [sumOf_eq (bits_pos sz)]
  exact ⟨toData_of_exec rfl, modifies_of_exec rfl, modifies_of_exec rfl⟩

/-- Settles O20: all three forms compute `subResult`, whose flags are those of the integer difference. -/
theorem subResults : Obligations.SubResults := by
  intro sz ea d v s
  rw [diffOf_eq (bits_pos sz)]
  exact ⟨toData_of_exec rfl, modifies_of_exec rfl, modifies_of_exec rfl⟩

theorem exec_addq_of_ne_an (sz : Size) (q : BitVec 3) {ea : EA} (s : State) (h : ea.mode ≠ .an) :
    exec (.addq sz q ea) s = run (modifyEA 0 sz ea (addResult (quick sz.bits q))) s := by
  cases ea with
  | an r => exact absurd rfl h
  | _ => rfl

theorem exec_subq_of_ne_an (sz : Size) (q : BitVec 3) {ea : EA} (s : State) (h : ea.mode ≠ .an) :
    exec (.subq sz q ea) s = run (modifyEA 0 sz ea (subResult (quick sz.bits q))) s := by
  cases ea with
  | an r => exact absurd rfl h
  | _ => rfl

/-- Settles O21: an address register has an arm of its own; every other operand is ADD's or SUB's with the quick value as
source. -/
theorem quickResults : Obligations.QuickResults := by
  intro sz q ea r s k
  have hquick : ∀ n, BitVec.ofNat n k = quick n q := fun n => (quick_eq_ofNat n q).symm
  rw [hquick, hquick, sumOf_eq (bits_pos sz), diffOf_eq (bits_pos sz)]
  exact ⟨rfl, rfl, fun h => modifies_of_exec (exec_addq_of_ne_an sz q s h),
    fun h => modifies_of_exec (exec_subq_of_ne_an sz q s h)⟩

/-- Settles O22: the four instructions are `sourceToAn` with a sum, a difference or the source itself. -/
theorem addressRegisterResults : Obligations.AddressRegisterResults := fun _ _ _ _ =>
  ⟨toAddress_of_exec rfl, toAddress_of_exec rfl, toAddress_of_exec rfl, toAddress_of_exec rfl⟩

/-- Settles O23: both instructions are `pairOp`, with operations whose flags are those of the integer sum and difference
with X. -/
theorem extendedResults : Obligations.ExtendedResults := by
  intro sz y x s
  rw [sumXOf_eq (bits_pos sz), diffXOf_eq (bits_pos sz)]
  exact ⟨pairs_of_exec fun _ => rfl, pairs_of_exec fun _ => rfl⟩

/-! ### Comparison -/

theorem compareAn_ok {sz : Size} {ea : EA} {a : Reg} {s : State} {l : Loc} {t : State}
    (he : evalEA (s.npc 1) sz ea s = (l, t)) (hr : l.readError sz t = none) :
    (compareAn sz ea a).run s =
      .ok () ((t.setSr (cmpFlags ((l.value sz t).signExtend 32) (t.getA a) s.sr)).advance (1 + ea.words sz)) := by
  have hsr : t.sr = s.sr := by simpa [he] using evalEA_sr (s.npc 1) sz ea s
  simp [compareAn, source_ok (own := 0) he hr, hsr]

theorem readPost_ok {sz : Size} {r : Reg} {s : State} (h : s.accessError .read .data sz.bytes (s.getA r) = none) :
    (readPost sz r).run s = .ok (s.mem.load sz (s.getA r)) (s.setA r (s.getA r + stepOf r sz)) := by
  simp [readPost, readMem_ok h]

/-- CMPM's second operand is read where its register stands after the first one's step. -/
theorem comparePost_ok {sz : Size} {y x : Reg} {s t : State} (ht : t = s.setA y (s.getA y + stepOf y sz))
    (hy : s.accessError .read .data sz.bytes (s.getA y) = none)
    (hx : s.accessError .read .data sz.bytes (t.getA x) = none) :
    (comparePost sz y x).run s =
      .ok () (((t.setA x (t.getA x + stepOf x sz)).setSr
        (cmpFlags (s.mem.load sz (s.getA y)) (s.mem.load sz (t.getA x)) s.sr)).advance 1) := by
  have hx' : t.accessError .read .data sz.bytes (t.getA x) = none :=
    (State.accessError_congr (by simp [ht]) (by simp [ht]) (by simp [ht]) _ _ _ _).trans hx
  have hmem : t.mem = s.mem := by simp [ht]
  have hsr : t.sr = s.sr := by simp [ht]
  simp only [comparePost, EStateM.run_bind, readPost_ok hy, ← ht, readPost_ok hx', EStateM.run_modify, State.setA_sr, hmem,
    hsr]

/-- Settles O24: CMP and CMPI read an operand for the flags; CMPA and CMPM read theirs after the registers' steps. -/
theorem compareResults : Obligations.CompareResults := by
  intro sz long ea d a y x v s
  rw [compareOf_eq (bits_pos sz), compareOf_eq (n := 32) (by decide)]
  refine ⟨tests_of_exec rfl, tests_of_exec rfl, ?cmpa, ?cmpm⟩
  case cmpa =>
    intro p hr
    exact run_of_ok (compareAn_ok rfl (readError_of_reads hr))
  case cmpm =>
    intro t hy hx
    exact run_of_ok (comparePost_ok rfl (accessError_of_answers hy .data) (accessError_of_answers hx .data))

/-! ### One operand -/

/-- Overwriting a destination, with the flags `g` of the old ones, when no access fails. -/
theorem overwriteEA_ok {sz : Size} {ea : EA} {v : BitVec sz.bits} {g : StatusReg → StatusReg} {s : State} {l : Loc}
    {t : State} (he : evalEA (s.npc 1) sz ea s = (l, t)) (hr : l.readError sz t = none) (hw : l.writeError sz t = none) :
    (do overwriteEA sz ea v; modify fun s => (s.setSr (g s.sr)).advance (1 + ea.words sz) : Exec Unit).run s =
      .ok () (((l.put sz v t).setSr (g s.sr)).advance (1 + ea.words sz)) := by
  have hsr : t.sr = s.sr := by simpa [he] using evalEA_sr (s.npc 1) sz ea s
  simp [overwriteEA, he, readLoc_ok hr, writeLoc_ok hw, hsr]

/-- A destination that is overwritten is one that is modified by an operation which ignores it. -/
theorem modifies_of_overwrite {i : Instr} {sz : Size} {ea : EA} {s : State} {v : BitVec sz.bits}
    {g : StatusReg → StatusReg}
    (h : exec i s = run (do overwriteEA sz ea v; modify fun s => (s.setSr (g s.sr)).advance (1 + ea.words sz)) s) :
    Modifies i 0 sz ea (fun _ f => (v, g f)) s := fun hr hw =>
  h.trans (run_of_ok (overwriteEA_ok rfl (readError_of_reads hr) (writeError_of_writes hw)))

theorem exec_scc (c : Cond) (ea : EA) (s : State) :
    exec (.scc c ea) s = run (do
      overwriteEA .b ea (condByte c s.sr)
      modify fun s => (s.setSr s.sr).advance (1 + ea.words .b)) s := rfl

theorem exec_clr (sz : Size) (ea : EA) (s : State) :
    exec (.clr sz ea) s = run (do
      overwriteEA sz ea 0
      modify fun s => (s.setSr (s.sr.logicFlags (0 : BitVec sz.bits))).advance (1 + ea.words sz)) s := rfl

theorem logicFlags_zero (n : Nat) (f : StatusReg) :
    f.logicFlags (0 : BitVec n) = { f with n := false, z := true, v := false, c := false } := by
  simp [StatusReg.logicFlags]

/-- Settles O25: TST reads its operand for the flags; CLR and Scc overwrite theirs, Scc with the flags as they are. -/
theorem testClearAndSetResults : Obligations.TestClearAndSetResults := by
  intro sz c ea s
  refine ⟨?scc, tests_of_exec rfl, ?clr⟩
  case scc => exact modifies_of_overwrite (g := id) (exec_scc c ea s)
  case clr =>
    simp only [← logicFlags_zero sz.bits]
    exact modifies_of_overwrite (exec_clr sz ea s)

/-- Negation overflows at the least signed number only. -/
theorem fits_neg_eq {n : Nat} (hn : 0 < n) (w : BitVec n) :
    (!fits n ((0#n).toInt - w.toInt)) = decide (w.toNat = 2 ^ (n - 1)) := by
  have hw := w.isLt
  rw [Bool.eq_iff_iff, Bool.not_eq_true', fits_eq_false_iff, BitVec.toInt_zero, BitVec.toInt_eq_toNat_cond, decide_eq_true_eq]
  rw [two_pow_eq hn] at *
  generalize 2 ^ (n - 1) = half at *
  split_ifs <;> omega

/-- The flags of `0 - w` in terms of `w` (R222). -/
theorem diffOf_zero {n : Nat} (hn : 0 < n) (w : BitVec n) (f : StatusReg) :
    diffOf w 0 f = (0 - w, { f with
      x := decide (w ≠ 0), n := (0 - w).msb, z := decide (w = 0), c := decide (w ≠ 0)
      v := decide (w.toNat = 2 ^ (n - 1)) }) := by
  have hborrow : (0#n).toNat < w.toNat ↔ w ≠ 0#n := by
    rw [BitVec.toNat_zero, Nat.pos_iff_ne_zero, ne_eq, ne_eq, BitVec.toNat_eq, BitVec.toNat_zero]
  have hzero : 0#n - w = 0#n ↔ w = 0#n := by simp
  simp only [diffOf, BitVec.ofNat_eq_ofNat, fits_neg_eq hn, hborrow, hzero]

/-- Settles O26: NEG and NEGX are SUB and SUBX from zero. -/
theorem negateResults : Obligations.NegateResults := by
  intro sz ea s
  simp only [← diffOf_zero (bits_pos sz)]
  rw [diffOf_eq (bits_pos sz), diffXOf_eq (bits_pos sz)]
  exact ⟨modifies_of_exec rfl, modifies_of_exec rfl⟩

/-- Exchanging the words of a register is rotating it by one word (R389). -/
theorem swapWords_eq_rotateLeft (v : Long) : v.extractLsb' 0 16 ++ v.extractLsb' 16 16 = v.rotateLeft 16 := by
  apply BitVec.eq_of_getLsbD_eq
  intro i hi
  rw [BitVec.getLsbD_append, BitVec.getLsbD_rotateLeft, BitVec.getLsbD_extractLsb', BitVec.getLsbD_extractLsb']
  by_cases hlow : i < 16
  · simp [hlow]
  · have hhigh : i - 16 < 16 := by omega
    simp [hlow, hhigh, hi]

/-- Settles O27: each instruction's result is the model's own but for SWAP's, a rotation by 16. -/
theorem extendSwapMoveqResults : Obligations.ExtendSwapMoveqResults := by
  intro r v s
  rw [← swapWords_eq_rotateLeft]
  exact ⟨rfl, rfl, rfl, rfl⟩

end Sys2Proof.Proofs.Arithmetic
end

section
/-! SUPPORT. Decimal arithmetic (`41_arithmetic.md` R210): packed BCD bytes as numbers, and what a decimal operation can
do, with the values that are free. -/

namespace Sys2Proof.Proofs.Decimal

open Sys2Proof.Machine Sys2Proof.Claims Sys2Proof.Proofs.Shapes

/-! ### Packed BCD bytes -/

theorem bcdByte_digits {u : Nat} (h : u < 100) :
    ((bcdByte u).extractLsb' 4 4).toNat = u / 10 ∧ ((bcdByte u).extractLsb' 0 4).toNat = u % 10 := by
  rw [bcdByte, BitVec.extractLsb'_append_eq_left, BitVec.extractLsb'_append_eq_right, BitVec.toNat_ofNat, BitVec.toNat_ofNat]
  omega

theorem isBcd_bcdByte {u : Nat} (h : u < 100) : isBcd (bcdByte u) = true := by
  obtain ⟨htens, hunits⟩ := bcdByte_digits h
  simp only [isBcd, htens, hunits, Bool.and_eq_true, decide_eq_true_eq]
  omega

theorem bcdValue_bcdByte {u : Nat} (h : u < 100) : bcdValue (bcdByte u) = u := by
  obtain ⟨htens, hunits⟩ := bcdByte_digits h
  simp only [bcdValue, htens, hunits]
  omega

theorem decimalSum_bcdAdd (v w : Byte) (x : Bool) : DecimalSum v w x (bcdAdd v w x).1 (bcdAdd v w x).2 := fun _ _ =>
  have hlt := Nat.mod_lt (bcdValue v + bcdValue w + x.toNat) (by decide : 0 < 100)
  ⟨isBcd_bcdByte hlt, bcdValue_bcdByte hlt, rfl⟩

/-! ### What a decimal operation does -/

/-- A result and carry that a decimal operation can have: `op`'s on packed BCD operands, any on others (R210). -/
def DecimalResult (op : Byte → Byte → Bool → Byte × Bool) (v w : Byte) (x : Bool) (p : Byte × Bool) : Prop :=
  isBcd v = true → isBcd w = true → p = op v w x

theorem DecimalResult.decimalSum {v w r : Byte} {x c : Bool} (h : DecimalResult bcdAdd v w x (r, c)) :
    DecimalSum v w x r c := fun hv hw => by
  obtain ⟨rfl, rfl⟩ := Prod.mk.inj (h hv hw)
  exact decimalSum_bcdAdd v w x hv hw

/-- The result is found without a change but to the counter of free values. -/
theorem decimal_run (op : Byte → Byte → Bool → Byte × Bool) (v w : Byte) (s : State) :
    ∃ p k, (decimal op v w).run s = .ok p { s with draws := k } ∧ DecimalResult op v w s.sr.x p := by
  unfold decimal
  by_cases h : (isBcd v && isBcd w) = true
  · rw [if_pos h]
    exact ⟨_, _, rfl, fun _ _ => rfl⟩
  · rw [if_neg h]
    exact ⟨_, _, rfl, fun hv hw => absurd (by rw [hv, hw]; rfl) h⟩

theorem put_with_draws (sz : Size) (l : Loc) (v : BitVec sz.bits) (s : State) (k : Nat) :
    l.put sz v { s with draws := k } = { l.put sz v s with draws := k } := by
  cases l with
  | areg r =>
    simp only [Loc.put, State.setA, State.setSp]
    split_ifs <;> rfl
  | dreg r | mem a sp | imm v => rfl

/-- The value of the `k`-th free flag of a run (R9). -/
def freeFlag (k : Nat) : Bool := ((Config.free k).setWidth 1).getLsbD 0

theorem drawFlag_run (s : State) : drawFlag.run s = .ok (freeFlag s.draws) { s with draws := s.draws + 1 } := rfl

/-- A decimal operation whose write answers: a result that it can have, with any N and V. -/
theorem decimalOp_run (op : Byte → Byte → Bool → Byte × Bool) (v w : Byte) {l : Loc} (words : Nat) {s : State}
    (hl : l.writeError .b s = none) :
    ∃ (n o c : Bool) (k : Nat) (r : Byte), DecimalResult op v w s.sr.x (r, c) ∧
      (decimalOp op v w l words).run s =
        .ok () (({ l.put .b r s with draws := k }.setSr (decimalFlagsOf r c n o s.sr)).advance words) := by
  obtain ⟨⟨r, c⟩, k, hrun, hresult⟩ := decimal_run op v w s
  have hl' : l.writeError .b { s with draws := k } = none := (Loc.writeError_congr rfl rfl rfl .b l).trans hl
  have hput : l.put .b r { s with draws := k } = { l.put .b r s with draws := k } := put_with_draws .b l r s k
  have hsr : (l.put .b r s).sr = s.sr := Loc.put_sr .b l r s
  refine ⟨freeFlag k, freeFlag (k + 1), c, k + 2, r, hresult, ?_⟩
  refine (Exec.bind_ok _ hrun).trans ((Exec.bind_ok _ (writeLoc_ok hl')).trans ?_)
  rw [hput, ← hsr]
  simp only [EStateM.run_bind, drawFlag_run, EStateM.run_modify]
  rfl

/-! ### The register-pair forms -/

/-- A decimal register-pair form on two data registers. -/
theorem decimalPair_reg (op : Byte → Byte → Bool → Byte × Bool) (y x : Reg) (s : State) :
    ∃ (n o c : Bool) (k : Nat) (r : Byte), DecimalResult op (s.getDn .b y) (s.getDn .b x) s.sr.x (r, c) ∧
      (decimalPair op false y x).run s =
        .ok () (({ s.setDn .b x r with draws := k }.setSr (decimalFlagsOf r c n o s.sr)).advance 1) :=
  decimalOp_run op (s.getDn .b y) (s.getDn .b x) (l := .dreg x) 1 rfl

/-- A decimal register-pair form on two bytes of memory that answer. -/
theorem decimalPair_mem (op : Byte → Byte → Bool → Byte × Bool) {y x : Reg} {s : State} {b a : Long} {u : State}
    (hb : b = s.getA y - stepOf y .b) (ha : a = (s.setA y b).getA x - stepOf x .b) (hu : u = (s.setA y b).setA x a)
    (h1 : answers s .read .b b = true) (h2 : answers s .read .b a = true) (h3 : answers s .write .b a = true) :
    ∃ (n o c : Bool) (k : Nat) (r : Byte), DecimalResult op (s.mem.byte b) (s.mem.byte a) s.sr.x (r, c) ∧
      (decimalPair op true y x).run s =
        .ok () (({ u with mem := s.mem.setByte a r, draws := k }.setSr (decimalFlagsOf r c n o s.sr)).advance 1) := by
  have hmem : u.mem = s.mem := by simp [hu]
  have hsr : u.sr = s.sr := by simp [hu]
  have hl : (Loc.mem a .data).writeError .b u = none :=
    (Loc.writeError_congr (s := s) (by simp [hu]) (by simp [hu]) (by simp [hu]) _ _).trans
      (accessError_of_answers h3 .data)
  obtain ⟨n, o, c, k, r, hresult, hrun⟩ := decimalOp_run op (s.mem.byte b) (s.mem.byte a) 1 hl
  have hops := pairOperands_mem hb ha hu (accessError_of_answers h1 .data) (accessError_of_answers h2 .data)
  refine ⟨n, o, c, k, r, hsr ▸ hresult, ?_⟩
  rw [← hsr, ← hmem]
  exact (Exec.bind_ok _ hops).trans hrun

/-- Settles O31: on both kinds of operand the result is one that `bcdAdd` allows. -/
theorem decimalAddResults : Obligations.DecimalAddResults := by
  intro y x s
  constructor
  · obtain ⟨n, o, c, k, r, hresult, hrun⟩ := decimalPair_reg bcdAdd y x s
    exact ⟨n, o, c, k, r, hresult.decimalSum, run_of_ok hrun⟩
  · intro b t a u hb ha hw
    obtain ⟨n, o, c, k, r, hresult, hrun⟩ := decimalPair_mem bcdAdd (u := u) rfl rfl rfl hb ha hw
    exact ⟨n, o, c, k, r, hresult.decimalSum, run_of_ok hrun⟩

end Sys2Proof.Proofs.Decimal
end

section
/-! SUPPORT. Multiplication and division (`42_multiply_divide.md`): the model's products, quotients and remainders as the
integers they stand for, and what a division does when it fits, when it overflows and when its divisor is zero. -/

namespace Sys2Proof.Proofs.MultiplyDivide

open Sys2Proof.Machine Sys2Proof.Claims Sys2Proof.Proofs.Shapes Sys2Proof.Proofs.Decimal

/-! ### Products -/

theorem muluProduct_eq_ofNat (v w : Word) : muluProduct v w = BitVec.ofNat 32 (v.toNat * w.toNat) := by
  rw [muluProduct, BitVec.ofNat_mul, BitVec.ofNat_toNat, BitVec.ofNat_toNat]

theorem mulsProduct_eq_ofInt (v w : Word) : mulsProduct v w = BitVec.ofInt 32 (v.toInt * w.toInt) :=
  (BitVec.ofInt_mul v.toInt w.toInt).symm

/-- A product of two words has 32 bits (R263). -/
theorem toNat_ofNat_product (v w : Word) : (BitVec.ofNat 32 (v.toNat * w.toNat)).toNat = v.toNat * w.toNat :=
  (BitVec.toNat_ofNat _ _).trans (Nat.mod_eq_of_lt BitVec.toNat_mul_toNat_lt)

/-- A signed product of two words is at most 2^30 in absolute value, so it has 32 bits (R262). -/
theorem toInt_ofInt_product (v w : Word) : (BitVec.ofInt 32 (v.toInt * w.toInt)).toInt = v.toInt * w.toInt := by
  have hle : v.toInt * w.toInt ≤ 2 ^ 30 := BitVec.toInt_mul_toInt_le
  have hge : -2 ^ 30 ≤ v.toInt * w.toInt := BitVec.le_toInt_mul_toInt
  refine BitVec.toInt_ofInt_eq_self (by decide) ?_ ?_ <;> omega

theorem run_multiply (product : Word → Word → Long) {ea : EA} (d : Reg) {s : State} {l : Loc} {t : State}
    (he : evalEA (s.npc 1) .w ea s = (l, t)) (hr : reads .w l t = true) :
    run (multiply product ea d) s = .next (((t.setD d (product (l.value .w t) (s.getDn .w d))).setSr
      (testOf (product (l.value .w t) (s.getDn .w d)) s.sr)).advance (1 + ea.words .w)) := by
  have hsr : t.sr = s.sr := by simpa [he] using evalEA_sr (s.npc 1) .w ea s
  have hd : t.getDn .w d = s.getDn .w d := by simpa [he] using evalEA_getDn (s.npc 1) .w .w ea s d
  rw [← hsr, ← hd]
  exact run_of_ok (Exec.bind_ok _ (source_ok (own := 0) he (readError_of_reads hr)))

/-- Settles O28: the product that the model computes on 32 bits is that of the integers, which fits. -/
theorem multiplyResults : Obligations.MultiplyResults := by
  intro ea d s p v w hr
  constructor
  case left =>
    refine ⟨toNat_ofNat_product v w, ?_⟩
    rw [← muluProduct_eq_ofNat]
    exact run_multiply muluProduct d rfl hr
  case right =>
    refine ⟨toInt_ofInt_product v w, ?_⟩
    rw [← mulsProduct_eq_ofInt]
    exact run_multiply mulsProduct d rfl hr

/-! ### Exception entry -/

/-- An exception whose frame and vector answer (R440). -/
theorem exception_ok {v : Nat} {savedPc : Long} {s : State} (h : canEnter v s = true) :
    (exception v savedPc).run s = .ok () (entered v savedPc s) := by
  have hvector : vectorAddress v = 4 * BitVec.ofNat 32 v := BitVec.zero_add _
  simp only [canEnter, Bool.and_eq_true, ← hvector] at h
  obtain ⟨⟨hpc, hsr⟩, hload⟩ := h
  have hrun := enterException_ok (enter := StatusReg.enter) (savedPc := savedPc) rfl (accessError_of_answers hpc .data)
    (accessError_of_answers hsr .data) (accessError_of_answers hload .data)
  rw [State.enteredBy, hvector] at hrun
  exact hrun

/-! ### What a division does -/

/-- Division by zero draws N, Z and V, and takes vector 5 from a state that differs in the flags and the counter of free
values, on which entering does not depend (R434). -/
theorem divideByZero_run (npc : Long) {s : State} (h : canEnter 5 s = true) :
    ∃ (n z o : Bool) (k : Nat), (divideByZero npc).run s =
      .ok () (entered 5 npc ({ s with draws := k }.setSr { s.sr with n := n, z := z, v := o, c := false })) := by
  refine ⟨freeFlag s.draws, freeFlag (s.draws + 1), freeFlag (s.draws + 2), s.draws + 3, ?_⟩
  unfold divideByZero
  simp only [EStateM.run_bind, drawFlag_run, EStateM.run_modify]
  exact exception_ok h

theorem divideOverflow_run (words : Nat) (s : State) :
    ∃ (n z : Bool) (k : Nat), (divideOverflow words).run s =
      .ok () (({ s with draws := k }.setSr { s.sr with n := n, z := z, v := true, c := false }).advance words) :=
  ⟨freeFlag s.draws, freeFlag (s.draws + 1), s.draws + 2, rfl⟩

section

variable {result : Word → Long → Option (Word × Word)} {ea : EA} {d : Reg} {s : State} {l : Loc} {t : State}

/-- After its source operand a division goes one of three ways. -/
theorem divide_run (he : evalEA (s.npc 1) .w ea s = (l, t)) (hr : reads .w l t = true) :
    (divide result ea d).run s =
      if l.value .w t = 0 then (divideByZero (s.npc (1 + ea.words .w))).run t
      else match result (l.value .w t) (s.getD d) with
        | none => (divideOverflow (1 + ea.words .w)).run t
        | some (q, m) => .ok () (((t.setD d (m ++ q)).setSr (testOf q s.sr)).advance (1 + ea.words .w)) := by
  have hsr : t.sr = s.sr := by simpa [he] using evalEA_sr (s.npc 1) .w ea s
  have hd : t.getD d = s.getD d := by simpa [he] using evalEA_getD (s.npc 1) .w ea s d
  have hnpc : t.npc (1 + ea.words .w) = s.npc (1 + ea.words .w) := by
    simpa [he] using evalEA_npc (s.npc 1) .w ea s (1 + ea.words .w)
  rw [← hsr, ← hd, ← hnpc]
  refine (Exec.bind_ok _ (source_ok (own := 0) he (readError_of_reads hr))).trans ?_
  simp only [EStateM.run_bind, EStateM.run_get, Exec.run_ite]
  cases result (l.value .w t) (t.getD d) <;> rfl

/-- A quotient that fits: the remainder above it in Dn, N and Z from it. -/
theorem run_divide_of_some (he : evalEA (s.npc 1) .w ea s = (l, t)) (hr : reads .w l t = true) (hv : l.value .w t ≠ 0)
    {q m : Word} (h : result (l.value .w t) (s.getD d) = some (q, m)) :
    run (divide result ea d) s = .next (((t.setD d (m ++ q)).setSr (testOf q s.sr)).advance (1 + ea.words .w)) :=
  run_of_ok (by rw [divide_run he hr, if_neg hv, h])

/-- An overflow: Dn is kept, N and Z are free. -/
theorem run_divide_of_none (he : evalEA (s.npc 1) .w ea s = (l, t)) (hr : reads .w l t = true) (hv : l.value .w t ≠ 0)
    (h : result (l.value .w t) (s.getD d) = none) :
    ∃ (n z : Bool) (k : Nat), run (divide result ea d) s = .next
      (({ t with draws := k }.setSr { s.sr with n := n, z := z, v := true, c := false }).advance (1 + ea.words .w)) := by
  have hsr : t.sr = s.sr := by simpa [he] using evalEA_sr (s.npc 1) .w ea s
  obtain ⟨n, z, k, hrun⟩ := divideOverflow_run (1 + ea.words .w) t
  exact ⟨n, z, k, run_of_ok (by rw [divide_run he hr, if_neg hv, h, ← hsr, hrun])⟩

/-- A zero divisor: vector 5, N, Z and V are free. -/
theorem run_divide_of_zero (he : evalEA (s.npc 1) .w ea s = (l, t)) (hr : reads .w l t = true) (hv : l.value .w t = 0)
    (h : canEnter 5 t = true) :
    ∃ (n z o : Bool) (k : Nat), run (divide result ea d) s = .next
      (entered 5 (s.npc (1 + ea.words .w))
        ({ t with draws := k }.setSr { s.sr with n := n, z := z, v := o, c := false })) := by
  have hsr : t.sr = s.sr := by simpa [he] using evalEA_sr (s.npc 1) .w ea s
  obtain ⟨n, z, o, k, hrun⟩ := divideByZero_run (s.npc (1 + ea.words .w)) h
  exact ⟨n, z, o, k, run_of_ok (by rw [divide_run he hr, if_pos hv, ← hsr, hrun])⟩

end

/-! ### DIVU -/

/-- A quotient of 16 bits; the remainder is below the divisor, so it has 16 bits too (R260). -/
theorem divuResult_of_lt {v : Word} {w : Long} (hv : v.toNat ≠ 0) (h : w.toNat / v.toNat < 2 ^ 16) :
    ∃ q m : Word, q.toNat = w.toNat / v.toNat ∧ m.toNat = w.toNat % v.toNat ∧ divuResult v w = some (q, m) := by
  have hmod : w.toNat % v.toNat < 2 ^ 16 := (Nat.mod_lt _ (Nat.pos_of_ne_zero hv)).trans v.isLt
  exact ⟨_, _, (BitVec.toNat_ofNat _ _).trans (Nat.mod_eq_of_lt h), (BitVec.toNat_ofNat _ _).trans (Nat.mod_eq_of_lt hmod),
    if_pos (Nat.le_of_lt_succ h)⟩

theorem divuResult_of_le {v : Word} {w : Long} (h : 2 ^ 16 ≤ w.toNat / v.toNat) : divuResult v w = none :=
  if_neg (Nat.not_le.2 h)

/-- Settles O29: the three ways of a division, told apart by the divisor and the quotient. -/
theorem divideUnsignedResults : Obligations.DivideUnsignedResults := by
  intro ea d s p v w hr
  refine ⟨?fits, ?overflow, ?zero⟩
  case fits =>
    intro hv hq
    obtain ⟨q, m, hquot, hrem, hres⟩ := divuResult_of_lt hv hq
    exact ⟨q, m, hquot, hrem, run_divide_of_some rfl hr (BitVec.toNat_ne.2 hv) hres⟩
  case overflow =>
    intro hv hq
    exact run_divide_of_none rfl hr (BitVec.toNat_ne.2 hv) (divuResult_of_le hq)
  case zero =>
    intro hv henter
    exact run_divide_of_zero rfl hr (BitVec.eq_of_toNat_eq hv) henter

/-! ### DIVS -/

theorem fits_word_iff (z : Int) : fits 16 z = true ↔ -32768 ≤ z ∧ z ≤ 32767 := by
  simp only [fits, decide_eq_true_eq]
  omega

theorem toInt_ofInt_of_fits {z : Int} (h : fits 16 z = true) : (BitVec.ofInt 16 z).toInt = z := by
  rw [fits_word_iff] at h
  refine BitVec.toInt_ofInt_eq_self (by decide) ?_ ?_ <;> omega

/-- The remainder is smaller than the divisor in absolute value. -/
theorem fits_tmod (w : Int) {v : Word} (hv : v.toInt ≠ 0) : fits 16 (w.tmod v.toInt) = true := by
  have hle : -2 ^ 15 ≤ v.toInt := v.le_toInt
  have hlt : v.toInt < 2 ^ 15 := BitVec.toInt_lt
  have hmod : w.natAbs % v.toInt.natAbs < v.toInt.natAbs := Nat.mod_lt _ (Int.natAbs_pos.2 hv)
  rw [← Int.natAbs_tmod] at hmod
  rw [fits_word_iff]
  omega

/-- A remainder other than zero has the sign of the dividend (R261). -/
theorem tmod_neg_iff {w v : Int} (h : w.tmod v ≠ 0) : w.tmod v < 0 ↔ w < 0 := by
  have hdvd : ¬ v ∣ w := fun hd => h (Int.tmod_eq_zero_of_dvd hd)
  have hsign := Int.sign_tmod w v
  rw [if_neg hdvd] at hsign
  rw [← Int.sign_eq_neg_one_iff_neg, hsign, Int.sign_eq_neg_one_iff_neg]

theorem sub_tdiv_mul_eq_tmod (w v : Int) : w - w.tdiv v * v = w.tmod v := by
  rw [Int.tmod_def, Int.mul_comm]

/-- A quotient of 16 bits, rounded toward zero, and its remainder (R261). -/
theorem divsResult_of_fits {v : Word} {w : Long} (hv : v.toInt ≠ 0) (h : fits 16 (w.toInt.tdiv v.toInt) = true) :
    ∃ q m : Word, q.toInt = w.toInt.tdiv v.toInt ∧ m.toInt = w.toInt.tmod v.toInt ∧ divsResult v w = some (q, m) := by
  refine ⟨_, _, toInt_ofInt_of_fits h, toInt_ofInt_of_fits (fits_tmod w.toInt hv), ?_⟩
  rw [← sub_tdiv_mul_eq_tmod]
  exact if_pos ((fits_word_iff _).1 h)

theorem divsResult_of_not_fits {v : Word} {w : Long} (h : fits 16 (w.toInt.tdiv v.toInt) = false) :
    divsResult v w = none :=
  if_neg fun hq => Bool.eq_false_iff.1 h ((fits_word_iff _).2 hq)

/-- Settles O30: as for DIVU, with the remainder as the one that truncation leaves. -/
theorem divideSignedResults : Obligations.DivideSignedResults := by
  intro ea d s p v w hr
  refine ⟨?fits, ?overflow, ?zero⟩
  case fits =>
    intro hv hq
    obtain ⟨q, m, hquot, hrem, hres⟩ := divsResult_of_fits hv hq
    refine ⟨q, m, hquot, hrem.trans (sub_tdiv_mul_eq_tmod w v).symm, fun hm => ?_,
      run_divide_of_some rfl hr (BitVec.toInt_ne.1 hv) hres⟩
    rw [hrem] at hm ⊢
    exact tmod_neg_iff hm
  case overflow =>
    intro hv hq
    exact run_divide_of_none rfl hr (BitVec.toInt_ne.1 hv) (divsResult_of_not_fits hq)
  case zero =>
    intro hv henter
    exact run_divide_of_zero rfl hr (BitVec.eq_of_toInt_eq hv) henter

end Sys2Proof.Proofs.MultiplyDivide
end

section
/-! SUPPORT. The logical instructions (`43_logic.md`): each is a bitwise operation of two operands, which the model takes
with the destination first and the statement with the source first. -/

namespace Sys2Proof.Proofs.Logic

open Sys2Proof.Machine Sys2Proof.Claims Sys2Proof.Proofs.Shapes

/-- The model's flags of a logical result are those of R287. -/
theorem logicResult_eq {n : Nat} (r : BitVec n) (f : StatusReg) : logicResult r f = (r, testOf r f) := rfl

section

variable {i : Instr} {own : Nat} {sz : Size} {ea : EA} {s : State}

/-- A logical operation of an operand and Dn is known by its bits alone, the flags being those of the result. -/
theorem toData_of_logic {d : Reg} {op op' : BitVec sz.bits → BitVec sz.bits → BitVec sz.bits}
    (h : exec i s = run (sourceToDn sz ea d fun v w => logicResult (op v w)) s) (hop : ∀ v w, op v w = op' v w) :
    ToData i sz ea d (fun v w f => (op' v w, testOf (op' v w) f)) s := by
  simp only [← hop, ← logicResult_eq]
  exact toData_of_exec h

/-- As `toData_of_logic`, for an operand changed at its one location. -/
theorem modifies_of_logic {op op' : BitVec sz.bits → BitVec sz.bits}
    (h : exec i s = run (modifyEA own sz ea fun w => logicResult (op w)) s) (hop : ∀ w, op w = op' w) :
    Modifies i own sz ea (fun w f => (op' w, testOf (op' w) f)) s := by
  simp only [← hop, ← logicResult_eq]
  exact modifies_of_exec h

end

/-- Settles O33: AND, OR and EOR do not depend on the order of their operands, and NOT is an exclusive OR with ones. -/
theorem logicResults : Obligations.LogicResults := by
  intro sz ea d v s
  refine ⟨?andEaDn, ?orEaDn, ?andDnEa, ?orDnEa, ?eor, ?andi, ?ori, ?eori, ?not⟩
  case andEaDn => exact toData_of_logic rfl fun a b => BitVec.and_comm b a
  case orEaDn => exact toData_of_logic rfl fun a b => BitVec.or_comm b a
  case andDnEa | andi => exact modifies_of_logic rfl fun w => BitVec.and_comm w _
  case orDnEa | ori => exact modifies_of_logic rfl fun w => BitVec.or_comm w _
  case eor | eori => exact modifies_of_logic rfl fun w => BitVec.xor_comm w _
  case not => exact modifies_of_logic rfl fun w => BitVec.allOnes_xor.symm

end Sys2Proof.Proofs.Logic
end

section
/-! SUPPORT. Shifts and rotates (`44_shift_rotate.md`): the model repeats a one-bit step, and each closed form is what
that step carries from one count to the next. -/

namespace Sys2Proof.Proofs.ShiftRotate

open Sys2Proof.Machine Sys2Proof.Claims Sys2Proof.Proofs.Shapes Sys2Proof.Proofs.Arithmetic

/-! ### Instructions -/

/-- The two forms of a shift or rotate share one operation, known on the operand sizes only. -/
theorem shifts_of_exec {reg : Size → ShiftCount → Reg → Instr} {mem : EA → Instr} {s : State} (op : ShiftOp)
    {closed : (n : Nat) → BitVec n → Nat → StatusReg → Result n}
    (hreg : ∀ sz c r, exec (reg sz c r) s = .next (shiftDn op sz c r s))
    (hmem : ∀ ea, exec (mem ea) s = run (shiftEA op ea) s)
    (hop : ∀ (sz : Size) v c f, op sz.bits v c f = closed sz.bits v c f) : Shifts reg mem closed s := by
  constructor
  case left =>
    intro sz c r
    simp only [← hop]
    exact hreg sz c r
  case right =>
    intro ea
    simp only [← hop]
    exact modifies_of_exec (hmem ea)

/-! ### Repetition (R301) -/

theorem repeatStep_succ {α : Type} (step : α → α) (c : Nat) (p : α) :
    repeatStep step (c + 1) p = step (repeatStep step c p) := by
  induction c generalizing p with
  | zero => rfl
  | succ c ih => exact ih (step p)

/-- A closed form `g` of a repetition: it starts where the repetition does, and one step leads to the next count. -/
theorem repeatStep_eq {α : Type} {step : α → α} {p : α} (g : Nat → α) (hstart : g 0 = p)
    (hstep : ∀ c, step (g c) = g (c + 1)) (c : Nat) : repeatStep step c p = g c := by
  induction c with
  | zero => exact hstart.symm
  | succ c ih => rw [repeatStep_succ, ih, hstep]

section

variable {n : Nat} {step : Result n → Result n} {r : Nat → BitVec n} {v : BitVec n}

/-- A shift: `r` its results, `out` the bit that each step shifts out, `o` its V. -/
theorem shiftBy_eq_shiftedFlags {out o : Nat → Bool} (hr : r 0 = v) (ho : o 0 = false)
    (hstep : ∀ c (f : StatusReg), f.v = o c →
      step (r c, f) = (r (c + 1), { f with x := out (c + 1), v := o (c + 1), c := out (c + 1) }))
    (c : Nat) (f : StatusReg) : shiftBy step v c f = shiftedFlags (r c) c (out c) (o c) f :=
  congrArg signZero <| repeatStep_eq (step := step) (p := (v, { f with v := false, c := false }))
    (fun k => (r k, { f with x := if k = 0 then f.x else out k, c := decide (k ≠ 0) && out k, v := o k }))
    (by simp [hr, ho]) (fun k => by simpa using hstep k _ rfl) c

/-- A rotate without extend: `out` is the bit that each step moves round. -/
theorem shiftBy_eq_of_rotate {out : Nat → Bool} (hr : r 0 = v)
    (hstep : ∀ c (f : StatusReg), step (r c, f) = (r (c + 1), { f with c := out (c + 1) })) (c : Nat) (f : StatusReg) :
    shiftBy step v c f = (r c, signZeroOf (r c) { f with c := decide (c ≠ 0) && out c, v := false }) :=
  congrArg signZero <| repeatStep_eq (step := step) (p := (v, { f with v := false, c := false }))
    (fun k => (r k, { f with c := decide (k ≠ 0) && out k, v := false }))
    (by simp [hr]) (fun k => by simpa using hstep k _) c

/-- A rotate through extend: `x` is X after each step. -/
theorem rotateExtendBy_eq {x : Nat → Bool} {f : StatusReg} (hr : r 0 = v) (hx : x 0 = f.x)
    (hstep : ∀ c (f : StatusReg), step (r c, { f with x := x c }) = (r (c + 1), { f with x := x (c + 1) })) (c : Nat) :
    rotateExtendBy step v c f = (r c, signZeroOf (r c) { f with x := x c, c := x c, v := false }) := by
  have hrun := repeatStep_eq (p := (v, { f with v := false })) (fun k => (r k, { f with x := x k, v := false }))
    (by simp [hr, hx]) (fun k => hstep k { f with v := false }) c
  rw [rotateExtendBy, hrun]
  rfl

end

/-! ### Shifts -/

/-- ASL's V, a change from one step to the next, against the closed form's, a difference from the first bit `a`: once
some bit has differed both stay set, and before that the last bit is `a` itself. -/
theorem any_range_ne_succ (b : Nat → Bool) (a : Bool) (c : Nat) :
    (((List.range (c + 1)).any fun k => b k != a) || b (c + 1) != b c) =
      (List.range (c + 1 + 1)).any fun k => b k != a := by
  simp only [List.range_succ, List.any_append, List.any_cons, List.any_nil, Bool.or_false, Bool.or_assoc]
  cases b c <;> cases a <;> simp

theorem aslResult_eq {n : Nat} (v : BitVec n) (c : Nat) (f : StatusReg) : aslResult n v c f = aslOf v c f :=
  shiftBy_eq_shiftedFlags (r := fun k => v <<< k) (out := fun k => (v <<< (k - 1)).msb)
    (o := fun k => (List.range (k + 1)).any fun j => (v <<< j).msb != v.msb)
    (BitVec.shiftLeft_zero v) (by simp [BitVec.shiftLeft_zero v, -BitVec.msb_shiftLeft])
    (fun k f hv => by
      simp only [aslStep, hv, ← BitVec.shiftLeft_add, any_range_ne_succ fun j => (v <<< j).msb, Nat.add_sub_cancel])
    c f

theorem asrResult_eq {n : Nat} (v : BitVec n) (c : Nat) (f : StatusReg) : asrResult n v c f = asrOf v c f :=
  shiftBy_eq_shiftedFlags (r := v.sshiftRight) (out := fun k => (v.sshiftRight (k - 1)).getLsbD 0) (o := fun _ => false)
    BitVec.sshiftRight_zero rfl
    (fun k f hv => by simp only [asrStep, hv, ← BitVec.sshiftRight_add, Nat.add_sub_cancel]) c f

theorem lslResult_eq {n : Nat} (v : BitVec n) (c : Nat) (f : StatusReg) : lslResult n v c f = lslOf v c f :=
  shiftBy_eq_shiftedFlags (r := fun k => v <<< k) (out := fun k => (v <<< (k - 1)).msb) (o := fun _ => false)
    (by simp) rfl (fun k f hv => by simp only [lslStep, hv, ← BitVec.shiftLeft_add, Nat.add_sub_cancel]) c f

theorem lsrResult_eq {n : Nat} (v : BitVec n) (c : Nat) (f : StatusReg) : lsrResult n v c f = lsrOf v c f :=
  shiftBy_eq_shiftedFlags (r := fun k => v >>> k) (out := fun k => (v >>> (k - 1)).getLsbD 0) (o := fun _ => false)
    (by simp) rfl (fun k f hv => by simp only [lsrStep, hv, ← BitVec.shiftRight_add, Nat.add_sub_cancel]) c f

/-- Settles O34: each closed form follows its one-bit step, and the register and memory forms share it. -/
theorem shiftResults : Obligations.ShiftResults := fun _ =>
  ⟨shifts_of_exec aslResult (fun _ _ _ => rfl) (fun _ => rfl) fun _ => aslResult_eq,
    shifts_of_exec asrResult (fun _ _ _ => rfl) (fun _ => rfl) fun _ => asrResult_eq,
    shifts_of_exec lslResult (fun _ _ _ => rfl) (fun _ => rfl) fun _ => lslResult_eq,
    shifts_of_exec lsrResult (fun _ _ _ => rfl) (fun _ => rfl) fun _ => lsrResult_eq⟩

/-! ### Rotation by one bit more -/

section

variable {n : Nat}

/-- A value moved up by one bit with `b` put in below, known by its bits. -/
theorem shiftLeft_or_bit_eq {r r' : BitVec n} {b : Bool} (hin : 0 < n → r'.getLsbD 0 = b)
    (hmove : ∀ i, i + 1 < n → r'.getLsbD (i + 1) = r.getLsbD i) : (r <<< 1) ||| bit n b = r' := by
  apply BitVec.eq_of_getLsbD_eq
  intro i hi
  cases i with
  | zero => rw [hin hi]; cases b <;> simp [bit, hi]
  | succ i => rw [hmove i hi]; cases b <;> simp [bit, hi, BitVec.getLsbD_eq_getElem (Nat.lt_of_succ_lt hi)]

/-- A value moved down by one bit with `b` put in above, known by its bits. -/
theorem shiftRight_or_bit_eq {r r' : BitVec n} {b : Bool} (hin : 0 < n → r'.getLsbD (n - 1) = b)
    (hmove : ∀ i, i + 1 < n → r'.getLsbD i = r.getLsbD (i + 1)) :
    (r >>> 1) ||| (bit n b <<< (n - 1)) = r' := by
  apply BitVec.eq_of_getLsbD_eq
  intro i hi
  have hpos : 0 < n := Nat.zero_lt_of_lt hi
  by_cases hlast : i = n - 1
  · subst hlast
    have hout : r.getLsbD (1 + (n - 1)) = false := BitVec.getLsbD_of_ge _ _ (by omega)
    rw [hin hpos]
    cases b <;> simp [bit, hi, hout]
  · have hlow : i < n - 1 := by omega
    rw [hmove i (by omega)]
    simp [hlow, Nat.add_comm]

theorem add_one_mod_cases (c : Nat) (hn : 0 < n) :
    c % n + 1 < n ∧ (c + 1) % n = c % n + 1 ∨ c % n + 1 = n ∧ (c + 1) % n = 0 := by
  have hle : c % n + 1 ≤ n := Nat.mod_lt c hn
  rw [← Nat.mod_add_mod]
  rcases hle.lt_or_eq with hlt | hlast
  · exact .inl ⟨hlt, Nat.mod_eq_of_lt hlt⟩
  · exact .inr ⟨hlast, by rw [hlast, Nat.mod_self]⟩

variable (v : BitVec n) (c : Nat)

theorem rotateLeft_zero : v.rotateLeft 0 = v := by simp [BitVec.rotateLeft_def, BitVec.ushiftRight_eq_zero]

theorem rotateRight_zero : v.rotateRight 0 = v := by simp [BitVec.rotateRight_def]

theorem getLsbD_rotateLeft_of_lt {i : Nat} (hi : i < n) :
    (v.rotateLeft c).getLsbD i = v.getLsbD (if i < c % n then n - c % n + i else i - c % n) := by
  rw [BitVec.getLsbD_rotateLeft]
  split_ifs with h <;> simp [h, hi]

theorem getLsbD_rotateRight_of_lt {i : Nat} (hi : i < n) :
    (v.rotateRight c).getLsbD i = v.getLsbD (if i < n - c % n then c % n + i else i - (n - c % n)) := by
  rw [BitVec.getLsbD_rotateRight]
  split_ifs with h <;> simp [h, hi]

theorem getLsbD_zero_rotateLeft_succ : (v.rotateLeft (c + 1)).getLsbD 0 = (v.rotateLeft c).msb := by
  rcases Nat.eq_zero_or_pos n with rfl | hn
  · simp
  rw [BitVec.msb_eq_getLsbD_last, getLsbD_rotateLeft_of_lt v _ hn,
    getLsbD_rotateLeft_of_lt v _ (Nat.sub_one_lt_of_lt hn)]
  congr 1
  rcases add_one_mod_cases c hn with ⟨hlt, heq⟩ | ⟨hlast, heq⟩ <;> split_ifs <;> omega

theorem getLsbD_succ_rotateLeft_succ {i : Nat} (hi : i + 1 < n) :
    (v.rotateLeft (c + 1)).getLsbD (i + 1) = (v.rotateLeft c).getLsbD i := by
  rw [getLsbD_rotateLeft_of_lt v _ hi, getLsbD_rotateLeft_of_lt v _ (Nat.lt_of_succ_lt hi)]
  congr 1
  rcases add_one_mod_cases c (Nat.zero_lt_of_lt hi) with ⟨hlt, heq⟩ | ⟨hlast, heq⟩ <;> split_ifs <;> omega

theorem getLsbD_last_rotateRight_succ : (v.rotateRight (c + 1)).getLsbD (n - 1) = (v.rotateRight c).getLsbD 0 := by
  rcases Nat.eq_zero_or_pos n with rfl | hn
  · simp
  rw [getLsbD_rotateRight_of_lt v _ (Nat.sub_one_lt_of_lt hn), getLsbD_rotateRight_of_lt v _ hn]
  congr 1
  rcases add_one_mod_cases c hn with ⟨hlt, heq⟩ | ⟨hlast, heq⟩ <;> split_ifs <;> omega

theorem getLsbD_rotateRight_succ {i : Nat} (hi : i + 1 < n) :
    (v.rotateRight (c + 1)).getLsbD i = (v.rotateRight c).getLsbD (i + 1) := by
  rw [getLsbD_rotateRight_of_lt v _ (Nat.lt_of_succ_lt hi), getLsbD_rotateRight_of_lt v _ hi]
  congr 1
  rcases add_one_mod_cases c (Nat.zero_lt_of_lt hi) with ⟨hlt, heq⟩ | ⟨hlast, heq⟩ <;> split_ifs <;> omega

end

/-! ### Rotates -/

theorem rolResult_eq {n : Nat} (v : BitVec n) (c : Nat) (f : StatusReg) : rolResult n v c f = rolOf v c f :=
  shiftBy_eq_of_rotate (r := v.rotateLeft) (out := fun k => (v.rotateLeft k).getLsbD 0) (rotateLeft_zero v)
    (fun k f => by
      rw [rolStep, getLsbD_zero_rotateLeft_succ,
        shiftLeft_or_bit_eq (fun _ => getLsbD_zero_rotateLeft_succ v k) fun _ => getLsbD_succ_rotateLeft_succ v k]) c f

theorem rorResult_eq {n : Nat} (v : BitVec n) (c : Nat) (f : StatusReg) : rorResult n v c f = rorOf v c f :=
  shiftBy_eq_of_rotate (r := v.rotateRight) (out := fun k => (v.rotateRight k).msb) (rotateRight_zero v)
    (fun k f => by
      rw [rorStep, BitVec.msb_eq_getLsbD_last, getLsbD_last_rotateRight_succ,
        shiftRight_or_bit_eq (fun _ => getLsbD_last_rotateRight_succ v k) fun _ => getLsbD_rotateRight_succ v k]) c f

section

variable {n : Nat} (hn : 0 < n)

theorem getLsbD_extractLsb'_of_lt {m : Nat} (w : BitVec m) (start : Nat) {i : Nat} (hi : i < n) :
    (w.extractLsb' start n).getLsbD i = w.getLsbD (start + i) := by
  rw [BitVec.getLsbD_extractLsb', decide_eq_true hi, Bool.true_and]

include hn

/-- ROXL's step moves X and the operand below it up by one bit, and X round to bit 0. -/
theorem roxlStep_eq {w w' : BitVec (1 + n)} (hin : w'.getLsbD 0 = w.getLsbD n)
    (hmove : ∀ i, i < n → w'.getLsbD (i + 1) = w.getLsbD i) (f : StatusReg) :
    roxlStep (w.extractLsb' 0 n, { f with x := w.getLsbD n }) = (w'.extractLsb' 0 n, { f with x := w'.getLsbD n }) := by
  have hlast : n - 1 < n := Nat.sub_one_lt_of_lt hn
  have hout : (w.extractLsb' 0 n).msb = w'.getLsbD n := by
    rw [BitVec.msb_eq_getLsbD_last, getLsbD_extractLsb'_of_lt w 0 hlast, Nat.zero_add, ← hmove _ hlast,
      Nat.sub_add_cancel hn]
  have hvalue : (w.extractLsb' 0 n <<< 1) ||| bit n (w.getLsbD n) = w'.extractLsb' 0 n :=
    shiftLeft_or_bit_eq (fun _ => by rw [getLsbD_extractLsb'_of_lt w' 0 hn, hin]) fun i hi => by
      have hi' : i < n := Nat.lt_of_succ_lt hi
      rw [getLsbD_extractLsb'_of_lt w' 0 hi, getLsbD_extractLsb'_of_lt w 0 hi', Nat.zero_add, Nat.zero_add, hmove i hi']
  rw [roxlStep, hvalue, hout]

/-- ROXR's step moves the operand and X below it down by one bit, and X round to the top. -/
theorem roxrStep_eq {w w' : BitVec (n + 1)} (hin : w'.getLsbD n = w.getLsbD 0)
    (hmove : ∀ i, i < n → w'.getLsbD i = w.getLsbD (i + 1)) (f : StatusReg) :
    roxrStep (w.extractLsb' 1 n, { f with x := w.getLsbD 0 }) = (w'.extractLsb' 1 n, { f with x := w'.getLsbD 0 }) := by
  have hlast : n - 1 < n := Nat.sub_one_lt_of_lt hn
  have hout : (w.extractLsb' 1 n).getLsbD 0 = w'.getLsbD 0 := by
    rw [getLsbD_extractLsb'_of_lt w 1 hn, hmove 0 hn]
  have hvalue : (w.extractLsb' 1 n >>> 1) ||| (bit n (w.getLsbD 0) <<< (n - 1)) = w'.extractLsb' 1 n :=
    shiftRight_or_bit_eq (fun _ => by rw [getLsbD_extractLsb'_of_lt w' 1 hlast, Nat.add_sub_cancel' hn, hin])
      fun i hi => by
        rw [getLsbD_extractLsb'_of_lt w' 1 (Nat.lt_of_succ_lt hi), getLsbD_extractLsb'_of_lt w 1 hi, Nat.add_comm 1 i,
          hmove _ hi, Nat.add_comm 1]
  rw [roxrStep, hvalue, hout]

end

theorem roxlResult_eq {n : Nat} (hn : 0 < n) (v : BitVec n) (c : Nat) (f : StatusReg) :
    roxlResult n v c f = roxlOf v c f :=
  rotateExtendBy_eq (r := fun k => ((BitVec.ofBool f.x ++ v).rotateLeft k).extractLsb' 0 n)
    (x := fun k => ((BitVec.ofBool f.x ++ v).rotateLeft k).getLsbD n)
    (by rw [rotateLeft_zero, BitVec.extractLsb'_append_eq_right])
    (by rw [rotateLeft_zero, BitVec.getLsbD_append, BitVec.getLsbD_ofBool]; simp)
    (fun k => roxlStep_eq hn
      (by rw [getLsbD_zero_rotateLeft_succ, BitVec.msb_eq_getLsbD_last, Nat.add_sub_cancel_left])
      fun i hi => getLsbD_succ_rotateLeft_succ _ k (by omega)) c

theorem roxrResult_eq {n : Nat} (hn : 0 < n) (v : BitVec n) (c : Nat) (f : StatusReg) :
    roxrResult n v c f = roxrOf v c f :=
  rotateExtendBy_eq (r := fun k => ((v ++ BitVec.ofBool f.x).rotateRight k).extractLsb' 1 n)
    (x := fun k => ((v ++ BitVec.ofBool f.x).rotateRight k).getLsbD 0)
    (by rw [rotateRight_zero, BitVec.extractLsb'_append_eq_left])
    (by rw [rotateRight_zero, BitVec.getLsbD_append, BitVec.getLsbD_ofBool]; simp)
    (fun k => roxrStep_eq hn (getLsbD_last_rotateRight_succ _ k) fun i hi =>
      getLsbD_rotateRight_succ _ k (Nat.succ_lt_succ hi)) c

/-- Settles O35: each closed form follows its one-bit step, through extend on one bit more. -/
theorem rotateResults : Obligations.RotateResults := fun _ =>
  ⟨shifts_of_exec rolResult (fun _ _ _ => rfl) (fun _ => rfl) fun _ => rolResult_eq,
    shifts_of_exec rorResult (fun _ _ _ => rfl) (fun _ => rfl) fun _ => rorResult_eq,
    shifts_of_exec roxlResult (fun _ _ _ => rfl) (fun _ => rfl) fun sz => roxlResult_eq (bits_pos sz),
    shifts_of_exec roxrResult (fun _ _ _ => rfl) (fun _ => rfl) fun sz => roxrResult_eq (bits_pos sz)⟩

end Sys2Proof.Proofs.ShiftRotate
end

section
/-! SUPPORT. Program control (`45_program_control.md`): where each branch, jump, call and return goes, and the
counter of DBcc. -/

namespace Sys2Proof.Proofs.ProgramControl

open Sys2Proof.Machine Sys2Proof.Claims Sys2Proof.Proofs.Shapes

/-! ### Calls and returns -/

/-- A call whose push answers (R332, R335). -/
theorem run_call (ret target : Long) {s : State} (h : answers s .write .l (s.sp - 4) = true) :
    run (call ret target) s =
      .next ({ s.setSp (s.sp - 4) with mem := s.mem.setLong (s.sp - 4) ret }.jump target) :=
  run_of_ok (Exec.bind_ok _ (push_ok (accessError_of_answers h .data)))

/-- A return whose pop answers (R337). -/
theorem run_returnToCaller {s : State} (h : answers s .read .l s.sp = true) :
    run returnToCaller s = .next ((s.setSp (s.sp + 4)).jump (s.mem.long s.sp)) :=
  run_of_ok (Exec.bind_ok _ (pop_ok (accessError_of_answers h .data)))

/-! ### Branches -/

theorem exec_bcc (c : Cond) (d : Disp) (s : State) :
    exec (.bcc c d) s =
      .next (if condHolds s.sr c then s.jump (branchTarget (dispOf d) s) else s.advance (1 + d.words)) :=
  (apply_ite Host.Outcome.next _ _ _).symm

theorem exec_bsr (d : Disp) {s : State} (h : answers s .write .l (s.sp - 4) = true) :
    exec (.bsr d) s =
      .next ({ s.setSp (s.sp - 4) with mem := s.mem.setLong (s.sp - 4) (s.npc (1 + d.words)) }.jump
        (branchTarget (dispOf d) s)) :=
  run_call _ _ h

/-! ### DBcc (R333) -/

section

variable {c : Cond} {s : State}

theorem exec_dbcc_of_cond (r : Reg) (e : Word) (h : condHolds s.sr c = true) :
    exec (.dbcc c r e) s = .next (s.advance 2) :=
  if_pos h

/-- Where the condition fails, the counter decides. -/
theorem exec_dbcc_of_not_cond (r : Reg) (e : Word) (h : condHolds s.sr c = false) :
    exec (.dbcc c r e) s =
      if s.getDn .w r - 1 = 0xFFFF then .next ((s.setDn .w r (s.getDn .w r - 1)).advance 2)
      else .next ((s.setDn .w r (s.getDn .w r - 1)).jump (branchTarget (e.signExtend 32) s)) :=
  if_neg (Bool.eq_false_iff.1 h)

/-- The counter becomes -1 only from 0. -/
theorem sub_one_eq_neg_one_iff (w : Word) : w - 1 = 0xFFFF ↔ w = 0 := sub_eq_neg_self

theorem sub_one_eq_ofNat {w : Word} (h : w ≠ 0) : w - 1 = BitVec.ofNat 16 (w.toNat - 1) := by
  bv_omega

theorem exec_dbcc_of_zero (e : Word) {r : Reg} (h : condHolds s.sr c = false) (hw : s.getDn .w r = 0) :
    exec (.dbcc c r e) s = .next ((s.setDn .w r (-1)).advance 2) := by
  rw [exec_dbcc_of_not_cond r e h, if_pos ((sub_one_eq_neg_one_iff _).2 hw), hw]
  rfl

theorem exec_dbcc_of_ne_zero (e : Word) {r : Reg} (h : condHolds s.sr c = false) (hw : s.getDn .w r ≠ 0) :
    exec (.dbcc c r e) s =
      .next ((s.setDn .w r (BitVec.ofNat 16 ((s.getDn .w r).toNat - 1))).jump (branchTarget (e.signExtend 32) s)) := by
  rw [exec_dbcc_of_not_cond r e h, if_neg (mt (sub_one_eq_neg_one_iff _).1 hw), sub_one_eq_ofNat hw]

end

/-- Settles O43: DBcc by its condition and its counter, then the branches once the displacement's form is known. -/
theorem branchResults : Obligations.BranchResults := by
  intro c d r e s
  refine ⟨⟨?holds, ?expired, ?again⟩, ?branches⟩
  case holds => exact exec_dbcc_of_cond r e
  case expired => exact exec_dbcc_of_zero e
  case again => exact exec_dbcc_of_ne_zero e
  case branches =>
    intro target npc
    have htarget : branchTarget (dispOf d) s = target := by cases d <;> rfl
    have hnpc : s.npc (1 + d.words) = npc := by cases d <;> rfl
    rw [← htarget, ← hnpc]
    exact ⟨exec_bcc c d s, rfl, exec_bsr d⟩

/-! ### Jumps -/

section

variable {ea : EA} (s : State)

/-- A control mode steps no register, so nothing but control moves (R334). -/
theorem exec_jmp (hea : ea.mode.isControl = true) :
    exec (.jmp ea) s = .next (s.jump (evalEA (s.npc 1) .l ea s).1.addr) :=
  congrArg (fun t : State => Host.Outcome.next (t.jump (evalEA (s.npc 1) .l ea s).1.addr))
    (evalEA_control (s.npc 1) .l ea s hea)

/-- The call is made in the state that evaluating a control mode leaves as it was (R335). -/
theorem exec_jsr (hea : ea.mode.isControl = true) :
    exec (.jsr ea) s = run (call (s.npc (1 + ea.words .l)) (evalEA (s.npc 1) .l ea s).1.addr) s :=
  congrArg (run (call (s.npc (1 + ea.words .l)) (evalEA (s.npc 1) .l ea s).1.addr))
    (evalEA_control (s.npc 1) .l ea s hea)

end

/-- Settles O44: JMP and JSR by their control modes, JSR and RTS by what a call and a return do to the active stack. -/
theorem jumpResults : Obligations.JumpResults := by
  intro ea s target
  refine ⟨?jmp, ?jsr, ?rts, ?nop⟩
  case jmp => exact exec_jmp s
  case jsr => exact fun hea hpush => (exec_jsr s hea).trans (run_call _ _ hpush)
  case rts => exact run_returnToCaller
  case nop => rfl

end Sys2Proof.Proofs.ProgramControl
end

section
/-! SUPPORT. The bit manipulation instructions (`46_bit.md`): the model's masks as a change of one bit, and what a bit
operation does to its operand and to Z. -/

namespace Sys2Proof.Proofs.Bit

open Sys2Proof.Machine Sys2Proof.Claims Sys2Proof.Proofs.Shapes

/-! ### One bit changed (R360 to R362) -/

/-- `v` with `new` of its bit `b` in that bit's place. -/
def changeBit {n : Nat} (new : Bool → Bool) (v : BitVec n) (b : Nat) : BitVec n :=
  BitVec.ofFnLE fun k => if k.val = b then new (v.getLsbD k.val) else v.getLsbD k.val

section

variable {n : Nat} (v : BitVec n) (b : Nat)

theorem getLsbD_changeBit (new : Bool → Bool) {i : Nat} (hi : i < n) :
    (changeBit new v b).getLsbD i = if i = b then new (v.getLsbD i) else v.getLsbD i := by
  rw [changeBit, BitVec.getLsbD_ofFnLE, dif_pos hi]

/-- The mask of the three operations: its one bit is bit `b`. -/
theorem getLsbD_mask {i : Nat} (hi : i < n) : (1#n <<< b).getLsbD i = decide (i = b) := by
  rw [← BitVec.twoPow_eq, BitVec.getLsbD_twoPow]
  by_cases h : i = b
  · simp [← h, hi]
  · simp [h, Ne.symm h]

theorem bitChange_eq : bitChange v b = changeBit (fun x => !x) v b := by
  apply BitVec.eq_of_getLsbD_eq
  intro i hi
  rw [getLsbD_changeBit v b _ hi, bitChange, BitVec.getLsbD_xor, getLsbD_mask b hi]
  split_ifs with h <;> simp [h]

theorem bitClear_eq : bitClear v b = changeBit (fun _ => false) v b := by
  apply BitVec.eq_of_getLsbD_eq
  intro i hi
  rw [getLsbD_changeBit v b _ hi, bitClear, BitVec.getLsbD_and, BitVec.getLsbD_not, getLsbD_mask b hi]
  split_ifs with h <;> simp [h, hi]

theorem bitSet_eq : bitSet v b = changeBit (fun _ => true) v b := by
  apply BitVec.eq_of_getLsbD_eq
  intro i hi
  rw [getLsbD_changeBit v b _ hi, bitSet, BitVec.getLsbD_or, getLsbD_mask b hi]
  split_ifs with h <;> simp [h]

end

/-! ### What a bit operation does -/

/-- A long on a data register, a byte elsewhere (R364). -/
theorem bitSize_eq (ea : EA) : bitSize ea = if ea.mode = .dn then .l else .b := by cases ea <;> rfl

/-- Only an immediate's words depend on the size, and a bit operation takes it as a byte. -/
theorem words_bitSize (ea : EA) : ea.words (bitSize ea) = ea.words .b := by cases ea <;> rfl

/-- BTST reads its operand for the flags only (R363). -/
theorem bitTest_eq_testEA (own b0 : Nat) (ea : EA) :
    bitTest own b0 ea = testEA own (bitSize ea) ea fun v f => f.bitFlag v (b0 % (bitSize ea).bits) := by
  rw [bitTest, testEA, words_bitSize]

/-- Flags that keep S can be set before the operand is written or after. -/
theorem put_setSr (sz : Size) (l : Loc) (v : BitVec sz.bits) {s : State} {f : StatusReg} (hf : f.s = s.sr.s) :
    l.put sz v (s.setSr f) = (l.put sz v s).setSr f := by
  cases l with
  | areg r =>
    simp only [Loc.put, State.setA, State.setSp, State.setSr_sr, hf]
    split_ifs <;> rfl
  | dreg r | mem a sp | imm v => rfl

section

variable {i : Instr} {own b0 : Nat} {sz : Size} {ea : EA} {s : State}

/-- Z is set before the write, which does not depend on it (R365). -/
theorem bitModify_ok {op : BitOp} {l : Loc} {t : State} (he : evalEA (s.npc (1 + own)) (bitSize ea) ea s = (l, t))
    (hr : l.readError (bitSize ea) t = none) (hw : l.writeError (bitSize ea) t = none) :
    let v := l.value (bitSize ea) t
    let b := b0 % (bitSize ea).bits
    (bitModify op own b0 ea).run s =
      .ok () (((l.put (bitSize ea) (op _ v b) t).setSr (s.sr.bitFlag v b)).advance (1 + own + ea.words (bitSize ea))) := by
  intro v b
  have hsr : t.sr = s.sr := by simpa [he] using evalEA_sr (s.npc (1 + own)) (bitSize ea) ea s
  have hw' : l.writeError (bitSize ea) (t.setSr (t.sr.bitFlag v b)) = none :=
    (Loc.writeError_congr rfl rfl rfl _ l).trans hw
  have hput := put_setSr (bitSize ea) l (op _ v b) (s := t) (f := t.sr.bitFlag v b) rfl
  rw [words_bitSize, ← hsr, ← hput]
  simp [bitModify, he, readLoc_ok hr, v, b, writeLoc_ok hw']

theorem tests_of_bitTest (hsz : bitSize ea = sz) (h : exec i s = run (bitTest own b0 ea) s) :
    Tests i own sz ea (fun v f => f.bitFlag v (b0 % sz.bits)) s := by
  subst hsz
  exact tests_of_exec (h.trans (by rw [bitTest_eq_testEA]))

theorem modifies_of_bitModify {op : BitOp} (new : Bool → Bool) (hsz : bitSize ea = sz)
    (hop : ∀ n v b, op n v b = changeBit new v b) (h : exec i s = run (bitModify op own b0 ea) s) :
    Modifies i own sz ea (fun v f => (changeBit new v (b0 % sz.bits), f.bitFlag v (b0 % sz.bits))) s := by
  subst hsz
  simp only [← hop]
  exact fun hr hw => h.trans (run_of_ok (bitModify_ok rfl (readError_of_reads hr) (writeError_of_writes hw)))

end

/-- Settles O36: the immediate and the register forms of each instruction share its operation, whose mask changes one
bit. -/
theorem bitResults : Obligations.BitResults := by
  intro n d ea s sz tested changed dn
  have hsz : bitSize ea = sz := bitSize_eq ea
  refine ⟨?btst, ?btstDn, ?bchg, ?bchgDn, ?bclr, ?bclrDn, ?bset, ?bsetDn⟩
  case btst | btstDn => exact tests_of_bitTest hsz rfl
  case bchg | bchgDn => exact modifies_of_bitModify (fun x => !x) hsz (fun _ => bitChange_eq) rfl
  case bclr | bclrDn => exact modifies_of_bitModify (fun _ => false) hsz (fun _ => bitClear_eq) rfl
  case bset | bsetDn => exact modifies_of_bitModify (fun _ => true) hsz (fun _ => bitSet_eq) rfl

end Sys2Proof.Proofs.Bit
end

section
/-! SUPPORT. Data movement (`47_data_movement.md`): the bytes that MOVEP stores and loads, the two registers that EXG
exchanges, and LEA. -/

namespace Sys2Proof.Proofs.DataMovement

open Sys2Proof.Machine Sys2Proof.Claims Sys2Proof.Proofs.Shapes

/-! ### MOVEP (R387) -/

/-- The memory with bytes stored at every second address from `a`. -/
def setAlternate : List Byte → Long → Memory → Memory
  | [], _, m => m
  | b :: bs, a, m => setAlternate bs (a + 2) (m.setByte a b)

/-- The bytes of a store at every second address are accesses of their own, and none of them changes which later one
memory answers. -/
theorem storeAlternate_ok {bs : List Byte} {a : Long} {s : State}
    (h : ∀ k < bs.length, s.accessError .write .data 1 (a + BitVec.ofNat 32 (2 * k)) = none) :
    (storeAlternate bs a).run s = .ok () { s with mem := setAlternate bs a s.mem } := by
  induction bs generalizing a s with
  | nil => rfl
  | cons b bs ih =>
    have hfirst : s.accessError .write .data 1 a = none := by simpa using h 0 (Nat.succ_pos _)
    let t : State := { s with mem := s.mem.setByte a b }
    have hrest : ∀ k < bs.length, t.accessError .write .data 1 (a + 2 + BitVec.ofNat 32 (2 * k)) = none := by
      intro k hk
      have haddr : a + 2 + BitVec.ofNat 32 (2 * k) = a + BitVec.ofNat 32 (2 * (k + 1)) := by
        rw [add_right_comm]
        exact offset_two a (2 * k)
      rw [haddr, State.accessError_congr (s := s) (t := t) rfl rfl rfl]
      exact h (k + 1) (Nat.succ_lt_succ hk)
    exact (Exec.bind_ok _ (writeMem_ok (sz := .b) hfirst)).trans (ih hrest)

/-- A byte of a register by its place and by a shift. -/
theorem byte_eq_shift (v : Long) (k : Nat) : v.extractLsb' (8 * k) 8 = (v >>> (8 * k)).setWidth 8 := by
  apply BitVec.eq_of_getLsbD_eq
  intro i hi
  simp [hi]

section

variable {d a : Reg} {disp : Word} {s t : State} {b : Long}

/-- Bytes that memory answers at every second address meet no error there. -/
theorem accessError_of_alternate {kind : AccessKind} {n : Nat}
    (h : ∀ k < n, answers s kind .b (b + BitVec.ofNat 32 (2 * k)) = true) :
    ∀ k < n, s.accessError kind .data 1 (b + BitVec.ofNat 32 (2 * k)) = none :=
  fun k hk => accessError_of_answers (h k hk) .data

theorem readMem_alternate {k n : Nat} (h : ∀ j < n, answers s .read .b (b + BitVec.ofNat 32 (2 * j)) = true)
    (hk : k < n) :
    (readMem .b .data (b + BitVec.ofNat 32 (2 * k))).run s = .ok (s.mem.byte (b + BitVec.ofNat 32 (2 * k))) s :=
  readMem_ok (accessError_of_alternate h k hk)

theorem movepLoad_word (h : ∀ k < 2, answers s .read .b (b + BitVec.ofNat 32 (2 * k)) = true) :
    (movepLoad false d b).run s = .ok () (s.setDn .w d (s.mem.byte b ++ s.mem.byte (b + 2))) := by
  have h0 : (readMem .b .data b).run s = .ok (s.mem.byte b) s := by
    simpa using readMem_alternate (k := 0) h (by decide)
  exact (Exec.bind_ok _ h0).trans (Exec.bind_ok _ (readMem_alternate (k := 1) h (by decide)))

theorem movepLoad_long (h : ∀ k < 4, answers s .read .b (b + BitVec.ofNat 32 (2 * k)) = true) :
    (movepLoad true d b).run s =
      .ok () (s.setD d (s.mem.byte b ++ s.mem.byte (b + 2) ++ s.mem.byte (b + 4) ++ s.mem.byte (b + 6))) := by
  have h0 : (readMem .b .data b).run s = .ok (s.mem.byte b) s := by
    simpa using readMem_alternate (k := 0) h (by decide)
  have h1 := readMem_alternate (k := 1) h (by decide)
  have h2 := readMem_alternate (k := 2) h (by decide)
  have h3 := readMem_alternate (k := 3) h (by decide)
  exact (Exec.bind_ok _ h0).trans <| (Exec.bind_ok _ h1).trans <| (Exec.bind_ok _ h2).trans (Exec.bind_ok _ h3)

theorem movepStore_word {v : Long} (h : ∀ k < 2, answers s .write .b (b + BitVec.ofNat 32 (2 * k)) = true) :
    (movepStore false v b).run s = .ok ()
      { s with mem := (s.mem.setByte b ((v >>> (8 * 1)).setWidth 8)).setByte (b + 2) ((v >>> (8 * 0)).setWidth 8) } := by
  rw [← byte_eq_shift v 1, ← byte_eq_shift v 0]
  exact storeAlternate_ok (accessError_of_alternate h)

theorem movepStore_long {v : Long} (h : ∀ k < 4, answers s .write .b (b + BitVec.ofNat 32 (2 * k)) = true) :
    (movepStore true v b).run s = .ok ()
      { s with mem := (((s.mem.setByte b ((v >>> (8 * 3)).setWidth 8)).setByte (b + 2) ((v >>> (8 * 2)).setWidth 8)).setByte
          (b + 4) ((v >>> (8 * 1)).setWidth 8)).setByte (b + 6) ((v >>> (8 * 0)).setWidth 8) } := by
  have h4 : b + 2 + 2 = b + 4 := offset_two b 2
  have h6 : b + 4 + 2 = b + 6 := offset_two b 4
  rw [← byte_eq_shift v 3, ← byte_eq_shift v 2, ← byte_eq_shift v 1, ← byte_eq_shift v 0, ← h6, ← h4]
  exact storeAlternate_ok (accessError_of_alternate h)

/-- MOVEP is its transfer, then the step past its two words. -/
theorem exec_movep_store {long : Bool}
    (h : (movepStore long (s.getD d) (s.getA a + disp.signExtend 32)).run s = .ok () t) :
    exec (.movep true long d a disp) s = .next (t.advance 2) :=
  run_of_ok (Exec.bind_ok _ h)

theorem exec_movep_load {long : Bool}
    (h : (movepLoad long d (s.getA a + disp.signExtend 32)).run s = .ok () t) :
    exec (.movep false long d a disp) s = .next (t.advance 2) :=
  run_of_ok (Exec.bind_ok _ h)

end

/-- Settles O40: a store is a store of the register's two or four bytes at every second address, a load so many reads
and one register write. -/
theorem movepResults : Obligations.MovepResults := by
  intro d a disp s b v byte
  refine ⟨?storeWord, ?storeLong, ?loadWord, ?loadLong⟩
  case storeWord => exact fun h => exec_movep_store (movepStore_word h)
  case storeLong => exact fun h => exec_movep_store (movepStore_long h)
  case loadWord => exact fun h => exec_movep_load (movepLoad_word h)
  case loadLong => exact fun h => exec_movep_load (movepLoad_long h)

/-! ### EXG (R380) -/

/-- Registers `x` and `y` written with each other's old values read as those with `x` and `y` exchanged. -/
theorem ite_eq_swap (f : Reg → Long) (x y r : Reg) :
    (if y = r then f x else if x = r then f y else f r) = f (Equiv.swap x y r) := by
  by_cases hy : y = r
  · rw [if_pos hy, ← hy, Equiv.swap_apply_right]
  · rw [if_neg hy]
    by_cases hx : x = r
    · rw [if_pos hx, ← hx, Equiv.swap_apply_left]
    · rw [if_neg hx, Equiv.swap_apply_of_ne_of_ne (Ne.symm hx) (Ne.symm hy)]

/-- The instruction ends at the next word, wherever its writes leave the program counter alone. -/
theorem advance_one {s t : State} (h : t.pc = s.pc) : t.advance 1 = { t with pc := s.pc + 2 } := by
  rw [← h]
  rfl

/-- A write of an address register, A7 too, leaves the inactive stack pointer alone (R33). -/
theorem setA_inactive {s t : State} (hs : t.sr.s = s.sr.s) (h : if s.sr.s then t.usp = s.usp else t.ssp = s.ssp)
    (r : Reg) (v : Long) : if s.sr.s then (t.setA r v).usp = s.usp else (t.setA r v).ssp = s.ssp := by
  split_ifs at h ⊢ with hsup
  · simp [hs, hsup, h]
  · simp [hs, hsup, h]

section

variable (x y : Reg) (s : State)

theorem getD_exgDD (r : Reg) : ((s.setD x (s.getD y)).setD y (s.getD x)).getD r = s.getD (Equiv.swap x y r) := by
  rw [State.getD_setD, State.getD_setD, ite_eq_swap]

theorem getA_exgAA (r : Reg) : ((s.setA x (s.getA y)).setA y (s.getA x)).getA r = s.getA (Equiv.swap x y r) := by
  rw [State.getA_setA, State.getA_setA, ite_eq_swap]

end

/-- LEA writes the address in the state that evaluating a control mode leaves as it was (R381). -/
theorem exec_lea {ea : EA} (a : Reg) (s : State) (hea : ea.mode.isControl = true) :
    exec (.lea ea a) s = .next ((s.setA a (evalEA (s.npc 1) .l ea s).1.addr).advance (1 + ea.words .l)) :=
  congrArg (fun t : State => Host.Outcome.next ((t.setA a (evalEA (s.npc 1) .l ea s).1.addr).advance (1 + ea.words .l)))
    (evalEA_control (s.npc 1) .l ea s hea)

/-- Settles O41: each form of EXG by the state its two writes reach, LEA by its control mode. The frame of a form is the
fields that `setD` and `setA` leave alone. -/
theorem exchangeAndLeaResults : Obligations.ExchangeAndLeaResults := by
  intro x y a ea s
  refine ⟨?dataData, ?addressAddress, ?dataAddress, exec_lea a s⟩
  case dataData =>
    refine ⟨(s.setD x (s.getD y)).setD y (s.getD x), rfl, ?left, ?right, ?others, rfl⟩
    case left => rw [getD_exgDD, Equiv.swap_apply_left]
    case right => rw [getD_exgDD, Equiv.swap_apply_right]
    case others => exact fun r hx hy => by rw [getD_exgDD, Equiv.swap_apply_of_ne_of_ne hx hy]
  case addressAddress =>
    refine ⟨(s.setA x (s.getA y)).setA y (s.getA x), ?next, ?left, ?right, ?others, ?inactive, ?frame⟩
    case next => exact congrArg _ (advance_one (by simp))
    case left => rw [getA_exgAA, Equiv.swap_apply_left]
    case right => rw [getA_exgAA, Equiv.swap_apply_right]
    case others => exact fun r hx hy => by rw [getA_exgAA, Equiv.swap_apply_of_ne_of_ne hx hy]
    case inactive => exact setA_inactive (by simp) (setA_inactive rfl (by simp) x _) y _
    case frame => simp
  case dataAddress =>
    refine ⟨(s.setD x (s.getA y)).setA y (s.getD x), ?next, ?left, ?right, ?otherData, ?otherAddress, ?inactive, ?frame⟩
    case next => exact congrArg _ (advance_one (by simp))
    case left => simp
    case right => simp
    case otherData => exact fun r hx => by simp [Ne.symm hx]
    case otherAddress => exact fun r hy => by simp [Ne.symm hy]
    case inactive => exact setA_inactive (t := s.setD x _) rfl (by simp) y _
    case frame => simp

end Sys2Proof.Proofs.DataMovement
end

section
/-! SUPPORT. System control (`48_system.md`): TRAP and TRAPV, which enter their exceptions after the instruction's one
word. -/

namespace Sys2Proof.Proofs.SystemControl

open Sys2Proof.Machine Sys2Proof.Claims Sys2Proof.Proofs.MultiplyDivide

/-! ### Traps that complete their instruction (R413, R414) -/

/-- The word after an instruction of one word, the address that a trap saves (R436, R438). -/
theorem npc_one (s : State) : s.npc 1 = s.pc + 2 := rfl

/-- An exception as the whole of an instruction. -/
theorem run_exception {v : Nat} (savedPc : Long) {s : State} (h : canEnter v s = true) :
    run (exception v savedPc) s = .next (entered v savedPc s) :=
  run_of_ok (exception_ok h)

theorem exec_trap {n : BitVec 4} {s : State} (h : canEnter (32 + n.toNat) s = true) :
    exec (.trap n) s = .next (entered (32 + n.toNat) (s.npc 1) s) :=
  run_exception (s.npc 1) h

theorem exec_trapv_of_overflow {s : State} (hv : s.sr.v = true) (h : canEnter 7 s = true) :
    exec .trapv s = .next (entered 7 (s.npc 1) s) :=
  (if_pos hv).trans (run_exception (s.npc 1) h)

theorem exec_trapv_of_not_overflow {s : State} (hv : s.sr.v = false) : exec .trapv s = .next (s.advance 1) :=
  if_neg (Bool.eq_false_iff.1 hv)

/-- Settles O45: TRAP enters its exception always, TRAPV as V says; each saves the address of the next word. -/
theorem trapResults : Obligations.TrapResults := by
  intro n s
  rw [← npc_one]
  refine ⟨?trap, ?overflow, ?noOverflow⟩
  case trap => exact exec_trap
  case overflow => exact exec_trapv_of_overflow
  case noOverflow => exact exec_trapv_of_not_overflow

end Sys2Proof.Proofs.SystemControl
end

section
/-! SUPPORT. The decoder undoes the encoder (`30_encoding.md` sections 2 to 4): the fields of an operation word, the
extension words of an operand, and then each instruction by the shape of its encoding. -/

namespace Sys2Proof.Proofs.RoundTrip

/-! ### The fields of an operation word (R111) -/

theorem extract_high {m n : Nat} (a : BitVec m) (b : BitVec n) (start len : Nat) :
    (a ++ b).extractLsb' (n + start) len = a.extractLsb' start len := by
  rw [BitVec.extractLsb'_append_eq_of_le (Nat.le_add_right n start), Nat.add_sub_cancel_left]

theorem getLsbD_high {m n : Nat} (a : BitVec m) (b : BitVec n) (i : Nat) : (a ++ b).getLsbD (n + i) = a.getLsbD i := by
  rw [BitVec.getLsbD_append, if_neg (by omega), Nat.add_sub_cancel_left]

section

variable (line : BitVec 4) (r9 op m r : BitVec 3)

theorem regOf_pack : regOf (pack line r9 op m r) = r := BitVec.extractLsb'_append_eq_right

theorem modeOf_pack : modeOf (pack line r9 op m r) = m :=
  (extract_high _ r 0 3).trans BitVec.extractLsb'_append_eq_right

theorem opOf_pack : opOf (pack line r9 op m r) = op :=
  (extract_high _ r 3 3).trans <| (extract_high _ m 0 3).trans BitVec.extractLsb'_append_eq_right

theorem r9Of_pack : r9Of (pack line r9 op m r) = r9 :=
  (extract_high _ r 6 3).trans <| (extract_high _ m 3 3).trans <| (extract_high _ op 0 3).trans
    BitVec.extractLsb'_append_eq_right

theorem lineOf_pack : lineOf (pack line r9 op m r) = line :=
  (extract_high _ r 9 4).trans <| (extract_high _ m 6 4).trans <| (extract_high _ op 3 4).trans
    BitVec.extractLsb'_append_eq_left

theorem decodeWords_pack (ws : List Word) :
    decodeWords (pack line r9 op m r :: ws) = decodeFields line r9 op m r ws := by
  simp only [decodeWords, lineOf_pack, r9Of_pack, opOf_pack, modeOf_pack, regOf_pack]

end

theorem decodeWords_encEA (line : BitVec 4) (r9 op : BitVec 3) (own : List Word) (sz : Size) (ea : EA) (rest : List Word) :
    decodeWords (encEA line r9 op own sz ea ++ rest) =
      decodeFields line r9 op ea.fields.1 ea.fields.2 (own ++ (ea.ext sz ++ rest)) := by
  rw [encEA, List.cons_append, decodeWords_pack, List.append_assoc]

theorem decodeWords_encMove (line : BitVec 4) (sz : Size) (src dst : EA) (rest : List Word) :
    decodeWords (encMove line sz src dst ++ rest) =
      decodeFields line dst.fields.2 dst.fields.1 src.fields.1 src.fields.2 (src.ext sz ++ (dst.ext sz ++ rest)) := by
  rw [encMove, List.cons_append, decodeWords_pack, List.append_assoc]

/-! ### Operands (R112, R116, R117) -/

theorem takeLong_longWords (v : Long) (rest : List Word) : takeLong (longWords v ++ rest) = .ok (v, rest) :=
  congrArg (fun v => Except.ok (v, rest)) (Machine.append_extract_long v)

/-- An immediate that fits its size is read back: a byte and a word stand in one word, zero above. -/
theorem takeImm_immExt {sz : Size} {v : Long} (h : immFits sz v = true) (rest : List Word) :
    takeImm sz (immExt sz v ++ rest) = .ok (v, rest) := by
  cases sz with
  | b =>
    have hlt : v.toNat < 256 := of_decide_eq_true h
    have hback : ((v.extractLsb' 0 16).extractLsb' 0 8).setWidth 32 = v := by
      apply BitVec.eq_of_toNat_eq
      simp
      omega
    exact congrArg (fun v => Except.ok (v, rest)) hback
  | w =>
    have hlt : v.toNat < 65536 := of_decide_eq_true h
    have hback : (v.extractLsb' 0 16).setWidth 32 = v := by
      apply BitVec.eq_of_toNat_eq
      simp
      omega
    exact congrArg (fun v => Except.ok (v, rest)) hback
  | l => exact takeLong_longWords v rest

theorem briefOf_word (x : Brief) : briefOf x.word = x := by
  obtain ⟨isA, reg, long, disp⟩ := x
  simp only [briefOf, Brief.word, Brief.mk.injEq]
  refine ⟨?isA, ?reg, ?long, BitVec.extractLsb'_append_eq_right⟩
  case isA =>
    refine (getLsbD_high _ disp 7).trans <| (getLsbD_high _ 0#3 4).trans <| (getLsbD_high _ (BitVec.ofBool long) 3).trans <|
      (getLsbD_high _ reg 0).trans ?_
    simp
  case reg =>
    exact (extract_high _ disp 4 3).trans <| (extract_high _ 0#3 1 3).trans <|
      (extract_high _ (BitVec.ofBool long) 0 3).trans BitVec.extractLsb'_append_eq_right
  case long =>
    refine (getLsbD_high _ disp 3).trans <| (getLsbD_high _ 0#3 0).trans ?_
    rw [BitVec.getLsbD_append]
    simp

/-- An operand of the class and size that the decoder expects is read back from its fields and its extension words. -/
theorem takeEA_ext {cls : EaMode → Bool} {sz : Size} {ea : EA} (h : ea.ok cls sz = true) (rest : List Word) :
    takeEA cls sz ea.fields.1 ea.fields.2 (ea.ext sz ++ rest) = .ok (ea, rest) := by
  simp only [EA.ok, Bool.and_eq_true] at h
  obtain ⟨hcls, hvalue⟩ := h
  cases ea with
  | absL a =>
    simp_all [takeEA, eaModeOf, EA.fields, EA.ext, EA.mode, takeLong_longWords, bind, Except.bind, pure, Except.pure]
  | imm v =>
    simp_all [takeEA, eaModeOf, EA.fields, EA.ext, EA.mode, takeImm_immExt, bind, Except.bind, pure, Except.pure]
  | idx r x | pcIdx x =>
    simp_all [takeEA, eaModeOf, EA.fields, EA.ext, EA.mode, takeWord, briefOf_word, bind, Except.bind, pure, Except.pure]
  | an r => simp_all [takeEA, eaModeOf, EA.fields, EA.ext, EA.mode]
  | _ => simp_all [takeEA, eaModeOf, EA.fields, EA.ext, EA.mode, takeWord, bind, Except.bind, pure, Except.pure]

theorem takeDisp_byte {v : Byte} (h : v ≠ 0) (rest : List Word) : takeDisp v rest = .ok (.byte v, rest) := if_neg h

theorem takeDisp_word (w : Word) (rest : List Word) : takeDisp 0 (w :: rest) = .ok (.word w, rest) := rfl

/-! ### Instruction shapes -/

section

variable {cls : EaMode → Bool} {sz : Size} {ea : EA} (rest : List Word)

/-- What is decoded after an operand goes on with it and the words that are left. -/
theorem takeEA_bind {α : Type} (h : ea.ok cls sz = true) (f : EA × List Word → Except Reject α) :
    (takeEA cls sz ea.fields.1 ea.fields.2 (ea.ext sz ++ rest) >>= f) = f (ea, rest) := by
  rw [takeEA_ext h]
  rfl

theorem oneEA_ext (h : ea.ok cls sz = true) (k : EA → Instr) :
    oneEA cls sz ea.fields.1 ea.fields.2 (ea.ext sz ++ rest) k = .ok (k ea, rest) := takeEA_bind rest h _

/-- An instruction of one operand and no words of its own, on a line that decodes as that shape. -/
theorem decodeWords_oneEA {line : BitVec 4} {r9 op : BitVec 3} (h : ea.ok cls sz = true) (k : EA → Instr)
    (hline : ∀ m r ws, decodeFields line r9 op m r ws = oneEA cls sz m r ws k) :
    decodeWords (encEA line r9 op [] sz ea ++ rest) = .ok (k ea, rest) :=
  (decodeWords_encEA line r9 op [] sz ea rest).trans ((hline _ _ _).trans (oneEA_ext rest h k))

theorem immEA_ext {v : Long} (hv : immFits sz v = true) (h : ea.ok EaMode.isDataAlterable sz = true)
    (k : Size → Long → EA → Instr) :
    immEA sz ea.fields.1 ea.fields.2 (immExt sz v ++ (ea.ext sz ++ rest)) k = .ok (k sz v ea, rest) := by
  rw [immEA, takeImm_immExt hv]
  exact takeEA_bind rest h _

theorem bitEA_ext (n : Byte) (h : ea.ok cls .b = true) (k : Byte → EA → Instr) :
    bitEA cls ea.fields.1 ea.fields.2 (n.setWidth 16 :: (ea.ext .b ++ rest)) k = .ok (k n ea, rest) := by
  have hn : (n.setWidth 16).extractLsb' 0 8 = n := by
    apply BitVec.eq_of_toNat_eq
    simp
    omega
  exact (takeEA_bind rest h _).trans (by rw [hn]; rfl)

theorem movemEA_ext {long : Bool} (mask : Word) (h : ea.ok cls (wordOrLong long) = true) (k : Bool → Word → EA → Instr) :
    movemEA cls long ea.fields.1 ea.fields.2 (mask :: (ea.ext (wordOrLong long) ++ rest)) k = .ok (k long mask ea, rest) :=
  takeEA_bind rest h _

theorem moveEA_ext {src dst : EA} (hs : src.ok EaMode.isAll sz = true) (hd : dst.ok EaMode.isDataAlterable sz = true)
    (k : EA → EA → Instr) :
    moveEA sz dst.fields.2 dst.fields.1 src.fields.1 src.fields.2 (src.ext sz ++ (dst.ext sz ++ rest)) k =
      .ok (k src dst, rest) :=
  (takeEA_bind _ hs _).trans (takeEA_bind rest hd _)

end

/-! ### Fields that an operand's class rules out -/

section

variable {sz : Size} {ea : EA}

theorem fields_ne_imm (h : ea.ok EaMode.isDataAlterable sz = true) : ¬(ea.fields.1 = 7 ∧ ea.fields.2 = 4) := by
  cases ea <;> simp_all [EA.ok, EA.mode, EaMode.isDataAlterable, EA.fields]

theorem mode_ne_an_of_data (h : ea.ok EaMode.isData sz = true) : ea.fields.1 ≠ 1 := by
  cases ea <;> simp_all [EA.ok, EA.mode, EaMode.isData, EA.fields]

theorem mode_ne_an_of_dataAlterable (h : ea.ok EaMode.isDataAlterable sz = true) : ea.fields.1 ≠ 1 := by
  cases ea <;> simp_all [EA.ok, EA.mode, EaMode.isDataAlterable, EA.fields]

theorem mode_ne_dn_of_control (h : ea.ok EaMode.isControl sz = true) : ea.fields.1 ≠ 0 := by
  cases ea <;> simp_all [EA.ok, EA.mode, EaMode.isControl, EA.fields]

theorem mode_ne_dn_of_movemStore (h : ea.ok EaMode.isMovemStore sz = true) : ea.fields.1 ≠ 0 := by
  cases ea <;> simp_all [EA.ok, EA.mode, EaMode.isMovemStore, EA.fields]

theorem mode_ne_of_memAlterable (h : ea.ok EaMode.isMemAlterable sz = true) : ea.fields.1 ≠ 0 ∧ ea.fields.1 ≠ 1 := by
  cases ea <;> simp_all [EA.ok, EA.mode, EaMode.isMemAlterable, EA.fields]

end

/-! ### Operation words that are not cut at the fields -/

theorem extract_extract {n : Nat} (w : BitVec n) {start len start' len' : Nat} (h : start' + len' ≤ len) :
    (w.extractLsb' start len).extractLsb' start' len' = w.extractLsb' (start + start') len' := by
  apply BitVec.eq_of_getLsbD_eq
  intro i hi
  simp [hi, Nat.add_assoc, show start' + i < len by omega]

section

variable (w : Word)

theorem condition_eq : r9Of w ++ (opOf w).extractLsb' 2 1 = w.extractLsb' 8 4 := by
  rw [opOf, extract_extract w (by decide)]
  exact BitVec.extractLsb'_append_extractLsb'_eq_extractLsb' rfl

theorem lowByte_eq : (opOf w).extractLsb' 0 2 ++ modeOf w ++ regOf w = w.extractLsb' 0 8 := by
  rw [opOf, extract_extract w (by decide)]
  have hhigh : w.extractLsb' 6 2 ++ modeOf w = w.extractLsb' 3 5 :=
    BitVec.extractLsb'_append_extractLsb'_eq_extractLsb' rfl
  exact (congrArg (· ++ regOf w) hhigh).trans (BitVec.extractLsb'_append_extractLsb'_eq_extractLsb' rfl)

theorem below_line_eq : r9Of w ++ opOf w ++ modeOf w ++ regOf w = w.extractLsb' 0 12 := by
  have hhigh : r9Of w ++ opOf w = w.extractLsb' 6 6 := BitVec.extractLsb'_append_extractLsb'_eq_extractLsb' rfl
  have hmiddle : w.extractLsb' 6 6 ++ modeOf w = w.extractLsb' 3 9 :=
    BitVec.extractLsb'_append_extractLsb'_eq_extractLsb' rfl
  rw [hhigh]
  exact (congrArg (· ++ regOf w) hmiddle).trans (BitVec.extractLsb'_append_extractLsb'_eq_extractLsb' rfl)

end

/-- A branch holds the condition in bits 11..8 and the short displacement below (R125, R339). -/
theorem decodeWords_branch (c : BitVec 4) (v : Byte) {ws rest : List Word} {d : Disp} (h : takeDisp v ws = .ok (d, rest)) :
    decodeWords ((0x6#4 ++ c ++ v : Word) :: ws) =
      .ok (match condOf c with | .t => .bra d | .f => .bsr d | c => .bcc c d, rest) := by
  have hline : lineOf (0x6#4 ++ c ++ v) = 0x6#4 := (extract_high _ v 4 4).trans BitVec.extractLsb'_append_eq_left
  have hcond : (0x6#4 ++ c ++ v : Word).extractLsb' 8 4 = c := (extract_high _ v 0 4).trans BitVec.extractLsb'_append_eq_right
  have hdisp : (0x6#4 ++ c ++ v : Word).extractLsb' 0 8 = v := BitVec.extractLsb'_append_eq_right
  rw [decodeWords, hline]
  show decodeLine6 _ _ _ _ _ = _
  rw [decodeLine6, condition_eq, lowByte_eq, hcond, hdisp, h]
  show (match condOf c with | .t => pure (.bra d, rest) | .f => pure (.bsr d, rest) | c => pure (.bcc c d, rest) : Decoded) = _
  cases condOf c <;> rfl

theorem decodeWords_encBranch (c : Cond) {d : Disp} (h : d.ok = true) (rest : List Word) :
    decodeWords (encBranch c d ++ rest) = .ok (match c with | .t => .bra d | .f => .bsr d | c => .bcc c d, rest) := by
  have hc : condOf c.code = c := by cases c <;> rfl
  cases d with
  | byte v => exact (decodeWords_branch c.code v (takeDisp_byte (of_decide_eq_true h) rest)).trans (by rw [hc])
  | word w => exact (decodeWords_branch c.code 0 (takeDisp_word w rest)).trans (by rw [hc])

/-- MOVEQ (R126): bit 8 is zero. -/
theorem decodeWords_moveq (v : Byte) (r : Reg) (rest : List Word) :
    decodeWords ((0x7#4 ++ r ++ 0#1 ++ v : Word) :: rest) = .ok (.moveq v r, rest) := by
  have hline : lineOf (0x7#4 ++ r ++ 0#1 ++ v) = 0x7#4 :=
    (extract_high _ v 4 4).trans <| (extract_high _ 0#1 3 4).trans BitVec.extractLsb'_append_eq_left
  have hreg : r9Of (0x7#4 ++ r ++ 0#1 ++ v) = r :=
    (extract_high _ v 1 3).trans <| (extract_high _ 0#1 0 3).trans BitVec.extractLsb'_append_eq_right
  have hbit : (opOf (0x7#4 ++ r ++ 0#1 ++ v)).getLsbD 2 = false := by
    rw [opOf, BitVec.getLsbD_extractLsb']
    exact (getLsbD_high _ v 0).trans (by rw [BitVec.getLsbD_append]; rfl)
  have hlow : (0x7#4 ++ r ++ 0#1 ++ v : Word).extractLsb' 0 8 = v := BitVec.extractLsb'_append_eq_right
  rw [decodeWords, hline]
  show decodeLine7 _ _ _ _ _ = _
  rw [decodeLine7, hbit, hreg, lowByte_eq, hlow]
  rfl

/-- Lines 1010 and 1111 (R150): all twelve bits below the line. -/
theorem decodeWords_unimplemented (x : BitVec 12) (rest : List Word) :
    decodeWords ((0xA#4 ++ x : Word) :: rest) = .ok (.lineA x, rest) ∧
    decodeWords ((0xF#4 ++ x : Word) :: rest) = .ok (.lineF x, rest) := by
  have hline : ∀ line : BitVec 4, lineOf (line ++ x) = line := fun line => BitVec.extractLsb'_append_eq_left
  have hlow : ∀ line : BitVec 4, (line ++ x : Word).extractLsb' 0 12 = x := fun line => BitVec.extractLsb'_append_eq_right
  constructor
  · rw [decodeWords, hline]
    exact congrArg (fun x => Except.ok (Instr.lineA x, rest)) ((below_line_eq _).trans (hlow _))
  · rw [decodeWords, hline]
    exact congrArg (fun x => Except.ok (Instr.lineF x, rest)) ((below_line_eq _).trans (hlow _))

/-- TRAP holds its vector's number in the register field and the bit above (R123). -/
theorem decodeWords_trap (v : BitVec 4) (rest : List Word) :
    decodeWords (pack 4 7 1 (0#2 ++ v.extractLsb' 3 1) (v.extractLsb' 0 3) :: rest) = .ok (.trap v, rest) := by
  have hbit : (v.extractLsb' 3 1 = 0#1 ∧ 0#1 ++ v.extractLsb' 0 3 = v) ∨
      (v.extractLsb' 3 1 = 1#1 ∧ 1#1 ++ v.extractLsb' 0 3 = v) := by
    revert v
    decide
  rw [decodeWords_pack]
  rcases hbit with ⟨hhigh, hv⟩ | ⟨hhigh, hv⟩
  · rw [hhigh]
    exact congrArg (fun v => Except.ok (Instr.trap v, rest)) hv
  · rw [hhigh]
    exact congrArg (fun v => Except.ok (Instr.trap v, rest)) hv

/-! ### Forms that share a line with others -/

section

variable {m : BitVec 3} (hm : m ≠ 0 ∧ m ≠ 1) (sz : Size) (d r : BitVec 3) (ws : List Word)
include hm

theorem decodeLine8_memory :
    decodeLine8 d sz.code1 m r ws = oneEA EaMode.isMemAlterable sz m r ws (.orDnEa sz d ·) := by
  cases sz with
  | b =>
    simp only [decodeLine8, Size.code1, Size.code, BitVec.reduceOr]
    split <;> simp_all
  | w | l => rfl

theorem decodeLineC_memory :
    decodeLineC d sz.code1 m r ws = oneEA EaMode.isMemAlterable sz m r ws (.andDnEa sz d ·) := by
  cases sz <;> simp [decodeLineC, Size.code1, Size.code] <;> split <;> simp_all

theorem decodeAddSub_memory (eaDn : Size → EA → Reg → Instr) (dnEa : Size → Reg → EA → Instr)
    (toA : Bool → EA → Reg → Instr) (ext : Size → Bool → Reg → Reg → Instr) :
    decodeAddSub d sz.code1 m r ws eaDn dnEa toA ext = oneEA EaMode.isMemAlterable sz m r ws (dnEa sz d ·) := by
  cases sz <;> simp [decodeAddSub, Size.code1, Size.code, sizeOf] <;> split <;> simp_all

end

/-- DBcc and Scc hold the condition in bits 11..8, across the fields (R124). -/
theorem decodeLine5_condition (c : Cond) (m r : BitVec 3) (ws : List Word) :
    decodeLine5 (c.code.extractLsb' 1 3) (c.code.extractLsb' 0 1 ++ 3#2) m r ws =
      if m = 1 then oneWord ws (.dbcc c r ·) else oneEA EaMode.isDataAlterable .b m r ws (.scc c ·) := by
  cases c <;> rfl

/-! ### The instructions -/

/-- Settles O1, instruction by instruction: its shape's encoding is decoded as that shape, since the operand's class rules
out the other forms that share the line. -/
theorem decodeEncodeRoundTrip : Obligations.DecodeEncodeRoundTrip := by
  intro i hi rest
  cases i with
  | ori sz v ea | andi sz v ea | eori sz v ea =>
    obtain ⟨hv, hea⟩ := Bool.and_eq_true_iff.1 hi
    rw [encode, decodeWords_encEA]
    cases sz with
    | b | w => exact (if_neg (fields_ne_imm hea)).trans (immEA_ext rest hv hea _)
    | l => exact immEA_ext rest hv hea _
  | subi sz v ea | addi sz v ea | cmpi sz v ea =>
    obtain ⟨hv, hea⟩ := Bool.and_eq_true_iff.1 hi
    rw [encode, decodeWords_encEA]
    cases sz <;> exact immEA_ext rest hv hea _
  | btst n ea | bchg n ea | bclr n ea | bset n ea =>
    exact (decodeWords_encEA _ _ _ _ _ _ _).trans (bitEA_ext rest n hi _)
  | btstDn d ea =>
    exact (decodeWords_encEA _ _ _ _ _ _ _).trans ((if_neg (mode_ne_an_of_data hi)).trans (oneEA_ext rest hi _))
  | bchgDn d ea | bclrDn d ea | bsetDn d ea =>
    exact (decodeWords_encEA _ _ _ _ _ _ _).trans ((if_neg (mode_ne_an_of_dataAlterable hi)).trans (oneEA_ext rest hi _))
  | movep toMem long d a disp => cases toMem <;> cases long <;> exact decodeWords_pack _ _ _ _ _ _
  | oriToCcr v | oriToSr v | andiToCcr v | andiToSr v | eoriToCcr v | eoriToSr v => exact decodeWords_pack _ _ _ _ _ _
  | moveB src dst =>
    obtain ⟨hsrc, hdst⟩ := Bool.and_eq_true_iff.1 hi
    exact (decodeWords_encMove _ _ _ _ _).trans (moveEA_ext rest hsrc hdst _)
  | moveW src dst | moveL src dst =>
    obtain ⟨hsrc, hdst⟩ := Bool.and_eq_true_iff.1 hi
    exact (decodeWords_encMove _ _ _ _ _).trans
      ((if_neg (mode_ne_an_of_dataAlterable hdst)).trans (moveEA_ext rest hsrc hdst _))
  | moveFromSr ea | moveToCcr ea | moveToSr ea | nbcd ea | jsr ea | jmp ea =>
    exact (decodeWords_encEA _ _ _ _ _ _ _).trans (oneEA_ext rest hi _)
  | moveaW ea a => exact decodeWords_oneEA rest hi (.moveaW · a) fun _ _ _ => rfl
  | moveaL ea a => exact decodeWords_oneEA rest hi (.moveaL · a) fun _ _ _ => rfl
  | lea ea a => exact decodeWords_oneEA rest hi (.lea · a) fun _ _ _ => rfl
  | chk ea d => exact decodeWords_oneEA rest hi (.chk · d) fun _ _ _ => rfl
  | divu ea d => exact decodeWords_oneEA rest hi (.divu · d) fun _ _ _ => rfl
  | divs ea d => exact decodeWords_oneEA rest hi (.divs · d) fun _ _ _ => rfl
  | mulu ea d => exact decodeWords_oneEA rest hi (.mulu · d) fun _ _ _ => rfl
  | muls ea d => exact decodeWords_oneEA rest hi (.muls · d) fun _ _ _ => rfl
  | asrMem ea | aslMem ea | lsrMem ea | lslMem ea | roxrMem ea | roxlMem ea | rorMem ea | rolMem ea =>
    exact (decodeWords_encEA _ _ _ _ _ _ _).trans (oneEA_ext rest hi _)
  | negx sz ea | clr sz ea | neg sz ea | not sz ea | tst sz ea | addq sz q ea | subq sz q ea =>
    rw [encode, decodeWords_encEA]
    cases sz <;> exact oneEA_ext rest hi _
  | orEaDn sz ea d => exact decodeWords_oneEA rest hi (.orEaDn sz · d) fun _ _ _ => by cases sz <;> rfl
  | subEaDn sz ea d => exact decodeWords_oneEA rest hi (.subEaDn sz · d) fun _ _ _ => by cases sz <;> rfl
  | cmp sz ea d => exact decodeWords_oneEA rest hi (.cmp sz · d) fun _ _ _ => by cases sz <;> rfl
  | andEaDn sz ea d => exact decodeWords_oneEA rest hi (.andEaDn sz · d) fun _ _ _ => by cases sz <;> rfl
  | addEaDn sz ea d => exact decodeWords_oneEA rest hi (.addEaDn sz · d) fun _ _ _ => by cases sz <;> rfl
  | suba long ea a => exact decodeWords_oneEA rest hi (.suba long · a) fun _ _ _ => by cases long <;> rfl
  | cmpa long ea a => exact decodeWords_oneEA rest hi (.cmpa long · a) fun _ _ _ => by cases long <;> rfl
  | adda long ea a => exact decodeWords_oneEA rest hi (.adda long · a) fun _ _ _ => by cases long <;> rfl
  | swap r | extW r | extL r | illegal | link r d | unlk r | reset | nop | stop v | rte | rts | trapv | rtr | exgDD x y
  | exgAA x y | exgDA x y => exact decodeWords_pack _ _ _ _ _ _
  | moveUsp toReg r => cases toReg <;> exact decodeWords_pack _ _ _ _ _ _
  | trap v => exact decodeWords_trap v rest
  | pea ea =>
    exact (decodeWords_encEA _ _ _ _ _ _ _).trans ((if_neg (mode_ne_dn_of_control hi)).trans (oneEA_ext rest hi _))
  | movemToMem long mask ea =>
    rw [encode, decodeWords_encEA]
    cases long <;> exact (if_neg (mode_ne_dn_of_movemStore hi)).trans (movemEA_ext rest mask hi _)
  | movemToRegs long mask ea =>
    rw [encode, decodeWords_encEA]
    cases long <;> exact movemEA_ext rest mask hi _
  | tas ea =>
    exact (decodeWords_encEA _ _ _ _ _ _ _).trans ((if_neg (fields_ne_imm hi)).trans (oneEA_ext rest hi _))
  | scc c ea =>
    exact (decodeWords_encEA _ _ _ _ _ _ _).trans <| (decodeLine5_condition c _ _ _).trans <|
      (if_neg (mode_ne_an_of_dataAlterable hi)).trans (oneEA_ext rest hi _)
  | dbcc c r d => exact (decodeWords_pack _ _ _ _ _ _).trans (decodeLine5_condition c 1 r (d :: rest))
  | bra d | bsr d => exact decodeWords_encBranch _ hi rest
  | bcc c d =>
    obtain ⟨hc, hd⟩ := Bool.and_eq_true_iff.1 hi
    refine (decodeWords_encBranch c hd rest).trans ?_
    cases c with
    | t | f => cases hc
    | _ => rfl
  | moveq v r => exact decodeWords_moveq v r rest
  | orDnEa sz d ea =>
    exact (decodeWords_encEA _ _ _ _ _ _ _).trans <| (decodeLine8_memory (mode_ne_of_memAlterable hi) _ _ _ _).trans
      (oneEA_ext rest hi _)
  | andDnEa sz d ea =>
    exact (decodeWords_encEA _ _ _ _ _ _ _).trans <| (decodeLineC_memory (mode_ne_of_memAlterable hi) _ _ _ _).trans
      (oneEA_ext rest hi _)
  | subDnEa sz d ea | addDnEa sz d ea =>
    exact (decodeWords_encEA _ _ _ _ _ _ _).trans <| (decodeAddSub_memory (mode_ne_of_memAlterable hi) _ _ _ _ _ _ _ _).trans
      (oneEA_ext rest hi _)
  | eor sz d ea =>
    rw [encode, decodeWords_encEA]
    cases sz <;> exact (if_neg (mode_ne_an_of_dataAlterable hi)).trans (oneEA_ext rest hi _)
  | sbcd mem y x | abcd mem y x => cases mem <;> exact decodeWords_pack _ _ _ _ _ _
  | subx sz mem y x | addx sz mem y x => cases sz <;> cases mem <;> exact decodeWords_pack _ _ _ _ _ _
  | cmpm sz y x => cases sz <;> exact decodeWords_pack _ _ _ _ _ _
  | asrReg sz c r | aslReg sz c r | lsrReg sz c r | lslReg sz c r | roxrReg sz c r | roxlReg sz c r | rorReg sz c r
  | rolReg sz c r => cases c <;> cases sz <;> exact decodeWords_pack _ _ _ _ _ _
  | lineA x => exact (decodeWords_unimplemented x rest).1
  | lineF x => exact (decodeWords_unimplemented x rest).2

/-- Settles O2: nine literal sequences of words, each decoded. -/
theorem exampleWordsDecode : Obligations.ExampleWordsDecode := by
  unfold Obligations.ExampleWordsDecode
  decide

end Sys2Proof.Proofs.RoundTrip
end

section
/-! SUPPORT. The register lists of MOVEM (`47_data_movement.md` R382): the registers that the model takes from a mask in each
order are those of the set bits, from bit 0 up. -/

namespace Sys2Proof.Proofs.RegisterList

open Sys2Proof.Machine Sys2Proof.Claims

theorem forwardOrder_eq : forwardOrder = (List.range 16).map listed := rfl

theorem backwardOrder_eq : backwardOrder = (List.range 16).map fun k => listed (15 - k) := rfl

/-- The registers of an order whose bit is set are the order's places at the set bits. -/
theorem selected_map (mask : Word) (f : Nat → GReg) : selected mask ((List.range 16).map f) = (maskBits mask).map f := by
  rw [selected, ← List.map_prod_right_eq_zip, List.filter_map, List.map_map]
  rfl

theorem selected_forward (mask : Word) : selected mask forwardOrder = (maskBits mask).map listed :=
  forwardOrder_eq ▸ selected_map mask listed

theorem selected_backward (mask : Word) : selected mask backwardOrder = (maskBits mask).map fun k => listed (15 - k) :=
  backwardOrder_eq ▸ selected_map mask _

end Sys2Proof.Proofs.RegisterList
end

section
/-! SUPPORT. What an instruction can do, said once: it makes small changes that its row allows (`Closed`), and then ends
in one of four ways. The frames and the invariant follow from this by what each small change and each ending keeps. -/

namespace Sys2Proof.Proofs.Endings

open Sys2Proof.Machine Sys2Proof.Claims Sys2Proof.Proofs.RegisterList Sys2Proof.Proofs.Decimal Sys2Proof.Proofs.Bit
  Sys2Proof.Proofs.Arithmetic

/-! ### Endings -/

/-- What an exception leads to from the state `u` in which it is taken. -/
inductive Taken (u : State) : State → Prop
  /-- by an instruction, or after one (R440) -/
  | trap (v : Nat) (pc : Long) : Taken u (complete (exception v pc) u)
  /-- in place of an instruction (R442) -/
  | abort (v : Nat) : Taken u (complete (abortTo v) u)
  /-- by an access that ends in a bus or address error (R431, R432) -/
  | error (e : AccessError) : Taken u (groupZero e u)

/-- How an instruction goes on from the state `u` that its small changes have reached. -/
inductive Ending (i : Instr) (u : State) : State → Prop
  /-- it ends there -/
  | done : Ending i u u
  /-- it writes SR as a whole, in supervisor state (R43, `49_not_documented.md` R603, R609) -/
  | status (f : StatusReg) (r : RunState) (hi : writesSr i = true) (hs : u.sr.s = true) : Ending i u { u with sr := f, run := r }
  /-- MOVE to USP, in supervisor state (R603) -/
  | usp (r : Reg) (v : Long) (hi : i = .moveUsp false r) (hs : u.sr.s = true) : Ending i u { u with usp := v }
  /-- it takes an exception -/
  | taken {t : State} (ht : Taken u t) : Ending i u t

/-- The relation leads to a state from which the instruction, whose outcome is `o`, goes on by an ending. -/
def Ends (R : State → State → Prop) (i : Instr) (s : State) (o : Outcome) : Prop :=
  ∀ t, o = .next t → ∃ u, R s u ∧ Ending i u t

/-- An access of a size at an address lies in one of the ranges. -/
def Stores (ranges : List (Long × Nat)) (sz : Size) (a : Long) : Prop :=
  ∃ p ∈ ranges, ∃ j, a = p.1 + BitVec.ofNat 32 j ∧ j + sz.bytes ≤ p.2

theorem stores_head {sz : Size} {a : Long} (ranges : List (Long × Nat)) : Stores ((a, sz.bytes) :: ranges) sz a :=
  ⟨_, List.mem_cons_self, 0, (BitVec.add_zero a).symm, (Nat.zero_add _).le⟩

section

variable {D A : List Reg} {F : BitVec 5} {W : Size → Long → Prop} {R : State → State → Prop} {i : Instr} {s : State}

theorem ends_next {t : State} (h : R s t) : Ends R i s (.next t) := fun _ ht => by
  cases ht
  exact ⟨t, h, .done⟩

theorem ends_of_ending (h : Closed D A F W R) {t : State} (ht : Ending i s t) : Ends R i s (.next t) := fun _ hn => by
  cases hn
  exact ⟨s, h.refl s, ht⟩

/-- A computation that keeps the relation ends where it goes on to, or in the error that ends it. -/
theorem ends_run {m : Exec Unit} (h : R s (m.final s)) : Ends R i s (Machine.run m s) := fun t ht => by
  cases ht
  unfold Exec.final at h
  unfold complete
  cases hr : m.run s with
  | ok _ u =>
    rw [hr] at h
    exact ⟨u, h, .done⟩
  | error e u =>
    rw [hr] at h
    exact ⟨u, h, .taken (.error e)⟩

theorem ends_trans (h : Closed D A F W R) {t : State} {o : Outcome} (hst : R s t) (ht : Ends R i t o) : Ends R i s o :=
  fun u hu => by
    obtain ⟨w, htw, hw⟩ := ht u hu
    exact ⟨w, h.trans _ _ _ hst htw, hw⟩

theorem ends_bind (h : Closed D A F W R) {α : Type} {m : Exec α} {f : α → Exec Unit} (hm : R s (m.final s))
    (hf : ∀ a t, m.run s = .ok a t → Ends R i t (Machine.run (f a) t)) :
    Ends R i s (Machine.run (m >>= f) s) := fun t ht => by
  cases ht
  unfold Exec.final at hm
  unfold complete
  rw [EStateM.run_bind]
  cases hr : m.run s with
  | ok a u =>
    rw [hr] at hm
    obtain ⟨w, huw, hw⟩ := hf a u hr _ rfl
    exact ⟨w, h.trans _ _ _ hm huw, hw⟩
  | error e u =>
    rw [hr] at hm
    exact ⟨u, hm, .taken (.error e)⟩

theorem ends_get (h : Closed D A F W R) {k : State → Exec Unit} (hk : Ends R i s (Machine.run (k s) s)) :
    Ends R i s (Machine.run (get >>= k) s) :=
  ends_bind h (h.refl s) fun _ _ ht => by cases ht; exact hk

theorem ends_modify (h : Closed D A F W R) {g : State → State} {k : Unit → Exec Unit} (hg : R s (g s))
    (hk : Ends R i (g s) (Machine.run (k ()) (g s))) : Ends R i s (Machine.run (modify g >>= k) s) :=
  ends_bind h hg fun _ _ ht => by cases ht; exact hk

theorem ends_setSr (h : Closed D A F W R) {f : StatusReg → StatusReg} {k : Unit → Exec Unit} (hf : SameBut F s.sr (f s.sr))
    (hk : ∀ t, Ends R i t (Machine.run (k ()) t)) : Ends R i s (Machine.run (modify (fun s => s.setSr (f s.sr)) >>= k) s) :=
  ends_modify h (h.setSr s _ hf) (hk _)

theorem ends_drawFlag (h : Closed D A F W R) {k : Bool → Exec Unit}
    (hk : ∀ b, Ends R i { s with draws := s.draws + 1 } (Machine.run (k b) { s with draws := s.draws + 1 })) :
    Ends R i s (Machine.run (drawFlag >>= k) s) :=
  ends_bind h (h.draws s _) fun _ _ ht => by cases ht; exact hk _

theorem ends_privileged (h : Closed D A F W R) {m : Exec Unit} (hm : s.sr.s = true → Ends R i s (Machine.run m s)) :
    Ends R i s (Machine.run (privileged m) s) := by
  show Ends R i s (Machine.run (if s.sr.s = true then m else abortTo 8) s)
  split
  · next hs => exact hm hs
  · exact ends_of_ending h (.taken (.abort 8))

end

/-! ### The flags of each operation (R42) -/

theorem flags_except_extend (f : StatusReg) : f.flags &&& ~~~(0b01111 : BitVec 5) = BitVec.ofBool f.x ++ 0#4 := by
  obtain ⟨_, _, _, x, n, z, v, c⟩ := f
  simp only [StatusReg.flags]
  revert x n z v c
  decide

theorem flags_except_zero (f : StatusReg) (z : Bool) :
    { f with z := z }.flags &&& ~~~(0b00100 : BitVec 5) = f.flags &&& ~~~(0b00100 : BitVec 5) := by
  obtain ⟨_, _, _, x, n, z', v, c⟩ := f
  simp only [StatusReg.flags]
  revert x n z' v c z
  decide

section

variable {f g : StatusReg}

/-- All five flags may change. -/
theorem sameBut_all (h : g.t = f.t ∧ g.s = f.s ∧ g.i = f.i) : SameBut 0b11111 f g := by
  obtain ⟨ht, hs, hi⟩ := h
  exact ⟨ht, hs, hi, by simp⟩

/-- All but X may change. -/
theorem sameBut_nzvc (h : g.t = f.t ∧ g.s = f.s ∧ g.i = f.i) (hx : g.x = f.x) : SameBut 0b01111 f g := by
  obtain ⟨ht, hs, hi⟩ := h
  exact ⟨ht, hs, hi, by rw [flags_except_extend, flags_except_extend, hx]⟩

/-- Z alone may change. -/
theorem sameBut_z (f : StatusReg) (z : Bool) : SameBut 0b00100 f { f with z := z } := ⟨rfl, rfl, rfl, flags_except_zero f z⟩

theorem sameBut_logicFlags {n : Nat} (r : BitVec n) (f : StatusReg) : SameBut 0b01111 f (f.logicFlags r) :=
  sameBut_nzvc ⟨rfl, rfl, rfl⟩ rfl

end

/-- A property that a one-bit step keeps, all its repetitions keep (R301). -/
theorem repeatStep_keeps {α β : Type} {step : α → α} (π : α → β) (h : ∀ p, π (step p) = π p) (c : Nat) (p : α) :
    π (repeatStep step c p) = π p := by
  induction c generalizing p with
  | zero => rfl
  | succ c ih => exact (ih (step p)).trans (h p)

/-- The part of SR that no shift changes. -/
def systemByte (f : StatusReg) : Bool × Bool × BitVec 3 := (f.t, f.s, f.i)

theorem sameBut_shiftBy {n : Nat} {step : Result n → Result n} (h : ∀ p, systemByte (step p).2 = systemByte p.2)
    (v : BitVec n) (c : Nat) (f : StatusReg) : SameBut 0b11111 f (shiftBy step v c f).2 := by
  have hmode := repeatStep_keeps (fun p : Result n => systemByte p.2) h c (v, { f with v := false, c := false })
  simp only [systemByte, Prod.mk.injEq] at hmode
  exact sameBut_all hmode

theorem sameBut_rotateBy {n : Nat} {step : Result n → Result n} (h : ∀ p, systemByte (step p).2 = systemByte p.2)
    (hx : ∀ p, (step p).2.x = p.2.x) (v : BitVec n) (c : Nat) (f : StatusReg) :
    SameBut 0b01111 f (shiftBy step v c f).2 := by
  have hmode := repeatStep_keeps (fun p : Result n => systemByte p.2) h c (v, { f with v := false, c := false })
  simp only [systemByte, Prod.mk.injEq] at hmode
  exact sameBut_nzvc hmode (repeatStep_keeps (fun p : Result n => p.2.x) hx c (v, { f with v := false, c := false }))

theorem sameBut_rotateExtendBy {n : Nat} {step : Result n → Result n} (h : ∀ p, systemByte (step p).2 = systemByte p.2)
    (v : BitVec n) (c : Nat) (f : StatusReg) : SameBut 0b11111 f (rotateExtendBy step v c f).2 := by
  have hmode := repeatStep_keeps (fun p : Result n => systemByte p.2) h c (v, { f with v := false })
  simp only [systemByte, Prod.mk.injEq] at hmode
  exact sameBut_all hmode

section

variable {n : Nat} (v : BitVec n) (c : Nat) (f : StatusReg)

theorem sameBut_asl : SameBut 0b11111 f (aslResult n v c f).2 := sameBut_shiftBy (step := aslStep) (fun _ => rfl) v c f
theorem sameBut_asr : SameBut 0b11111 f (asrResult n v c f).2 := sameBut_shiftBy (step := asrStep) (fun _ => rfl) v c f
theorem sameBut_lsl : SameBut 0b11111 f (lslResult n v c f).2 := sameBut_shiftBy (step := lslStep) (fun _ => rfl) v c f
theorem sameBut_lsr : SameBut 0b11111 f (lsrResult n v c f).2 := sameBut_shiftBy (step := lsrStep) (fun _ => rfl) v c f
theorem sameBut_rol : SameBut 0b01111 f (rolResult n v c f).2 :=
  sameBut_rotateBy (step := rolStep) (fun _ => rfl) (fun _ => rfl) v c f
theorem sameBut_ror : SameBut 0b01111 f (rorResult n v c f).2 :=
  sameBut_rotateBy (step := rorStep) (fun _ => rfl) (fun _ => rfl) v c f
theorem sameBut_roxl : SameBut 0b11111 f (roxlResult n v c f).2 :=
  sameBut_rotateExtendBy (step := roxlStep) (fun _ => rfl) v c f
theorem sameBut_roxr : SameBut 0b11111 f (roxrResult n v c f).2 :=
  sameBut_rotateExtendBy (step := roxrStep) (fun _ => rfl) v c f

end

/-! ### Operands -/

section

variable {D A : List Reg} {F : BitVec 5} {W : Size → Long → Prop} {R : State → State → Prop}

theorem steps_stepped (ea : EA) : EA.Steps (stepped ea) ea := by
  cases ea <;> simp [EA.Steps, stepped]

theorem steps_steppedOrIs (ea : EA) : EA.Steps (steppedOrIs ea) ea := by
  cases ea <;> simp [EA.Steps, steppedOrIs]

theorem steps_mono {A' : List Reg} {ea : EA} (h : EA.Steps A ea) (hA : A ⊆ A') : EA.Steps A' ea := by
  cases ea with
  | post r | pre r => exact hA h
  | _ => trivial

/-- The operand that an effective address designates may be written. -/
theorem allowed_evalEA (xp : Long) (sz : Size) (ea : EA) (s : State) (hD : dataWritten.dataOf ea ⊆ D)
    (hA : steppedOrIs ea ⊆ A)
    (hW : (evalEA xp sz ea s).1.inMemory = true → W sz (evalEA xp sz ea s).1.addr) :
    (evalEA xp sz ea s).1.Allowed D A W sz := by
  cases ea with
  | dn r => exact hD List.mem_cons_self
  | an r => exact hA List.mem_cons_self
  | imm v => trivial
  | _ => exact hW rfl

theorem stores_at {s : State} {own : Nat} {sz : Size} {ea : EA}
    (h : (evalEA (s.npc (1 + own)) sz ea s).1.inMemory = true) :
    Stores (storedRanges.at_ s own sz ea) sz (evalEA (s.npc (1 + own)) sz ea s).1.addr := by
  simp only [storedRanges.at_, h, if_true]
  exact stores_head []

theorem allowed_at (own : Nat) (sz : Size) (ea : EA) (s : State) :
    (evalEA (s.npc (1 + own)) sz ea s).1.Allowed (dataWritten.dataOf ea) (steppedOrIs ea)
      (Stores (storedRanges.at_ s own sz ea)) sz :=
  allowed_evalEA _ sz ea s (List.Subset.refl _) (List.Subset.refl _) stores_at

end

/-! ### Shapes of instructions -/

section

variable {F : BitVec 5} {R : State → State → Prop} {i : Instr} {s : State}

/-- An operand changed in place. -/
theorem ends_modifyEA {own : Nat} {sz : Size} {ea : EA} {op : BitVec sz.bits → StatusReg → Result sz.bits}
    (h : Closed (dataWritten.dataOf ea) (steppedOrIs ea) F (Stores (storedRanges.at_ s own sz ea)) R)
    (hf : ∀ v f, SameBut F f (op v f).2) : Ends R i s (Machine.run (modifyEA own sz ea op) s) :=
  ends_run (h.modifyEA s (steps_steppedOrIs ea) (allowed_at own sz ea s) hf)

theorem ends_testEA {D : List Reg} {W : Size → Long → Prop} {own : Nat} {sz : Size} {ea : EA}
    {op : BitVec sz.bits → StatusReg → StatusReg} (h : Closed D (stepped ea) F W R) (hf : ∀ v f, SameBut F f (op v f)) :
    Ends R i s (Machine.run (testEA own sz ea op) s) :=
  ends_run (h.testEA s (steps_stepped ea) hf)

theorem ends_sourceToDn {W : Size → Long → Prop} {sz : Size} {ea : EA} {r : Reg}
    {op : BitVec sz.bits → BitVec sz.bits → StatusReg → Result sz.bits} (h : Closed [r] (stepped ea) F W R)
    (hf : ∀ v w f, SameBut F f (op v w f).2) : Ends R i s (Machine.run (sourceToDn sz ea r op) s) :=
  ends_run (h.sourceToDn s (steps_stepped ea) List.mem_cons_self hf)

theorem ends_sourceToAn {D : List Reg} {W : Size → Long → Prop} {sz : Size} {ea : EA} {r : Reg} {op : Long → Long → Long}
    (h : Closed D (r :: stepped ea) F W R) : Ends R i s (Machine.run (sourceToAn sz ea r op) s) :=
  ends_run (h.sourceToAn s (steps_mono (steps_stepped ea) (List.subset_cons_self _ _)) List.mem_cons_self)

end

/-! ### Register pairs -/

section

variable {D A : List Reg} {F : BitVec 5} {W : Size → Long → Prop} {R : State → State → Prop} {i : Instr} {s t : State}
  {sz : Size} {mem : Bool} {y x : Reg}

theorem closed_pairOperands (h : Closed D (if mem then [y, x] else []) F W R) :
    R s ((pairOperands sz mem y x).final s) := by
  unfold pairOperands
  cases mem with
  | true =>
    have hy : y ∈ [y, x] := List.mem_cons_self
    have hx : x ∈ [y, x] := List.mem_cons_of_mem _ List.mem_cons_self
    exact h.bindPlace hy (h.bindReadLoc (h.bindPlace hx (h.bindReadLoc (h.refl _))))
  | false => exact h.bindPlace trivial (h.bindReadLoc (h.bindPlace trivial (h.bindReadLoc (h.refl _))))

/-- The second operand of a pair is where the result goes. -/
theorem allowed_pair {p : BitVec sz.bits × BitVec sz.bits × Loc} (h : (pairOperands sz mem y x).run s = .ok p t) :
    p.2.2.Allowed (if mem then [] else [x]) (if mem then [y, x] else [])
      (Stores (if mem then storedRanges.pairAt s sz y x else [])) sz := by
  cases mem with
  | true =>
    simp only [pairOperands, if_true, EStateM.run_bind, run_place, readLoc_run, EStateM.run_pure] at h
    split at h <;> [skip; cases h]
    rename_i hy
    split at hy <;> cases hy
    split at h <;> [skip; cases h]
    rename_i hx
    split at hx <;> cases hx
    cases h
    exact stores_head []
  | false =>
    rw [pairOperands_reg] at h
    cases h
    exact List.mem_cons_self

theorem ends_pairOp {op : BitVec sz.bits → BitVec sz.bits → StatusReg → Result sz.bits}
    (h : Closed (if mem then [] else [x]) (if mem then [y, x] else []) F
      (Stores (if mem then storedRanges.pairAt s sz y x else [])) R)
    (hf : ∀ v w f, SameBut F f (op v w f).2) : Ends R i s (Machine.run (pairOp sz mem y x op) s) := by
  refine ends_run (h.bind (closed_pairOperands h) fun p t hp => ?_)
  obtain ⟨vy, vx, l⟩ := p
  refine h.bindGet (h.bindWriteLoc (allowed_pair hp) (h.flagsAdvance _ _ _ ?_))
  rw [Loc.put_sr]
  exact hf vy vx t.sr

theorem closed_decimalOp (h : Closed D A 0b11111 W R) {op : Byte → Byte → Bool → Byte × Bool} {v w : Byte} {l : Loc}
    (hl : l.Allowed D A W .b) (n : Nat) : R s ((decimalOp op v w l n).final s) := by
  obtain ⟨p, k, hrun, -⟩ := decimal_run op v w s
  refine h.bind ?_ fun p t _ => ?_
  · rw [Exec.final_of_ok hrun]
    exact h.draws s k
  · exact h.bindWriteLoc hl (h.bindDrawFlag fun _ => h.bindDrawFlag fun _ =>
      h.flagsAdvance _ _ _ (sameBut_all ⟨rfl, rfl, rfl⟩))

theorem ends_decimalPair {op : Byte → Byte → Bool → Byte × Bool}
    (h : Closed (if mem then [] else [x]) (if mem then [y, x] else []) 0b11111
      (Stores (if mem then storedRanges.pairAt s .b y x else [])) R) :
    Ends R i s (Machine.run (decimalPair op mem y x) s) :=
  ends_run (h.bind (closed_pairOperands h) fun _ _ hp => closed_decimalOp h (allowed_pair hp) 1)

end

/-! ### Data movement -/

section

variable {D A : List Reg} {F : BitVec 5} {W : Size → Long → Prop} {R : State → State → Prop} {i : Instr} {s : State}

theorem ends_move {sz : Size} {src dst : EA} (h : Closed (dataWritten.dataOf dst) (stepped src ++ steppedOrIs dst) 0b01111
    (Stores (storedRanges.after s sz src dst)) R) : Ends R i s (Machine.run (move sz src dst) s) := by
  have hsrc := steps_mono (steps_stepped src) (List.subset_append_left (stepped src) (steppedOrIs dst))
  have hdst := steps_mono (steps_steppedOrIs dst) (List.subset_append_right (stepped src) (steppedOrIs dst))
  refine ends_run (h.bind (h.source 0 sz src s hsrc) fun v t ht => h.bindGet (h.bindCheckFetch (h.bindPlace hdst ?_)))
  obtain ⟨rfl, -⟩ := source_state ht
  refine h.bindWriteLoc (allowed_evalEA _ sz dst _ (List.Subset.refl _) (List.subset_append_right _ _) fun hmem => ?_)
    (h.flagsAdvance _ _ _ (sameBut_logicFlags _ _))
  rw [evalEA_npc] at hmem ⊢
  rw [storedRanges.after, if_pos hmem]
  exact stores_head []

/-- Each register of a list is stored in its turn, upward. -/
theorem closed_storeUp (h : Closed D A F W R) {sz : Size} {gs : List GReg} {a : Long}
    (hW : ∀ j < gs.length, W sz (a + BitVec.ofNat 32 (j * sz.bytes))) (s : State) : R s ((storeUp sz gs a).final s) := by
  induction gs generalizing a s with
  | nil => exact h.refl s
  | cons g gs ih =>
    refine h.bindGet (h.bindWriteMem (by simpa using hW 0 (Nat.succ_pos _)) (ih (fun j hj => ?_) _))
    have hnext := hW (j + 1) (Nat.succ_lt_succ hj)
    rwa [Nat.succ_mul, Nat.add_comm, BitVec.ofNat_add, ← BitVec.add_assoc] at hnext

/-- Each register of a list is stored in its turn, downward. -/
theorem closed_storeDown (h : Closed D A F W R) {sz : Size} {gs : List GReg} {a : Long}
    (hW : ∀ j < gs.length, W sz (a - BitVec.ofNat 32 ((j + 1) * sz.bytes))) (s : State) :
    R s ((storeDown sz gs a).final s) := by
  induction gs generalizing a s with
  | nil => exact h.refl s
  | cons g gs ih =>
    refine h.bindGet (h.bindWriteMem (by simpa using hW 0 (Nat.succ_pos _)) (ih (fun j hj => ?_) _))
    have hnext := hW (j + 1) (Nat.succ_lt_succ hj)
    rwa [Nat.succ_mul (j + 1), Nat.add_comm, BitVec.ofNat_add, ← BitVec.sub_sub] at hnext

/-- The register of a list is one that may be written. -/
def Listable (D A : List Reg) : GReg → Prop
  | .d r => r ∈ D
  | .a r => r ∈ A

theorem closed_loadUp (h : Closed D A F W R) {sz : Size} {sp : Space} {gs : List GReg} (hgs : ∀ g ∈ gs, Listable D A g)
    (a : Long) (s : State) : R s ((loadUp sz sp gs a).final s) := by
  induction gs generalizing a s with
  | nil => exact h.refl s
  | cons g gs ih =>
    refine h.bindReadMem fun v => h.bindModify ?_ (ih (fun g hg => hgs g (List.mem_cons_of_mem _ hg)) _ _)
    have hg := hgs g List.mem_cons_self
    cases g with
    | d r => exact h.setD s r _ hg
    | a r => exact h.setA s r _ hg

/-- The registers that a mask names (R382). -/
theorem listable_of_mask (mask : Word) (B : List Reg) : ∀ g ∈ selected mask forwardOrder,
    Listable ([0, 1, 2, 3, 4, 5, 6, 7].filter fun r : Reg => mask.getLsbD r.toNat)
      (B ++ [0, 1, 2, 3, 4, 5, 6, 7].filter fun r : Reg => mask.getLsbD (8 + r.toNat)) g := by
  have hall : ∀ r : Reg, r ∈ [0, 1, 2, 3, 4, 5, 6, 7] := by decide
  intro g hg
  rw [selected_forward] at hg
  obtain ⟨k, hk, rfl⟩ := List.mem_map.1 hg
  obtain ⟨hlt, hbit⟩ := List.mem_filter.1 hk
  rw [List.mem_range] at hlt
  unfold listed
  split
  · next hd =>
    have hreg : (BitVec.ofNat 3 k).toNat = k := by simp; omega
    exact List.mem_filter.2 ⟨hall _, by rw [hreg]; exact hbit⟩
  · next ha =>
    have hreg : 8 + (BitVec.ofNat 3 k).toNat = k := by simp; omega
    exact List.mem_append_right _ (List.mem_filter.2 ⟨hall _, by rw [hreg]; exact hbit⟩)

theorem length_selected (mask : Word) : (selected mask forwardOrder).length = (maskBits mask).length ∧
    (selected mask backwardOrder).length = (maskBits mask).length := by
  rw [selected_forward, selected_backward, List.length_map, List.length_map]
  exact ⟨rfl, rfl⟩

theorem stores_up (sz : Size) (a : Long) {n j : Nat} (hj : j < n) :
    Stores [(a, sz.bytes * n)] sz (a + BitVec.ofNat 32 (j * sz.bytes)) := by
  refine ⟨_, List.mem_cons_self, j * sz.bytes, rfl, ?_⟩
  calc j * sz.bytes + sz.bytes = (j + 1) * sz.bytes := (Nat.succ_mul _ _).symm
    _ ≤ n * sz.bytes := Nat.mul_le_mul_right _ hj
    _ = sz.bytes * n := Nat.mul_comm _ _

theorem stores_down (sz : Size) (a : Long) {n j : Nat} (hj : j < n) :
    Stores [(a - BitVec.ofNat 32 (sz.bytes * n), sz.bytes * n)] sz (a - BitVec.ofNat 32 ((j + 1) * sz.bytes)) := by
  have hle : (j + 1) * sz.bytes ≤ sz.bytes * n := Nat.mul_comm n _ ▸ Nat.mul_le_mul_right _ hj
  obtain ⟨d, hd⟩ := Nat.exists_eq_add_of_le hle
  refine ⟨_, List.mem_cons_self, d, ?_, ?_⟩
  · rw [hd, BitVec.ofNat_add]
    generalize BitVec.ofNat 32 ((j + 1) * sz.bytes) = b
    generalize BitVec.ofNat 32 d = c
    bv_omega
  · rw [Nat.succ_mul] at hd
    omega

/-- Every operand but `-(An)` is evaluated once, and its registers are stored upward (R385). -/
theorem storeRegisters_eq {ea : EA} (he : ∀ r, ea ≠ .pre r) (sz : Size) (mask : Word) :
    storeRegisters sz mask ea = (do
      let l ← place 1 sz ea
      storeUp sz (selected mask forwardOrder) l.addr
      modify fun s => s.advance (2 + ea.words sz)) := by
  cases ea with
  | pre r => exact absurd rfl (he r)
  | _ => rfl

/-- Every operand but `(An)+` is evaluated once, and its registers are loaded upward (R386). -/
theorem loadRegisters_eq {ea : EA} (he : ∀ r, ea ≠ .post r) (sz : Size) (mask : Word) :
    loadRegisters sz mask ea = (do
      let l ← place 1 sz ea
      let _ ← loadUp sz l.space (selected mask forwardOrder) l.addr
      modify fun s => s.advance (2 + ea.words sz)) := by
  cases ea with
  | post r => exact absurd rfl (he r)
  | _ => rfl

theorem ends_movemToMem {long : Bool} {mask : Word} {ea : EA}
    (h : Closed D (stepped ea) F (Stores (storedRanges (.movemToMem long mask ea) s)) R) :
    Ends R i s (Machine.run (storeRegisters (wordOrLong long) mask ea) s) := by
  obtain ⟨hforward, hbackward⟩ := length_selected mask
  by_cases he : ∃ r, ea = .pre r
  · obtain ⟨r, rfl⟩ := he
    refine ends_run (h.bindGet (h.bind ?_ fun a t _ => h.bindModify (h.setA t r a List.mem_cons_self) (h.advance _ _)))
    exact closed_storeDown h (fun j hj => stores_down _ _ (hbackward ▸ hj)) s
  · have hne : ∀ r, ea ≠ .pre r := fun r hr => he ⟨r, hr⟩
    have hranges : storedRanges (.movemToMem long mask ea) s =
        [((evalEA (s.npc 2) (wordOrLong long) ea s).1.addr, (wordOrLong long).bytes * (maskBits mask).length)] := by
      cases ea with
      | pre r => exact absurd rfl (hne r)
      | _ => rfl
    rw [hranges] at h
    rw [storeRegisters_eq hne]
    refine ends_run (h.bindPlace (steps_stepped ea) (h.bind ?_ fun _ t _ => h.advance t _))
    exact closed_storeUp h (fun j hj => stores_up _ _ (hforward ▸ hj)) _

theorem ends_movemToRegs {sz : Size} {mask : Word} {ea : EA}
    (h : Closed ([0, 1, 2, 3, 4, 5, 6, 7].filter fun r : Reg => mask.getLsbD r.toNat)
      (stepped ea ++ [0, 1, 2, 3, 4, 5, 6, 7].filter fun r : Reg => mask.getLsbD (8 + r.toNat)) F W R) :
    Ends R i s (Machine.run (loadRegisters sz mask ea) s) := by
  have hload : ∀ (sp : Space) (a : Long) (t : State), R t ((loadUp sz sp (selected mask forwardOrder) a).final t) :=
    fun _ a t => closed_loadUp h (listable_of_mask mask _) a t
  by_cases he : ∃ r, ea = .post r
  · obtain ⟨r, rfl⟩ := he
    exact ends_run (h.bindGet (h.bind (hload _ _ s) fun a t _ =>
      h.bindModify (h.setA t r a List.mem_cons_self) (h.advance _ _)))
  · rw [loadRegisters_eq fun r hr => he ⟨r, hr⟩]
    refine ends_run (h.bindPlace (steps_mono (steps_stepped ea) (List.subset_append_left _ _)) ?_)
    exact h.bind (hload _ _ _) fun _ t _ => h.advance t _

/-- Bytes stored at every second address (R387). -/
theorem closed_storeAlternate (h : Closed D A F W R) {bs : List Byte} {a : Long}
    (hW : ∀ j < bs.length, W .b (a + BitVec.ofNat 32 (2 * j))) (s : State) : R s ((storeAlternate bs a).final s) := by
  induction bs generalizing a s with
  | nil => exact h.refl s
  | cons b bs ih =>
    refine h.bindWriteMem (by simpa using hW 0 (Nat.succ_pos _)) (ih (fun j hj => ?_) _)
    have hnext := hW (j + 1) (Nat.succ_lt_succ hj)
    rwa [Nat.mul_succ, Nat.add_comm, BitVec.ofNat_add, ← BitVec.add_assoc] at hnext

theorem ends_movepStore {long : Bool} {d a : Reg} {disp : Word}
    (h : Closed D A F (Stores (storedRanges (.movep true long d a disp) s)) R) :
    Ends R i s (exec (.movep true long d a disp) s) := by
  have hstore : ∀ (ranges : List (Long × Nat)) (b : Long), (b, 1) ∈ ranges → Stores ranges .b b := fun _ b hb =>
    ⟨_, hb, 0, (BitVec.add_zero b).symm, le_rfl⟩
  refine ends_run (h.bind (closed_storeAlternate h (fun j hj => hstore _ _ ?_) s) fun _ t _ => h.advance t 2)
  cases long with
  | true =>
    have hj4 : j < 4 := hj
    interval_cases j <;> simp [storedRanges]
  | false =>
    have hj2 : j < 2 := hj
    interval_cases j <;> simp [storedRanges]

theorem ends_movepLoad {long : Bool} {d a : Reg} {disp : Word} (h : Closed [d] A F W R) :
    Ends R i s (exec (.movep false long d a disp) s) := by
  refine ends_run (h.bind (h.bindReadMem fun b0 => h.bindReadMem fun b1 => ?_) fun _ t _ => h.advance t 2)
  cases long with
  | true => exact h.bindReadMem fun b2 => h.bindReadMem fun b3 => h.setD s d _ List.mem_cons_self
  | false => exact h.setDn s .w d _ List.mem_cons_self

/-! ### The stack -/

theorem closed_push (h : Closed D A F W R) (hA : 7 ∈ A) {sz : Size} (v : BitVec sz.bits)
    (hW : W sz (s.sp - BitVec.ofNat 32 sz.bytes)) : R s ((push sz v).final s) := by
  refine h.bindModify (h.setA s 7 _ hA) (h.bindGet (h.writeMem v _ ?_))
  rw [State.sp_setSp]
  exact hW

theorem closed_pop (h : Closed D A F W R) (hA : 7 ∈ A) (sz : Size) : R s ((pop sz).final s) :=
  h.bindGet (h.bindReadMem fun _ => h.bindModify (h.setA s 7 _ hA) (h.refl _))

theorem ends_call (h : Closed D A F (Stores [(s.sp - 4, 4)]) R) (hA : 7 ∈ A) (ret target : Long) :
    Ends R i s (Machine.run (call ret target) s) :=
  ends_run (h.bind (closed_push h hA (sz := .l) ret (stores_head (sz := .l) [])) fun _ t _ => h.jump t target)

end

/-! ### Every instruction -/

section

variable {D A : List Reg} {F : BitVec 5} {W : Size → Long → Prop} {R : State → State → Prop} {i : Instr} {s : State}

theorem ends_bitTest {own b0 : Nat} {ea : EA} (h : Closed D (stepped ea) 0b00100 W R) :
    Ends R i s (Machine.run (bitTest own b0 ea) s) := by
  rw [bitTest_eq_testEA]
  exact ends_testEA h fun _ _ => sameBut_z _ _

theorem ends_bitModify {op : BitOp} {own b0 : Nat} {ea : EA}
    (h : Closed (dataWritten.dataOf ea) (steppedOrIs ea) 0b00100 (Stores (storedRanges.at_ s own .b ea)) R) :
    Ends R i s (Machine.run (bitModify op own b0 ea) s) := by
  have hloc : (evalEA (s.npc (1 + own)) (bitSize ea) ea s).1.Allowed (dataWritten.dataOf ea) (steppedOrIs ea)
      (Stores (storedRanges.at_ s own .b ea)) (bitSize ea) := by
    cases ea with
    | dn r => exact List.mem_cons_self
    | _ => exact allowed_at own .b _ s
  exact ends_run (h.bindPlace (steps_steppedOrIs ea) (h.bindReadLoc (h.bindModify (h.setSr _ _ (sameBut_z _ _))
    (h.bindWriteLoc hloc (h.advance _ _)))))

theorem closed_overwriteEA {sz : Size} {ea : EA}
    (h : Closed (dataWritten.dataOf ea) (steppedOrIs ea) F (Stores (storedRanges.at_ s 0 sz ea)) R) (v : BitVec sz.bits) :
    R s ((overwriteEA sz ea v).final s) :=
  h.bindPlace (steps_steppedOrIs ea) (h.bindReadLoc (h.writeLoc v _ (allowed_at 0 sz ea s)))

theorem closed_shiftDn (h : Closed D A F W R) {op : ShiftOp} {sz : Size} {c : ShiftCount} {r : Reg} (hr : r ∈ D)
    (hf : ∀ (n : Nat) (v : BitVec n) c f, SameBut F f (op n v c f).2) : R s (shiftDn op sz c r s) :=
  h.trans _ _ _ (h.setDn s sz r _ hr) (h.flagsAdvance _ _ _ (hf _ _ _ _))

theorem ends_multiply {product : Word → Word → Long} {ea : EA} {d : Reg} (h : Closed [d] (stepped ea) 0b01111 W R) :
    Ends R i s (Machine.run (multiply product ea d) s) :=
  ends_run (h.bind (h.source 0 .w ea s (steps_stepped ea)) fun _ t _ =>
    h.trans _ _ _ (h.setD t d _ List.mem_cons_self) (h.flagsAdvance _ _ _ (sameBut_logicFlags _ _)))

theorem ends_divide {result : Word → Long → Option (Word × Word)} {ea : EA} {d : Reg}
    (h : Closed [d] (stepped ea) 0b01111 W R) : Ends R i s (Machine.run (divide result ea d) s) := by
  refine ends_bind h (h.source 0 .w ea s (steps_stepped ea)) fun v t _ => ?_
  show Ends R i t (Machine.run (if v = 0 then divideByZero (t.npc (1 + ea.words .w))
    else match result v (t.getD d) with
      | none => divideOverflow (1 + ea.words .w)
      | some (q, m) => modify fun s => ((s.setD d (m ++ q)).setSr (s.sr.quotientFlags q)).advance (1 + ea.words .w)) t)
  split
  · exact ends_drawFlag h fun n => ends_drawFlag h fun z => ends_drawFlag h fun o =>
      ends_setSr h (f := fun f => f.divZeroFlags n z o) (sameBut_nzvc ⟨rfl, rfl, rfl⟩ rfl) fun _ =>
        ends_of_ending h (.taken (.trap _ _))
  · split
    · exact ends_drawFlag h fun n => ends_drawFlag h fun z =>
        ends_run (h.flagsAdvance _ _ _ (sameBut_nzvc ⟨rfl, rfl, rfl⟩ rfl))
    · exact ends_run (h.trans _ _ _ (h.setD t d _ List.mem_cons_self) (h.flagsAdvance _ _ _ (sameBut_logicFlags _ _)))

theorem ends_checkBound (h : Closed D A 0b01111 W R) (bound : Word) (d : Reg) (words : Nat) :
    Ends R i s (Machine.run (checkBound bound d words) s) := by
  refine ends_get h (ends_drawFlag h fun n => ends_drawFlag h fun z => ends_drawFlag h fun o => ends_drawFlag h fun c =>
    ends_bind h (h.setSr _ _ (sameBut_nzvc ⟨rfl, rfl, rfl⟩ rfl)) fun _ t _ => ?_)
  split
  · exact ends_get h (ends_of_ending h (.taken (.trap 6 (t.npc words))))
  · exact ends_run (h.advance _ _)

theorem ends_chk {ea : EA} {d : Reg} (h : Closed D (stepped ea) 0b01111 W R) : Ends R i s (exec (.chk ea d) s) :=
  ends_bind h (h.source 0 .w ea s (steps_stepped ea)) fun v _ _ => ends_checkBound h v d _

theorem closed_readPost (h : Closed D A F W R) (sz : Size) {r : Reg} (hr : r ∈ A) (s : State) :
    R s ((readPost sz r).final s) :=
  h.bindGet (h.bindReadMem fun _ => h.bindModify (h.setA s r _ hr) (h.refl _))

theorem ends_cmpm {sz : Size} {y x : Reg} (h : Closed D [y, x] 0b01111 W R) : Ends R i s (exec (.cmpm sz y x) s) :=
  ends_run (h.bind (closed_readPost h sz List.mem_cons_self s) fun _ t _ =>
    h.bind (closed_readPost h sz (List.mem_cons_of_mem _ List.mem_cons_self) t) fun _ u _ =>
      h.flagsAdvance u _ 1 (sameBut_nzvc ⟨rfl, rfl, rfl⟩ rfl))

theorem ends_dbcc {c : Cond} {r : Reg} {d : Word} (h : Closed [r] A F W R) : Ends R i s (exec (.dbcc c r d) s) := by
  have hr := h.setDn s .w r (s.getDn .w r - 1) List.mem_cons_self
  show Ends R i s (if condHolds s.sr c then .next (s.advance 2)
    else if s.getDn .w r - 1 = 0xFFFF then .next ((s.setDn .w r (s.getDn .w r - 1)).advance 2)
      else .next ((s.setDn .w r (s.getDn .w r - 1)).jump (branchTarget (d.signExtend 32) s)))
  split_ifs
  · exact ends_next (h.advance s 2)
  · exact ends_next (h.trans _ _ _ hr (h.advance _ 2))
  · exact ends_next (h.trans _ _ _ hr (h.jump _ _))

theorem ends_bcc {c : Cond} {d : Disp} (h : Closed D A F W R) : Ends R i s (exec (.bcc c d) s) := by
  show Ends R i s (execBcc c d s)
  unfold execBcc
  split_ifs
  · exact ends_next (h.jump s _)
  · exact ends_next (h.advance s _)

theorem ends_trapv (h : Closed D A F W R) : Ends R i s (exec .trapv s) := by
  show Ends R i s (execTrapv s)
  unfold execTrapv
  split_ifs
  · exact ends_of_ending h (.taken (.trap _ _))
  · exact ends_next (h.advance s 1)

theorem ends_lea {ea : EA} {a : Reg} (h : Closed D (a :: stepped ea) F W R) : Ends R i s (exec (.lea ea a) s) :=
  ends_next (h.trans _ _ _ (h.evalEA (s.npc 1) .l ea s (steps_mono (steps_stepped ea) (List.subset_cons_self _ _)))
    (h.trans _ _ _ (h.setA _ a _ List.mem_cons_self) (h.advance _ _)))

theorem ends_exgAA {x y : Reg} (h : Closed D [x, y] F W R) : Ends R i s (exec (.exgAA x y) s) :=
  ends_next (h.trans _ _ _ (h.setA s x _ List.mem_cons_self)
    (h.trans _ _ _ (h.setA _ y _ (List.mem_cons_of_mem _ List.mem_cons_self)) (h.advance _ 1)))

theorem ends_exgDA {x y : Reg} (h : Closed [x] [y] F W R) : Ends R i s (exec (.exgDA x y) s) :=
  ends_next (h.trans _ _ _ (h.setD s x _ List.mem_cons_self)
    (h.trans _ _ _ (h.setA _ y _ List.mem_cons_self) (h.advance _ 1)))

theorem ends_jsr {ea : EA} (h : Closed D (7 :: stepped ea) F (Stores (storedRanges (.jsr ea) s)) R) :
    Ends R i s (exec (.jsr ea) s) := by
  refine ends_trans h (h.evalEA (s.npc 1) .l ea s (steps_mono (steps_stepped ea) (List.subset_cons_self _ _))) ?_
  exact ends_call (s := (evalEA (s.npc 1) .l ea s).2) h List.mem_cons_self _ _

theorem ends_pea {ea : EA} (h : Closed D (7 :: stepped ea) F (Stores (storedRanges (.pea ea) s)) R) :
    Ends R i s (exec (.pea ea) s) := by
  refine ends_trans h (h.evalEA (s.npc 1) .l ea s (steps_mono (steps_stepped ea) (List.subset_cons_self _ _))) ?_
  refine ends_run (h.bind ?_ fun _ t _ => h.advance t _)
  exact closed_push (s := (evalEA (s.npc 1) .l ea s).2) h List.mem_cons_self (sz := .l) _ (stores_head (sz := .l) [])

theorem ends_link {r : Reg} {d : Word} (h : Closed D [7, r] F (Stores [(s.sp - 4, 4)]) R) :
    Ends R i s (exec (.link r d) s) := by
  have hr : r ∈ [7, r] := List.mem_cons_of_mem _ List.mem_cons_self
  refine ends_run (h.bindModify (h.setA s 7 _ List.mem_cons_self) (h.bindGet (h.bindWriteMem ?_ (h.bindModify (h.setA _ r _ hr)
    (h.trans _ _ _ (h.setA _ 7 _ List.mem_cons_self) (h.advance _ 2))))))
  rw [State.sp_setSp]
  exact stores_head (sz := .l) []

theorem ends_unlk {r : Reg} (h : Closed D [7, r] F W R) : Ends R i s (exec (.unlk r) s) := by
  have hr : r ∈ [7, r] := List.mem_cons_of_mem _ List.mem_cons_self
  exact ends_run (h.bindModify (h.setA s 7 _ List.mem_cons_self) (h.bindGet (h.bindReadMem fun v =>
    h.bindModify (h.setA _ r v hr) (h.trans _ _ _ (h.setA _ 7 _ List.mem_cons_self) (h.advance _ 1)))))

theorem ends_rte (h : Closed D A F W R) (hA : 7 ∈ A) (hi : writesSr i = true) : Ends R i s (exec .rte s) := by
  refine ends_privileged h fun hs => ?_
  refine ends_get h (ends_bind h (h.readMem .w .data s.ssp s) fun w t ht => ?_)
  obtain rfl := readMem_state ht
  refine ends_bind h (h.readMem .l .data (t.ssp + 2) t) fun a u hu => ?_
  obtain rfl := readMem_state hu
  have hssp : u.setA 7 (u.ssp + 6) = { u with ssp := u.ssp + 6 } := if_pos hs
  have hsteps := h.trans _ _ _ (h.setA u 7 (u.ssp + 6) hA) (h.jump _ a)
  rw [hssp] at hsteps
  exact ends_trans h hsteps (ends_of_ending h (.status (StatusReg.ofWord w) u.run hi hs))

theorem ends_moveToSr {ea : EA} (h : Closed D (stepped ea) F W R) (hi : writesSr i = true) :
    Ends R i s (exec (.moveToSr ea) s) := by
  refine ends_privileged h fun hs => ?_
  refine ends_bind h (h.source 0 .w ea s (steps_stepped ea)) fun v t ht => ?_
  obtain ⟨rfl, -⟩ := source_state ht
  exact ends_trans h (h.advance _ _) (ends_of_ending h (.status _ _ hi (by simpa using hs)))

theorem ends_addq {sz : Size} {ea : EA} {op : BitVec sz.bits → StatusReg → Result sz.bits} {o : Outcome}
    (h : Closed (dataWritten.dataOf ea) (steppedOrIs ea) (if ea.mode = .an then 0 else 0b11111)
      (Stores (storedRanges.at_ s 0 sz ea)) R)
    (han : ∀ r, ea = .an r → ∃ v, o = .next ((s.setA r v).advance 1))
    (hother : ea.mode ≠ .an → o = Machine.run (modifyEA 0 sz ea op) s)
    (hf : ∀ v f, SameBut 0b11111 f (op v f).2) : Ends R i s o := by
  by_cases he : ea.mode = .an
  · obtain ⟨r, rfl⟩ : ∃ r, ea = .an r := by
      cases ea with
      | an r => exact ⟨r, rfl⟩
      | _ => cases he
    obtain ⟨v, rfl⟩ := han r rfl
    exact ends_next (h.trans _ _ _ (h.setA s r v List.mem_cons_self) (h.advance _ 1))
  · rw [if_neg he] at h
    rw [hother he]
    exact ends_modifyEA h hf

end

/-- An instruction makes changes that its row allows, and ends in one of the four ways. -/
theorem exec_ends {R : State → State → Prop} (i : Instr) (s : State)
    (h : Closed (dataWritten i) (addressWritten i) (flagsWritten i) (Stores (storedRanges i s)) R) :
    Ends R i s (exec i s) := by
  cases i with
  | ori sz v ea | andi sz v ea | eori sz v ea => exact ends_modifyEA h fun _ _ => sameBut_logicFlags _ _
  | orDnEa sz d ea | andDnEa sz d ea | eor sz d ea => exact ends_modifyEA h fun _ _ => sameBut_logicFlags _ _
  | not sz ea | tas ea => exact ends_modifyEA h fun _ _ => sameBut_logicFlags _ _
  | subi sz v ea | addi sz v ea => exact ends_modifyEA h fun _ _ => sameBut_all ⟨rfl, rfl, rfl⟩
  | addDnEa sz d ea | subDnEa sz d ea => exact ends_modifyEA h fun _ _ => sameBut_all ⟨rfl, rfl, rfl⟩
  | neg sz ea | negx sz ea => exact ends_modifyEA h fun _ _ => sameBut_all ⟨rfl, rfl, rfl⟩
  | addq sz q ea =>
    exact ends_addq h (fun r hr => ⟨_, by rw [hr]; rfl⟩) (exec_addq_of_ne_an sz q s) fun _ _ =>
      sameBut_all ⟨rfl, rfl, rfl⟩
  | subq sz q ea =>
    exact ends_addq h (fun r hr => ⟨_, by rw [hr]; rfl⟩) (exec_subq_of_ne_an sz q s) fun _ _ =>
      sameBut_all ⟨rfl, rfl, rfl⟩
  | cmpi sz v ea | cmp sz ea d => exact ends_testEA h fun _ _ => sameBut_nzvc ⟨rfl, rfl, rfl⟩ rfl
  | tst sz ea => exact ends_testEA h fun _ _ => sameBut_logicFlags _ _
  | moveToCcr ea => exact ends_testEA h fun _ _ => sameBut_all ⟨rfl, rfl, rfl⟩
  | cmpa long ea a =>
    exact ends_run (h.bind (h.source 0 _ ea s (steps_stepped ea)) fun _ t _ =>
      h.flagsAdvance _ _ _ (sameBut_nzvc ⟨rfl, rfl, rfl⟩ rfl))
  | cmpm sz y x => exact ends_cmpm h
  | btst n ea | btstDn d ea => exact ends_bitTest h
  | bchg n ea | bclr n ea | bset n ea | bchgDn d ea | bclrDn d ea | bsetDn d ea => exact ends_bitModify h
  | moveB src dst | moveW src dst | moveL src dst => exact ends_move h
  | moveaW src a | moveaL src a | adda long src a | suba long src a => exact ends_sourceToAn h
  | moveq v r | extW r | extL r | swap r =>
    exact ends_next (h.trans _ _ _ (h.setD s r _ List.mem_cons_self) (h.flagsAdvance _ _ _ (sameBut_logicFlags _ _)))
  | orEaDn sz ea d | andEaDn sz ea d => exact ends_sourceToDn h fun _ _ _ => sameBut_logicFlags _ _
  | addEaDn sz ea d | subEaDn sz ea d => exact ends_sourceToDn h fun _ _ _ => sameBut_all ⟨rfl, rfl, rfl⟩
  | mulu ea d | muls ea d => exact ends_multiply h
  | divu ea d | divs ea d => exact ends_divide h
  | addx sz mem y x | subx sz mem y x => exact ends_pairOp h fun _ _ _ => sameBut_all ⟨rfl, rfl, rfl⟩
  | abcd mem y x | sbcd mem y x => exact ends_decimalPair h
  | nbcd ea =>
    exact ends_run (h.bindPlace (steps_steppedOrIs ea) (h.bindReadLoc (closed_decimalOp h (allowed_at 0 .b ea s) _)))
  | clr sz ea =>
    exact ends_run (h.bind (closed_overwriteEA h 0) fun _ t _ => h.flagsAdvance _ _ _ (sameBut_logicFlags _ _))
  | scc c ea => exact ends_run (h.bind (closed_overwriteEA h _) fun _ t _ => h.advance t _)
  | asrMem ea => exact ends_modifyEA h fun v f => sameBut_asr v 1 f
  | aslMem ea => exact ends_modifyEA h fun v f => sameBut_asl v 1 f
  | lsrMem ea => exact ends_modifyEA h fun v f => sameBut_lsr v 1 f
  | lslMem ea => exact ends_modifyEA h fun v f => sameBut_lsl v 1 f
  | rorMem ea => exact ends_modifyEA h fun v f => sameBut_ror v 1 f
  | rolMem ea => exact ends_modifyEA h fun v f => sameBut_rol v 1 f
  | roxrMem ea => exact ends_modifyEA h fun v f => sameBut_roxr v 1 f
  | roxlMem ea => exact ends_modifyEA h fun v f => sameBut_roxl v 1 f
  | asrReg sz c r => exact ends_next (closed_shiftDn h List.mem_cons_self fun _ => sameBut_asr)
  | aslReg sz c r => exact ends_next (closed_shiftDn h List.mem_cons_self fun _ => sameBut_asl)
  | lsrReg sz c r => exact ends_next (closed_shiftDn h List.mem_cons_self fun _ => sameBut_lsr)
  | lslReg sz c r => exact ends_next (closed_shiftDn h List.mem_cons_self fun _ => sameBut_lsl)
  | rorReg sz c r => exact ends_next (closed_shiftDn h List.mem_cons_self fun _ => sameBut_ror)
  | rolReg sz c r => exact ends_next (closed_shiftDn h List.mem_cons_self fun _ => sameBut_rol)
  | roxrReg sz c r => exact ends_next (closed_shiftDn h List.mem_cons_self fun _ => sameBut_roxr)
  | roxlReg sz c r => exact ends_next (closed_shiftDn h List.mem_cons_self fun _ => sameBut_roxl)
  | movemToRegs long mask ea => exact ends_movemToRegs h
  | movemToMem long mask ea => exact ends_movemToMem h
  | movep toMem long d a disp =>
    cases toMem with
    | true => exact ends_movepStore h
    | false => exact ends_movepLoad h
  | exgDD x y =>
    exact ends_next (h.trans _ _ _ (h.setD s x _ (by simp [dataWritten]))
      (h.trans _ _ _ (h.setD _ y _ (by simp [dataWritten])) (h.advance _ 1)))
  | exgAA x y => exact ends_exgAA h
  | exgDA x y => exact ends_exgDA h
  | lea ea a => exact ends_lea h
  | jmp ea => exact ends_next (h.trans _ _ _ (h.evalEA _ _ _ _ (steps_stepped ea)) (h.jump _ _))
  | jsr ea => exact ends_jsr h
  | pea ea => exact ends_pea h
  | bsr d => exact ends_call h List.mem_cons_self _ _
  | bra d => exact ends_next (h.jump s _)
  | bcc c d => exact ends_bcc h
  | dbcc c r d => exact ends_dbcc h
  | link r d => exact ends_link h
  | unlk r => exact ends_unlk h
  | rts => exact ends_run (h.bind (closed_pop h List.mem_cons_self .l) fun a t _ => h.jump t a)
  | rtr =>
    exact ends_run (h.bind (closed_pop h List.mem_cons_self .w) fun w t _ =>
      h.bindModify (h.setSr _ _ (sameBut_all ⟨rfl, rfl, rfl⟩))
        (h.bind (closed_pop h List.mem_cons_self .l) fun a t _ => h.jump t a))
  | oriToCcr v | andiToCcr v | eoriToCcr v => exact ends_next (h.flagsAdvance _ _ _ (sameBut_all ⟨rfl, rfl, rfl⟩))
  | moveFromSr ea =>
    exact ends_run (h.bindPlace (steps_steppedOrIs ea) (h.bindWriteLoc (allowed_at 0 .w ea s) (h.advance _ _)))
  | chk ea d => exact ends_chk h
  | nop => exact ends_next (h.advance s 1)
  | illegal => exact ends_of_ending h (.taken (.abort 4))
  | lineA x => exact ends_of_ending h (.taken (.abort 10))
  | lineF x => exact ends_of_ending h (.taken (.abort 11))
  | trap v => exact ends_of_ending h (.taken (.trap _ _))
  | trapv => exact ends_trapv h
  | oriToSr v | andiToSr v | eoriToSr v =>
    exact ends_privileged h fun hs => ends_trans h (h.advance s 2) (ends_of_ending h (.status _ _ rfl hs))
  | moveToSr ea => exact ends_moveToSr h rfl
  | stop v => exact ends_privileged h fun hs => ends_trans h (h.advance s 2) (ends_of_ending h (.status _ _ rfl hs))
  | reset => exact ends_privileged h fun _ => ends_run (h.advance s 1)
  | moveUsp toReg r =>
    refine ends_privileged h fun hs => ?_
    cases toReg with
    | true => exact ends_run (h.trans _ _ _ (h.setA s r _ List.mem_cons_self) (h.advance _ 1))
    | false => exact ends_trans h (h.advance s 1) (ends_of_ending h (.usp r _ rfl hs))
  | rte => exact ends_rte h List.mem_cons_self rfl

end Sys2Proof.Proofs.Endings
end

section
/-! SUPPORT. What taking an exception does to the state in which it is taken (`60_exceptions.md` R440, R442, R443), whatever
its own accesses meet: the rule of `ClosedTrap` from the state with SR already changed, the bytes it pushes, and the emptied
queue. -/

namespace Sys2Proof.Proofs.Entries

open Sys2Proof.Machine Sys2Proof.Claims Sys2Proof.Proofs.Endings

/-- The state at the start of exception processing: SR is changed, and a stopped processor runs (R440, R474). -/
def raised (u : State) : State := { u with sr := u.sr.enter, run := .running }

/-- The rest of an exception entry (R440). -/
def shortEntry (v : Nat) (savedPc : Long) (old : StatusReg) : Exec Unit := do
  push .l savedPc
  push .w old.toWord
  loadVector v

/-- The rest of the exception entry of a bus or address error (R443). -/
def longEntry (e : AccessError) (old : State) : Exec Unit := do
  push .l (← draw 32)
  push .w old.sr.toWord
  push .w old.ir
  push .l e.address
  push .w (accessWord (← draw 32) e)
  loadVector e.vector

theorem complete_exception (v : Nat) (pc : Long) (u : State) :
    complete (exception v pc) u = complete (shortEntry v pc u.sr) (raised u) := rfl

theorem complete_abortTo (v : Nat) (u : State) :
    complete (abortTo v) u = complete (shortEntry v u.pc u.sr) (raised { u with traceDue := false }) := rfl

theorem complete_traceException (u : State) :
    complete traceException u = complete (shortEntry 9 u.pc u.sr) (raised { u with traceDue := false }) := rfl

theorem groupZero_eq (e : AccessError) (u : State) :
    groupZero e u = match (longEntry e u).run (raised { u with traceDue := false }) with
      | .ok _ t => t
      | .error _ t => { t with run := .halted } := rfl

/-! ### Relations -/

section

variable {D A : List Reg} {F : BitVec 5} {R : State → State → Prop} {u t : State}

theorem super_shortEntry (h : ClosedTrap D A F R) (v : Nat) (pc : Long) (old : StatusReg) :
    Exec.Super R (shortEntry v pc old) :=
  h.bindSuper (h.push .l pc) fun _ => h.bindSuper (h.push .w _) fun _ => h.loadVector v

theorem super_longEntry (h : ClosedTrap D A F R) (e : AccessError) (old : State) : Exec.Super R (longEntry e old) :=
  h.bindSuper (h.draw 32) fun x => h.bindSuper (h.push .l x) fun _ => h.bindSuper (h.push .w _) fun _ =>
    h.bindSuper (h.push .w _) fun _ => h.bindSuper (h.push .l _) fun _ => h.bindSuper (h.draw 32) fun _ =>
    h.bindSuper (h.push .w _) fun _ => h.loadVector _

theorem raised_groupZero (h : ClosedTrap D A F R) (e : AccessError) (u : State) : R (raised u) (groupZero e u) := by
  have hoff : R (raised u) (raised { u with traceDue := false }) := h.traceOff (raised u)
  have hrest := (super_longEntry h e u (raised { u with traceDue := false }) rfl).1
  unfold Exec.final at hrest
  rw [groupZero_eq]
  cases hr : (longEntry e u).run (raised { u with traceDue := false }) with
  | ok _ t =>
    rw [hr] at hrest
    exact h.trans _ _ _ hoff hrest
  | error _ t =>
    rw [hr] at hrest
    exact h.trans _ _ _ hoff (h.trans _ _ _ hrest (h.run t _))

/-- The rule for an exception, from the state with SR changed. -/
theorem raised_taken (h : ClosedTrap D A F R) (ht : Taken u t) : R (raised u) t := by
  cases ht with
  | trap v pc => exact h.complete (super_shortEntry h v pc u.sr _ rfl).1
  | abort v => exact h.trans _ _ _ (h.traceOff (raised u)) (h.complete (super_shortEntry h v u.pc u.sr _ rfl).1)
  | error e => exact raised_groupZero h e u

/-- The rule for an exception. -/
theorem closed_taken (h : ClosedTrap D A F R) (ht : Taken u t) : R u t :=
  h.trans u (raised u) t (h.trans _ _ _ (h.enter u) (h.run _ _)) (raised_taken h ht)

/-- The rule for a whole instruction. -/
theorem closed_exec {i : Instr} {s : State} (h : ClosedTrap (dataWritten i) (addressWritten i) (flagsWritten i) R)
    (hstatus : ∀ u f r, writesSr i = true → R u { u with sr := f, run := r })
    (husp : ∀ u v, R u { u with usp := v }) (ht : exec i s = .next t) : R s t := by
  have hbody : Closed (dataWritten i) (addressWritten i) (flagsWritten i) (Stores (storedRanges i s)) R :=
    { h.toClosed with store := fun s sz a v _ => h.store s sz a v trivial }
  obtain ⟨u, hsu, hut⟩ := exec_ends i s hbody t ht
  refine h.trans _ _ _ hsu ?_
  cases hut with
  | done => exact h.refl _
  | status f r hi hs => exact hstatus u f r hi
  | usp r v hi hs => exact husp u v
  | taken hut => exact closed_taken h hut

end

/-! ### The queue -/

/-- A computation that goes on with an empty queue. -/
def Empties (m : Exec Unit) : Prop := ∀ s t, m.run s = .ok () t → t.prefetch = []

theorem empties_bind {α : Type} {m : Exec α} {f : α → Exec Unit} (h : ∀ a, Empties (f a)) : Empties (m >>= f) := by
  intro s t ht
  rw [EStateM.run_bind] at ht
  cases hm : m.run s with
  | ok a u =>
    rw [hm] at ht
    exact h a u t ht
  | error e u =>
    rw [hm] at ht
    cases ht

theorem empties_loadVector (v : Nat) : Empties (loadVector v) := empties_bind fun a s t ht => by cases ht; rfl

theorem empties_shortEntry (v : Nat) (pc : Long) (old : StatusReg) : Empties (shortEntry v pc old) :=
  empties_bind fun _ => empties_bind fun _ => empties_loadVector v

theorem empties_longEntry (e : AccessError) (old : State) : Empties (longEntry e old) :=
  empties_bind fun _ => empties_bind fun _ => empties_bind fun _ => empties_bind fun _ => empties_bind fun _ =>
    empties_bind fun _ => empties_bind fun _ => empties_loadVector _

theorem groupZero_emptied (e : AccessError) (u : State) :
    (groupZero e u).prefetch = [] ∨ (groupZero e u).run = .halted := by
  rw [groupZero_eq]
  cases hr : (longEntry e u).run (raised { u with traceDue := false }) with
  | ok _ t => exact .inl (empties_longEntry e u _ t hr)
  | error _ t => exact .inr rfl

theorem complete_emptied {m : Exec Unit} (h : Empties m) (u : State) :
    (complete m u).prefetch = [] ∨ (complete m u).run = .halted := by
  unfold complete
  cases hr : m.run u with
  | ok _ t => exact .inl (h u t hr)
  | error e t => exact groupZero_emptied e t

/-- After an exception the queue is empty, unless the processor has halted. -/
theorem taken_emptied {u t : State} (ht : Taken u t) : t.prefetch = [] ∨ t.run = .halted := by
  cases ht with
  | trap v pc => exact complete_emptied (empties_shortEntry v pc u.sr) _
  | abort v => exact complete_emptied (empties_shortEntry v u.pc u.sr) _
  | error e => exact groupZero_emptied e u

/-! ### The bytes pushed -/

theorem inRange_congr {m m' : Memory} (h : m'.addrBits = m.addrBits) (a : Long) (n : Nat) (b : Long) :
    m'.inRange a n b ↔ m.inRange a n b := by simp only [Memory.inRange, Memory.key_congr h]

/-- A part of a range lies in it. -/
theorem inRange_part {m : Memory} {a c b : Long} {j k n : Nat} (hc : c = a + BitVec.ofNat 32 j) (hn : j + k ≤ n)
    (h : m.inRange c k b) : m.inRange a n b := by
  obtain ⟨x, hx, hkey⟩ := h
  exact ⟨j + x, by omega, by rw [← hkey, hc, BitVec.add_assoc, BitVec.ofNat_add]⟩

/-- At most `k` bytes have been pushed on the supervisor stack, and no other byte has changed. -/
def Pushed (k : Nat) (s t : State) : Prop :=
  t.sr.s = true ∧ t.mem.addrBits = s.mem.addrBits ∧
  ∃ n, n ≤ k ∧ t.ssp = s.ssp - BitVec.ofNat 32 n ∧ ∀ b, ¬ s.mem.inRange t.ssp n b → t.mem.byte b = s.mem.byte b

section

variable {s t u : State}

theorem pushed_none (k : Nat) (hs : t.sr.s = true) (hmem : t.mem = s.mem) (hssp : t.ssp = s.ssp) : Pushed k s t :=
  ⟨hs, by rw [hmem], 0, Nat.zero_le k, by simp [hssp], fun b _ => by rw [hmem]⟩

theorem pushed_trans {j k l : Nat} (hl : j + k = l) (h1 : Pushed j s t) (h2 : Pushed k t u) : Pushed l s u := by
  obtain ⟨-, hb1, m, hm, hssp1, hk1⟩ := h1
  obtain ⟨hs, hb2, n, hn, hssp2, hk2⟩ := h2
  refine ⟨hs, hb2.trans hb1, n + m, by omega, ?_, fun b hb => ?_⟩
  · rw [hssp2, hssp1, BitVec.ofNat_add, BitVec.sub_sub, BitVec.add_comm]
  · have hlow : ¬ t.mem.inRange u.ssp n b := fun h =>
      hb (inRange_part (BitVec.add_zero _).symm (by omega) ((inRange_congr hb1 _ _ _).1 h))
    have htop : t.ssp = u.ssp + BitVec.ofNat 32 n := by rw [hssp2, BitVec.sub_add_cancel]
    rw [hk2 b hlow, hk1 b fun h => hb (inRange_part htop le_rfl h)]

/-- The bytes of at most `k` pushed lie in the `k` from the stack pointer up. -/
theorem byte_of_pushed {k : Nat} {b : Long} (h : Pushed k s t) (hb : ¬ s.mem.inRange t.ssp k b) :
    t.mem.byte b = s.mem.byte b := by
  obtain ⟨-, -, n, hn, -, hkeep⟩ := h
  exact hkeep b fun hr => hb (inRange_part (BitVec.add_zero _).symm (by omega) hr)

end

/-- A computation that pushes at most `k` bytes in supervisor state, whatever its accesses meet. -/
def Pushes {α : Type} (k : Nat) (m : Exec α) : Prop := ∀ s : State, s.sr.s = true → Pushed k s (m.final s)

theorem pushes_bind {α β : Type} {j k l : Nat} {m : Exec α} {f : α → Exec β} (hl : j + k = l) (hm : Pushes j m)
    (hf : ∀ a, Pushes k (f a)) : Pushes l (m >>= f) := by
  intro s hs
  have hfirst := hm s hs
  unfold Exec.final at hfirst ⊢
  rw [EStateM.run_bind]
  cases hr : m.run s with
  | ok a t =>
    rw [hr] at hfirst
    have hthen := hf a t hfirst.1
    unfold Exec.final at hthen
    exact pushed_trans hl hfirst hthen
  | error e t =>
    rw [hr] at hfirst
    exact pushed_trans hl hfirst (pushed_none k hfirst.1 rfl rfl)

theorem pushes_push (sz : Size) (v : BitVec sz.bits) : Pushes sz.bytes (push sz v) := by
  intro s hs
  have hssp : (s.setSp (s.sp - BitVec.ofNat 32 sz.bytes)).ssp = s.ssp - BitVec.ofNat 32 sz.bytes := by
    simp [State.sp, hs]
  unfold Exec.final push
  simp only [EStateM.run_bind, EStateM.run_modify, EStateM.run_get, State.sp_setSp, writeMem_run]
  have hsp : s.sp = s.ssp := if_pos hs
  split
  · next ht =>
    split at ht <;> cases ht
    exact ⟨by simpa using hs, by simp, sz.bytes, le_rfl, hssp, fun b hb => by
      rw [hssp] at hb
      simpa [hsp] using Memory.byte_store_of_not_inRange s.mem sz _ b v hb⟩
  · next ht =>
    split at ht <;> cases ht
    exact ⟨by simpa using hs, by simp, sz.bytes, le_rfl, hssp, fun b _ => by simp⟩

theorem pushes_draw (n : Nat) : Pushes 0 (draw n) := fun _ hs => pushed_none 0 hs rfl rfl

theorem pushes_loadVector (v : Nat) : Pushes 0 (loadVector v) := by
  refine pushes_bind rfl (fun s hs => ?_) fun a s hs => pushed_none 0 hs rfl rfl
  unfold Exec.final
  rw [readMem_run]
  cases s.accessError .read .data Size.l.bytes (vectorAddress v) <;> exact pushed_none 0 hs rfl rfl

theorem pushes_shortEntry (v : Nat) (pc : Long) (old : StatusReg) : Pushes 6 (shortEntry v pc old) :=
  pushes_bind (j := 4) rfl (pushes_push .l pc) fun _ => pushes_bind (j := 2) rfl (pushes_push .w _) fun _ => pushes_loadVector v

theorem pushes_longEntry (e : AccessError) (old : State) : Pushes 14 (longEntry e old) :=
  pushes_bind (j := 0) rfl (pushes_draw 32) fun x => pushes_bind (j := 4) rfl (pushes_push .l x) fun _ =>
    pushes_bind (j := 2) rfl (pushes_push .w _) fun _ => pushes_bind (j := 2) rfl (pushes_push .w _) fun _ =>
    pushes_bind (j := 4) rfl (pushes_push .l _) fun _ => pushes_bind (j := 0) rfl (pushes_draw 32) fun _ =>
    pushes_bind (j := 2) rfl (pushes_push .w _) fun _ => pushes_loadVector _

theorem pushed_groupZero (e : AccessError) (u : State) : Pushed 14 u (groupZero e u) := by
  have h := pushes_longEntry e u (raised { u with traceDue := false }) rfl
  unfold Exec.final at h
  rw [groupZero_eq]
  cases hr : (longEntry e u).run (raised { u with traceDue := false }) with
  | ok _ t =>
    rw [hr] at h
    exact h
  | error _ t =>
    rw [hr] at h
    exact h

/-- An exception pushes at most its own frame of 6 bytes and one of 14 (R440, R443). -/
theorem pushed_complete {m : Exec Unit} (hm : Pushes 6 m) (s : State) (hs : s.sr.s = true) : Pushed 20 s (complete m s) := by
  have h := hm s hs
  unfold Exec.final at h
  unfold complete
  cases hr : m.run s with
  | ok _ t =>
    rw [hr] at h
    exact pushed_trans rfl h (pushed_none 14 h.1 rfl rfl)
  | error e t =>
    rw [hr] at h
    exact pushed_trans rfl h (pushed_groupZero e t)

theorem pushed_taken {u t : State} (ht : Taken u t) : Pushed 20 u t := by
  cases ht with
  | trap v pc => exact pushed_complete (pushes_shortEntry v pc u.sr) (raised u) rfl
  | abort v => exact pushed_complete (pushes_shortEntry v u.pc u.sr) (raised { u with traceDue := false }) rfl
  | error e =>
    have h := pushed_groupZero e u
    exact pushed_trans (j := 14) (k := 6) rfl h (pushed_none 6 h.1 rfl rfl)

end Sys2Proof.Proofs.Entries
end

section
/-! PROOF. Obligations O3, O5, O8 to O12: what every instruction and every step leaves unchanged. Each frame is one relation
that the small changes of an instruction keep, followed through the ways in which an instruction ends. -/

namespace Sys2Proof.Proofs.Frames

open Sys2Proof.Machine Sys2Proof.Claims Sys2Proof.Proofs.Endings Sys2Proof.Proofs.Entries

/-! ### Relations kept by an instruction and by an exception -/

section

variable {D A : List Reg} {F : BitVec 5} {W : Size → Long → Prop}

theorem keeps_getD {r : Reg} (hr : r ∉ D) : ClosedTrap D A F fun s t => t.getD r = s.getD r where
  refl _ := rfl
  trans _ _ _ h1 h2 := h2.trans h1
  advance _ _ := rfl
  jump _ _ := rfl
  draws _ _ := rfl
  run _ _ := rfl
  store _ _ _ _ _ := rfl
  setD s q v hq := by rw [State.getD_setD, if_neg fun h : q = r => hr (h ▸ hq)]
  setA s q v _ := by simp
  setSr _ _ _ := rfl
  enter _ := rfl
  ssp _ _ _ := rfl
  traceOff _ := rfl

/-- What belongs to the platform, the instruction register and the address width. -/
def platform (s : State) : List BusInput × BitVec 3 × List Hole × Option Long × Word × Nat :=
  (s.inputs, s.lastIpl, s.holes, s.haltAddr, s.ir, s.mem.addrBits)

theorem keeps_platform : ClosedTrap D A F fun s t => platform t = platform s where
  refl _ := rfl
  trans _ _ _ h1 h2 := h2.trans h1
  advance _ _ := rfl
  jump _ _ := rfl
  draws _ _ := rfl
  run _ _ := rfl
  store s sz a v _ := by simp [platform]
  setD _ _ _ _ := rfl
  setA s r v _ := by simp [platform]
  setSr _ _ _ := rfl
  enter _ := rfl
  ssp _ _ _ := rfl
  traceOff _ := rfl

/-- Registers A0 to A6 are no stack pointer. -/
theorem getA_of_ne_seven {s t : State} {r : Reg} (hr : r ≠ 7) (ha : t.a = s.a) : t.getA r = s.getA r := by
  have hlt : r.toNat < 7 := by
    have hne : r.toNat ≠ 7 := fun h => hr (BitVec.eq_of_toNat_eq h)
    omega
  simp [State.getA, hlt, ha]

theorem keeps_getA {r : Reg} (hr : r ∉ A) (h7 : r ≠ 7) : ClosedTrap D A F fun s t => t.getA r = s.getA r where
  refl _ := rfl
  trans _ _ _ h1 h2 := h2.trans h1
  advance _ _ := rfl
  jump _ _ := rfl
  draws _ _ := rfl
  run _ _ := rfl
  store _ _ _ _ _ := rfl
  setD _ _ _ _ := rfl
  setA s q v hq := by rw [State.getA_setA, if_neg fun h : q = r => hr (h ▸ hq)]
  setSr _ _ _ := getA_of_ne_seven h7 rfl
  enter _ := getA_of_ne_seven h7 rfl
  ssp _ _ _ := getA_of_ne_seven h7 rfl
  traceOff _ := rfl

theorem keeps_flags : ClosedTrap D A F fun s t => t.sr.flags &&& ~~~F = s.sr.flags &&& ~~~F where
  refl _ := rfl
  trans _ _ _ h1 h2 := h2.trans h1
  advance _ _ := rfl
  jump _ _ := rfl
  draws _ _ := rfl
  run _ _ := rfl
  store _ _ _ _ _ := rfl
  setD _ _ _ _ := rfl
  setA s r v _ := by rw [State.setA_sr]
  setSr _ _ h := h.2.2.2
  enter _ := rfl
  ssp _ _ _ := rfl
  traceOff _ := rfl

/-- The system byte of SR stays, and so does the stack pointer that is not active. -/
def KeepsMode (s t : State) : Prop :=
  systemByte t.sr = systemByte s.sr ∧ (if s.sr.s then t.usp = s.usp else t.ssp = s.ssp)

theorem keepsMode_of_fields {s t : State} (hsr : t.sr = s.sr) (husp : t.usp = s.usp) (hssp : t.ssp = s.ssp) : KeepsMode s t :=
  ⟨by rw [hsr], by rw [husp, hssp]; simp⟩

theorem supervisor_of_systemByte {f g : StatusReg} (h : systemByte g = systemByte f) : g.s = f.s :=
  congrArg (fun p => p.2.1) h

theorem closed_keepsMode : Closed D A F W KeepsMode where
  refl _ := keepsMode_of_fields rfl rfl rfl
  trans s t u h1 h2 := by
    obtain ⟨hmode1, hsp1⟩ := h1
    obtain ⟨hmode2, hsp2⟩ := h2
    refine ⟨hmode2.trans hmode1, ?_⟩
    rw [supervisor_of_systemByte hmode1] at hsp2
    cases hs : s.sr.s with
    | true =>
      rw [hs] at hsp1 hsp2
      exact Eq.trans (b := t.usp) hsp2 hsp1
    | false =>
      rw [hs] at hsp1 hsp2
      exact Eq.trans (b := t.ssp) hsp2 hsp1
  advance _ _ := keepsMode_of_fields rfl rfl rfl
  jump _ _ := keepsMode_of_fields rfl rfl rfl
  draws _ _ := keepsMode_of_fields rfl rfl rfl
  run _ _ := keepsMode_of_fields rfl rfl rfl
  store _ _ _ _ _ := keepsMode_of_fields rfl rfl rfl
  setD _ _ _ _ := keepsMode_of_fields rfl rfl rfl
  setA s r v _ := by
    refine ⟨by rw [State.setA_sr], ?_⟩
    cases hs : s.sr.s <;> simp [hs]
  setSr s f h := by
    obtain ⟨ht, hs, hi, -⟩ := h
    exact ⟨by simp [systemByte, ht, hs, hi], by simp⟩

/-- What exception processing keeps once it has changed SR (R440): the mask, USP, S set and T clear. -/
def KeepsEntered (s t : State) : Prop :=
  t.sr.i = s.sr.i ∧ t.usp = s.usp ∧ (s.sr.s = true → t.sr.s = true) ∧ (s.sr.t = false → t.sr.t = false)

theorem keepsEntered_of_fields {s t : State} (hsr : t.sr = s.sr) (husp : t.usp = s.usp) : KeepsEntered s t :=
  ⟨by rw [hsr], husp, by rw [hsr]; exact id, by rw [hsr]; exact id⟩

theorem closedTrap_keepsEntered : ClosedTrap [] [] F KeepsEntered where
  refl _ := keepsEntered_of_fields rfl rfl
  trans _ _ _ h1 h2 := by
    obtain ⟨hi1, husp1, hs1, ht1⟩ := h1
    obtain ⟨hi2, husp2, hs2, ht2⟩ := h2
    exact ⟨hi2.trans hi1, husp2.trans husp1, hs2 ∘ hs1, ht2 ∘ ht1⟩
  advance _ _ := keepsEntered_of_fields rfl rfl
  jump _ _ := keepsEntered_of_fields rfl rfl
  draws _ _ := keepsEntered_of_fields rfl rfl
  run _ _ := keepsEntered_of_fields rfl rfl
  store _ _ _ _ _ := keepsEntered_of_fields rfl rfl
  setD _ _ _ h := absurd h List.not_mem_nil
  setA _ _ _ h := absurd h List.not_mem_nil
  setSr s f h := by
    obtain ⟨ht, hs, hi, -⟩ := h
    exact ⟨hi, rfl, fun h => hs.trans h, fun h => ht.trans h⟩
  enter _ := ⟨rfl, rfl, fun _ => rfl, fun _ => rfl⟩
  ssp _ _ _ := keepsEntered_of_fields rfl rfl
  traceOff _ := keepsEntered_of_fields rfl rfl

theorem taken_mode {u t : State} (ht : Taken u t) :
    t.sr.i = u.sr.i ∧ t.usp = u.usp ∧ t.sr.s = true ∧ t.sr.t = false := by
  obtain ⟨hi, husp, hs, ht⟩ := raised_taken (closedTrap_keepsEntered (F := 0)) ht
  exact ⟨hi, husp, hs rfl, ht rfl⟩

/-- Both stack pointers and S stay. -/
def stackPointers (s : State) : Long × Long × Bool := (s.usp, s.ssp, s.sr.s)

theorem keeps_stackPointers (h7 : 7 ∉ A) : Closed D A F W fun s t => stackPointers t = stackPointers s where
  refl _ := rfl
  trans _ _ _ h1 h2 := h2.trans h1
  advance _ _ := rfl
  jump _ _ := rfl
  draws _ _ := rfl
  run _ _ := rfl
  store _ _ _ _ _ := rfl
  setD _ _ _ _ := rfl
  setA s r v hr := by
    have hlt : r.toNat < 7 := by
      have hne : r.toNat ≠ 7 := fun h => h7 ((BitVec.eq_of_toNat_eq h : r = 7) ▸ hr)
      omega
    simp [stackPointers, hlt]
  setSr s f h := by simp [stackPointers, h.2.1]

/-- Every byte outside the ranges stays, and so does the address width. -/
def KeepsBytes (ranges : List (Long × Nat)) (s t : State) : Prop :=
  t.mem.addrBits = s.mem.addrBits ∧ ∀ b, (∀ p ∈ ranges, ¬ s.mem.inRange p.1 p.2 b) → t.mem.byte b = s.mem.byte b

theorem keepsBytes_of_mem {ranges : List (Long × Nat)} {s t : State} (h : t.mem = s.mem) : KeepsBytes ranges s t :=
  ⟨by rw [h], fun _ _ => by rw [h]⟩

theorem closed_keepsBytes (ranges : List (Long × Nat)) : Closed D A F (Stores ranges) (KeepsBytes ranges) where
  refl _ := keepsBytes_of_mem rfl
  trans s t u h1 h2 := by
    obtain ⟨hbits1, hkeep1⟩ := h1
    obtain ⟨hbits2, hkeep2⟩ := h2
    refine ⟨hbits2.trans hbits1, fun b hb => (hkeep2 b fun p hp h => hb p hp ?_).trans (hkeep1 b hb)⟩
    exact (inRange_congr hbits1 _ _ _).1 h
  advance _ _ := keepsBytes_of_mem rfl
  jump _ _ := keepsBytes_of_mem rfl
  draws _ _ := keepsBytes_of_mem rfl
  run _ _ := keepsBytes_of_mem rfl
  store s sz a v hW := by
    obtain ⟨p, hp, j, ha, hj⟩ := hW
    exact ⟨by simp, fun b hb => Memory.byte_store_of_not_inRange _ _ _ _ _ fun h => hb p hp (inRange_part ha hj h)⟩
  setD _ _ _ _ := keepsBytes_of_mem rfl
  setA s r v _ := keepsBytes_of_mem (State.setA_mem s r v)
  setSr _ _ _ := keepsBytes_of_mem rfl

end

/-! ### The frames -/

/-- Settles O9: a data register outside the list is kept by each small change, and the platform by every one. -/
theorem dataRegisterFrame : Obligations.DataRegisterFrame := by
  intro i s t ht
  have hplatform : platform t = platform s := closed_exec keeps_platform (fun _ _ _ _ => rfl) (fun _ _ => rfl) ht
  simp only [platform, Prod.mk.injEq] at hplatform
  exact ⟨fun r hr => closed_exec (keeps_getD hr) (fun _ _ _ _ => rfl) (fun _ _ => rfl) ht, hplatform⟩

theorem flagsWritten_of_writesSr {i : Instr} (h : writesSr i = true) : flagsWritten i = 0b11111 := by
  cases i with
  | oriToSr _ | andiToSr _ | eoriToSr _ | moveToSr _ | stop _ | rte => rfl
  | _ => cases h

/-- Settles O11: the flags outside the set are kept by each small change; the instructions that write SR mark all five. -/
theorem flagFrame : Obligations.FlagFrame := fun i _ _ ht =>
  closed_exec keeps_flags (fun _ _ _ hi => by simp [flagsWritten_of_writesSr hi]) (fun _ _ => rfl) ht

/-- Settles O8, by the ways in which an instruction ends. -/
theorem modeFrame : Obligations.ModeFrame := by
  intro i s t ht
  obtain ⟨u, ⟨hmode, hsp⟩, hut⟩ := exec_ends i s closed_keepsMode t ht
  simp only [systemByte, Prod.mk.injEq] at hmode
  obtain ⟨htr, hsu, hi⟩ := hmode
  have husp (hs : s.sr.s = true) : u.usp = s.usp := by simpa [hs] using hsp
  have hssp (hs : s.sr.s = false) : u.ssp = s.ssp := by simpa [hs] using hsp
  cases hut with
  | done =>
    exact ⟨fun _ => ⟨hi, fun h => hsu.trans h, fun h => htr.trans h⟩, fun hs _ => ⟨htr, hssp hs⟩, fun hs _ => husp hs⟩
  | status f r hw hs =>
    rw [hsu] at hs
    exact ⟨fun h => by simp [hs, hw] at h, fun h => by simp [hs] at h, fun hs _ => husp hs⟩
  | usp r v hr hs =>
    rw [hsu] at hs
    exact ⟨fun _ => ⟨hi, fun h => hsu.trans h, fun h => htr.trans h⟩, fun h => by simp [hs] at h,
      fun _ h => absurd hr (h r)⟩
  | taken hut =>
    obtain ⟨hi', husp', hs', ht'⟩ := taken_mode hut
    exact ⟨fun _ => ⟨hi'.trans hi, fun _ => hs', fun _ => ht'⟩, fun _ h => by simp [hs'] at h,
      fun hs _ => husp'.trans (husp hs)⟩

/-- Settles O10: A0 to A6 are kept by each small change and by exceptions; the stack pointers by each small change, where A7
is not named, and an exception leaves USP. -/
theorem addressRegisterFrame : Obligations.AddressRegisterFrame := by
  intro i s t r ht hr
  refine ⟨fun h7 => ?_, ?_⟩
  · exact closed_exec (keeps_getA hr h7) (fun _ _ _ _ => getA_of_ne_seven h7 rfl) (fun _ _ => getA_of_ne_seven h7 rfl) ht
  · by_cases h7 : r = 7
    · subst h7
      obtain ⟨u, hsu, hut⟩ := exec_ends i s (keeps_stackPointers hr) t ht
      simp only [stackPointers, Prod.mk.injEq] at hsu
      obtain ⟨husp, hssp, hsup⟩ := hsu
      cases hut with
      | done => exact ⟨fun _ _ => husp, fun _ _ _ _ => hssp⟩
      | status f r _ hs => exact ⟨fun _ _ => husp, fun _ _ _ _ => hssp⟩
      | usp r v _ hs => exact ⟨fun _ h => by simp [hsup, h] at hs, fun _ _ _ _ => hssp⟩
      | taken hut =>
        obtain ⟨-, husp', -, -⟩ := taken_mode hut
        refine ⟨fun _ _ => husp'.trans husp, fun _ _ hq hh => ?_⟩
        obtain hq' | hh' := taken_emptied hut
        · exact absurd hq' hq
        · exact absurd hh' hh
    · exact ⟨fun h => absurd h h7, fun h => absurd h h7⟩

/-- Settles O12: each store lies in the ranges, and an exception pushes at most 20 bytes below the stack pointer. -/
theorem memoryFrame : Obligations.MemoryFrame := by
  intro i s t b ht hranges hframe
  obtain ⟨u, ⟨hbits, hbytes⟩, hut⟩ := exec_ends i s (closed_keepsBytes _) t ht
  cases hut with
  | done => exact hbytes b hranges
  | status f r _ _ => exact hbytes b hranges
  | usp r v _ _ => exact hbytes b hranges
  | taken hut =>
    obtain ⟨-, -, hsup, -⟩ := taken_mode hut
    have hout : ¬ u.mem.inRange t.ssp 20 b := fun h => hframe hsup (taken_emptied hut) ((inRange_congr hbits _ _ _).1 h)
    exact (byte_of_pushed (pushed_taken hut) hout).trans (hbytes b hranges)

/-! ### The invariant -/

section

variable {D A : List Reg} {F : BitVec 5}

/-- Memory stays in its canonical form, with its address width, and the queue stays at two words. -/
def KeepsForm (s t : State) : Prop :=
  t.mem.addrBits = s.mem.addrBits ∧ (s.mem.wf → t.mem.wf) ∧ (s.prefetch.length ≤ 2 → t.prefetch.length ≤ 2)

theorem keepsForm_of_fields {s t : State} (hm : t.mem = s.mem) (hq : t.prefetch = s.prefetch) : KeepsForm s t := by
  unfold KeepsForm
  rw [hm, hq]
  exact ⟨rfl, id, id⟩

theorem closedTrap_keepsForm : ClosedTrap D A F KeepsForm where
  refl _ := keepsForm_of_fields rfl rfl
  trans _ _ _ h1 h2 := by
    obtain ⟨hb1, hm1, hq1⟩ := h1
    obtain ⟨hb2, hm2, hq2⟩ := h2
    exact ⟨hb2.trans hb1, hm2 ∘ hm1, hq2 ∘ hq1⟩
  advance _ _ := keepsForm_of_fields rfl rfl
  jump _ _ := ⟨rfl, id, fun _ => Nat.zero_le 2⟩
  draws _ _ := keepsForm_of_fields rfl rfl
  run _ _ := keepsForm_of_fields rfl rfl
  store s sz a v _ := ⟨by simp, Memory.wf_store s.mem sz a v, id⟩
  setD _ _ _ _ := keepsForm_of_fields rfl rfl
  setA s r v _ := keepsForm_of_fields (State.setA_mem s r v) (State.setA_prefetch s r v)
  setSr _ _ _ := keepsForm_of_fields rfl rfl
  enter _ := keepsForm_of_fields rfl rfl
  ssp _ _ _ := keepsForm_of_fields rfl rfl
  traceOff _ := keepsForm_of_fields rfl rfl

/-- No trace exception becomes due. -/
def KeepsTraceOff (s t : State) : Prop := s.traceDue = false → t.traceDue = false

theorem closedTrap_keepsTraceOff : ClosedTrap D A F KeepsTraceOff where
  refl _ := id
  trans _ _ _ h1 h2 := h2 ∘ h1
  advance _ _ := id
  jump _ _ := id
  draws _ _ := id
  run _ _ := id
  store _ _ _ _ _ := id
  setD _ _ _ _ := id
  setA s r v _ := by simp [KeepsTraceOff]
  setSr _ _ _ := id
  enter _ := id
  ssp _ _ _ := id
  traceOff _ := fun _ => rfl

end

/-- A relation across the fetch of an instruction: it reads memory, and writes the instruction register, the latch of T
and the queue (R78, R445). -/
theorem keepsForm_fetch (s : State) : KeepsForm s (fetch.final s) := by
  have h : Closed [] [] 0 (fun _ _ => True) KeepsForm := closedTrap_keepsForm.toClosed
  have hword (a : Long) (t : State) : KeepsForm t ((streamWord a).final t) := by
    unfold Exec.final
    rw [streamWord_run]
    cases t.queued a with
    | none => exact h.refl t
    | some w =>
      by_cases hw : w = t.mem.word a
      · simp only [if_pos hw]
        exact h.refl t
      · simp only [if_neg hw]
        exact h.draws t _
  have hwords (n : Nat) : ∀ (a : Long) (t : State), KeepsForm t ((streamWords n a).final t) := by
    induction n with
    | zero => exact fun _ t => h.refl t
    | succ n ih => exact fun a t => h.bind (hword a t) fun _ u _ => h.bind (ih _ u) fun _ v _ => h.refl v
  refine h.bindGet (h.bindCheckFetch (h.bind (hwords _ _ s) fun ws t _ => h.bindModify (keepsForm_of_fields rfl rfl) ?_))
  split
  · exact h.refl _
  · refine h.bindGet (h.bindCheckFetch (h.bindGet ?_))
    refine h.bind (h.bind (hword _ _) fun _ u _ => h.refl u) fun p t _ => ?_
    refine h.bind (h.bind (hword _ _) fun _ u _ => h.refl u) fun q t _ => ?_
    exact ⟨rfl, id, fun _ => le_rfl⟩

/-- The state in which the reset vectors are read (R490). -/
def resetBase (s : State) : State :=
  let u := fun k => Config.free (s.draws + k)
  let f := u 16
  { s with
    d := #v[u 0, u 1, u 2, u 3, u 4, u 5, u 6, u 7]
    a := #v[u 8, u 9, u 10, u 11, u 12, u 13, u 14]
    usp := u 15
    sr := { StatusReg.reset with x := f.getLsbD 4, n := f.getLsbD 3, z := f.getLsbD 2, v := f.getLsbD 1, c := f.getLsbD 0 }
    prefetch := []
    run := .running
    traceDue := false
    draws := s.draws + 17 }

/-- The reading of the reset vectors (R490). -/
def resetVectors : Exec Unit := do
  let sp ← readMem .l .program (vectorAddress 0)
  modify fun s => { s with ssp := sp }
  let pc ← readMem .l .program (vectorAddress 1)
  modify fun s => s.jump pc

theorem resetProcessor_eq (s : State) :
    resetProcessor s = match resetVectors.run (resetBase s) with
      | .ok _ t => t
      | .error _ t => { t with run := .halted } := rfl

/-- Reading the vectors changes SSP, `pc` and the queue, each vector once it has been read. -/
theorem resetVectors_run (s : State) : resetVectors.run s =
    match s.accessError .read .program Size.l.bytes (vectorAddress 0) with
    | some e => .error e s
    | none =>
      match s.accessError .read .program Size.l.bytes (vectorAddress 1) with
      | some e => .error e { s with ssp := s.mem.long (vectorAddress 0) }
      | none => .ok () ({ s with ssp := s.mem.long (vectorAddress 0) }.jump (s.mem.long (vectorAddress 1))) := by
  unfold resetVectors
  rw [EStateM.run_bind, readMem_run]
  cases s.accessError .read .program Size.l.bytes (vectorAddress 0) with
  | some e => rfl
  | none =>
    simp only [EStateM.run_bind, EStateM.run_modify]
    rw [readMem_run, State.accessError_congr (s := s) (t := { s with ssp := s.mem.load .l (vectorAddress 0) }) rfl rfl rfl]
    cases s.accessError .read .program Size.l.bytes (vectorAddress 1) <;> rfl

theorem resetProcessor_form (s : State) :
    (resetProcessor s).mem = s.mem ∧ (resetProcessor s).prefetch = [] ∧ (resetProcessor s).traceDue = false := by
  rw [resetProcessor_eq, resetVectors_run]
  cases (resetBase s).accessError .read .program Size.l.bytes (vectorAddress 0) with
  | some e => exact ⟨rfl, rfl, rfl⟩
  | none =>
    cases (resetBase s).accessError .read .program Size.l.bytes (vectorAddress 1) <;> exact ⟨rfl, rfl, rfl⟩

/-- The rule for an interrupt, which also raises the mask (R461). -/
theorem closed_interrupt {D A : List Reg} {F : BitVec 5} {R : State → State → Prop} (h : ClosedTrap D A F R)
    (hsr : ∀ (s : State) (f : StatusReg), R s { s with sr := f }) (level : BitVec 3) (v : Nat) (s : State) :
    R s (complete (interrupt level v) s) := by
  have hraise : R s { s with sr := { s.sr.enter with i := level }, run := .running } :=
    h.trans s { s with sr := { s.sr.enter with i := level } } _ (hsr s _) (h.run _ _)
  exact h.complete (h.bindGet (h.bindGet (h.bindModify hraise (super_shortEntry h v s.pc s.sr _ rfl).1)))

theorem traceOff_abortTo (v : Nat) (s : State) : (complete (abortTo v) s).traceDue = false := by
  have h : ClosedTrap [] [] 0 KeepsTraceOff := closedTrap_keepsTraceOff
  rw [complete_abortTo]
  exact h.complete (super_shortEntry h v _ _ _ rfl).1 rfl

theorem traceOff_groupZero (e : AccessError) (s : State) : (groupZero e s).traceDue = false :=
  (closedTrap_keepsTraceOff (D := []) (A := []) (F := 0)).groupZero e { s with traceDue := false } rfl

theorem traceOff_finish (s : State) : (finish s).traceDue = false := by
  have h : ClosedTrap [] [] 0 KeepsTraceOff := closedTrap_keepsTraceOff
  unfold finish
  split
  · rw [complete_traceException]
    exact h.complete (super_shortEntry h 9 _ _ _ rfl).1 rfl
  · next h => simpa using h

theorem keepsForm_finish (s : State) : KeepsForm s (finish s) := by
  have h : ClosedTrap [] [] 0 KeepsForm := closedTrap_keepsForm
  unfold finish
  split
  · exact h.complete (h.bindModify (h.traceOff s) (h.bindGet (h.exception 9 _ _)))
  · exact h.refl s

theorem instructionStep_sound {s t : State} (ht : instructionStep s = .next t) : KeepsForm s t ∧ t.traceDue = false := by
  have h : ClosedTrap [] [] 0 KeepsForm := closedTrap_keepsForm
  have hfetch := keepsForm_fetch s
  unfold Exec.final at hfetch
  unfold instructionStep at ht
  split at ht
  next i u hu =>
    rw [hu] at hfetch
    cases hx : exec i u with
    | next w =>
      rw [hx] at ht
      cases ht
      have hexec : KeepsForm u w :=
        closed_exec closedTrap_keepsForm (fun _ _ _ _ => keepsForm_of_fields rfl rfl) (fun _ _ => keepsForm_of_fields rfl rfl) hx
      exact ⟨h.trans _ _ _ hfetch (h.trans _ _ _ hexec (keepsForm_finish w)), traceOff_finish w⟩
    | fault r => rw [hx] at ht; cases ht
    | refused r => rw [hx] at ht; cases ht
  next u hu =>
    rw [hu] at hfetch
    cases ht
    exact ⟨h.trans _ _ _ hfetch (h.complete (h.abortTo 4 u)), traceOff_abortTo 4 u⟩
  next e u hu =>
    rw [hu] at hfetch
    cases ht
    exact ⟨h.trans _ _ _ hfetch (h.groupZero e u), traceOff_groupZero e u⟩

/-- Settles O3, by the kinds of boundary (R510). -/
theorem stepKeepsInvariant : Obligations.StepKeepsInvariant := by
  intro s t ⟨hmem, hqueue, htrace⟩ ht
  have hf : ClosedTrap [] [] 0 KeepsForm := closedTrap_keepsForm
  have htr : ClosedTrap [] [] 0 KeepsTraceOff := closedTrap_keepsTraceOff
  have hform : KeepsForm s t ∧ t.traceDue = false := by
    unfold step at ht
    split at ht
    next =>
      cases ht
      exact ⟨keepsForm_of_fields rfl rfl, htrace⟩
    next =>
      cases ht
      obtain ⟨hm, hq, hd⟩ := resetProcessor_form s.consumeInput
      exact ⟨⟨by rw [hm]; rfl, by rw [hm]; exact id, fun _ => by simp [hq]⟩, hd⟩
    next level v _ =>
      cases ht
      exact ⟨closed_interrupt hf (fun _ _ => keepsForm_of_fields rfl rfl) level v s.consumeInput,
        closed_interrupt htr (fun _ _ => id) level v s.consumeInput htrace⟩
    next =>
      cases ht
      exact ⟨keepsForm_of_fields rfl rfl, htrace⟩
    next => exact instructionStep_sound (s := s.consumeInput) ht
  obtain ⟨⟨hb, hm, hq⟩, hd⟩ := hform
  exact ⟨⟨hm hmem, hq hqueue, hd⟩, hb⟩

/-! ### Progress -/

theorem goes_on_of_ite {p : Prop} [Decidable p] {a b : Outcome} (ha : ∃ t, a = .next t) (hb : ∃ t, b = .next t) :
    ∃ t, (if p then a else b) = .next t := by
  split
  · exact ha
  · exact hb

theorem exec_goes_on (i : Instr) (s : State) : ∃ t, exec i s = .next t := by
  cases i with
  | addq sz q ea | subq sz q ea => cases ea <;> exact ⟨_, rfl⟩
  | bcc c d => exact goes_on_of_ite ⟨_, rfl⟩ ⟨_, rfl⟩
  | dbcc c r d => exact goes_on_of_ite ⟨_, rfl⟩ (goes_on_of_ite ⟨_, rfl⟩ ⟨_, rfl⟩)
  | trapv => exact goes_on_of_ite ⟨_, rfl⟩ ⟨_, rfl⟩
  | _ => exact ⟨_, rfl⟩

/-- Settles O5. -/
theorem execAlwaysGoesOn : Obligations.ExecAlwaysGoesOn := by
  refine ⟨exec_goes_on, fun s => ?_⟩
  unfold step
  split
  case h_5 =>
    unfold instructionStep
    split
    · next i u _ =>
      obtain ⟨t, ht⟩ := exec_goes_on i u
      exact ⟨finish t, by rw [ht]; rfl⟩
    · exact ⟨_, rfl⟩
    · exact ⟨_, rfl⟩
  all_goals exact ⟨_, rfl⟩

end Sys2Proof.Proofs.Frames
end

section
/-! PROOF. Obligations O4, O13, O14, O16 to O18: the state at reset, memory, the register views, SR, and what the flags of an
addition, a subtraction and a compare say of the integers. -/

namespace Sys2Proof.Proofs.StateViews

open Sys2Proof.Machine Sys2Proof.Claims Sys2Proof.Proofs.Arithmetic

/-- Settles O4: each component of the reset state is what the definition gives. -/
theorem resetState : Obligations.ResetState := by
  intro m hm
  exact ⟨rfl, rfl, rfl, rfl, rfl, rfl, rfl, rfl, ⟨hm, Nat.zero_le 2, rfl⟩, rfl, by decide⟩

/-! ### Memory -/

/-- The upper part of two put together. -/
theorem setWidth_append_high {m n : Nat} (a : BitVec m) (b : BitVec n) : ((a ++ b) >>> n).setWidth m = a := by
  refine BitVec.eq_of_getLsbD_eq fun i hi => ?_
  rw [BitVec.getLsbD_setWidth, BitVec.getLsbD_ushiftRight, BitVec.getLsbD_append]
  simp [hi]

theorem byte_eq_word (m : Memory) (a : Long) :
    m.byte a = (m.word a >>> 8).setWidth 8 ∧ m.byte (a + 1) = (m.word a).setWidth 8 :=
  ⟨(setWidth_append_high (m.byte a) (m.byte (a + 1))).symm, (setWidth_append_low (m.byte a) (m.byte (a + 1))).symm⟩

theorem word_eq_long (m : Memory) (a : Long) :
    m.word a = (m.long a >>> 16).setWidth 16 ∧ m.word (a + 2) = (m.long a).setWidth 16 :=
  ⟨(setWidth_append_high (m.word a) (m.word (a + 2))).symm, (setWidth_append_low (m.word a) (m.word (a + 2))).symm⟩

theorem setWidth_byte_of_word (v : Long) (j k : Nat) (hj : j ≤ 8) :
    (((v >>> k).setWidth 16 : Word) >>> j).setWidth 8 = (v >>> (k + j)).setWidth 8 := by
  refine BitVec.eq_of_getLsbD_eq fun i hi => ?_
  simp only [BitVec.getLsbD_setWidth, BitVec.getLsbD_ushiftRight, hi, decide_true, Bool.true_and]
  rw [decide_eq_true (by omega : j + i < 16), Bool.true_and, Nat.add_assoc]

/-- The bytes of an operand are those of memory, the most significant first (R73). -/
theorem byte_eq_load (m : Memory) (sz : Size) (a : Long) {k : Nat} (hk : k < sz.bytes) :
    m.byte (a + BitVec.ofNat 32 k) = ((m.load sz a) >>> (8 * (sz.bytes - 1 - k))).setWidth 8 := by
  cases sz with
  | b =>
    have hk1 : k < 1 := hk
    interval_cases k
    simp [Memory.load, Size.bytes, Size.bits]
  | w =>
    have hk2 : k < 2 := hk
    obtain ⟨hhigh, hlow⟩ := byte_eq_word m a
    interval_cases k
    · rw [BitVec.add_zero]
      exact hhigh
    · exact hlow.trans (by rw [← BitVec.ushiftRight_zero (m.word a)]; rfl)
  | l =>
    have hk4 : k < 4 := hk
    obtain ⟨hfirst, hsecond⟩ := word_eq_long m a
    obtain ⟨h0, h1⟩ := byte_eq_word m a
    obtain ⟨h2, h3⟩ := byte_eq_word m (a + 2)
    have hnext : a + 2 + 1 = a + BitVec.ofNat 32 3 := BitVec.add_assoc a 2 1
    rw [hfirst] at h0 h1
    rw [hsecond] at h2 h3
    interval_cases k
    · rw [BitVec.add_zero, h0]
      exact setWidth_byte_of_word (m.long a) 8 16 le_rfl
    · exact h1.trans (setWidth_byte_of_word (m.long a) 0 16 (Nat.zero_le 8))
    · exact h2.trans (setWidth_byte_of_word (m.long a) 8 0 le_rfl)
    · rw [← hnext, h3]
      exact setWidth_byte_of_word (m.long a) 0 0 (Nat.zero_le 8)

/-- Settles O13: the bytes that a store leaves are those that a load of the operand gives. -/
theorem storeThenLoad : Obligations.StoreThenLoad := by
  intro m sz a v
  refine ⟨?load, ?bytes, ?frame, ?form, ?width⟩
  case load => exact fun hm => Memory.load_store hm sz a v
  case bytes =>
    intro k hm hk
    rw [byte_eq_load _ sz a hk, Memory.load_store hm]
  case frame => exact fun b => Memory.byte_store_of_not_inRange m sz a b v
  case form => exact Memory.wf_store m sz a v
  case width =>
    intro b hab
    rw [Memory.byte, Memory.byte, Memory.key_eq, Memory.key_eq, hab]

/-! ### Registers -/

theorem getLsbD_replace_low {m n l : Nat} (hl : l = m + n) (old : BitVec l) (v : BitVec n) (k : Nat) :
    (old.extractLsb' n m ++ v).getLsbD k = if k < n then v.getLsbD k else old.getLsbD k := by
  rw [BitVec.getLsbD_append]
  split
  · rfl
  · next h =>
    rw [BitVec.getLsbD_extractLsb', Nat.add_sub_cancel' (Nat.le_of_not_lt h)]
    by_cases hk : k < l
    · rw [decide_eq_true (by omega), Bool.true_and]
    · rw [BitVec.getLsbD_of_ge old k (Nat.le_of_not_lt hk), Bool.and_false]

theorem getLsbD_merge (sz : Size) (old : Long) (v : BitVec sz.bits) (k : Nat) :
    (merge sz old v).getLsbD k = if k < sz.bits then v.getLsbD k else old.getLsbD k := by
  cases sz with
  | b => exact getLsbD_replace_low (m := 24) (n := 8) rfl old v k
  | w => exact getLsbD_replace_low (m := 16) (n := 16) rfl old v k
  | l =>
    split
    · rfl
    · next h =>
      have hge := Nat.le_of_not_lt h
      exact (BitVec.getLsbD_of_ge v k hge).trans (BitVec.getLsbD_of_ge old k hge).symm

/-- Settles O14, by the lemmas about a register read after a write. -/
theorem registerViews : Obligations.RegisterViews := by
  intro s r q v
  refine ⟨rfl, rfl, ?_, ?_, fun sz w k => ?_⟩
  · rw [State.getA_setA]
    exact if_congr eq_comm rfl rfl
  · rw [State.getD_setD]
    exact if_congr eq_comm rfl rfl
  · rw [State.getD_setDn, if_pos rfl, getLsbD_merge]

/-! ### SR -/

/-- The bits of SR, by their places (R40). -/
theorem getLsbD_toWord (f : StatusReg) (k : Nat) : f.toWord.getLsbD k =
    (BitVec.ofBool f.t ++ 0#1 ++ BitVec.ofBool f.s ++ 0#2 ++ f.i ++ 0#3 ++
      (BitVec.ofBool f.x ++ BitVec.ofBool f.n ++ BitVec.ofBool f.z ++ BitVec.ofBool f.v ++ BitVec.ofBool f.c) :
      BitVec (1 + 1 + 1 + 2 + 3 + 3 + (1 + 1 + 1 + 1 + 1))).getLsbD k := rfl

theorem toWord_ofWord (w : Word) : (StatusReg.ofWord w).toWord = w &&& 0xA71F := by
  refine BitVec.eq_of_getLsbD_eq fun k hk => ?_
  rw [getLsbD_toWord]
  simp only [BitVec.getLsbD_append]
  interval_cases k <;> simp [StatusReg.ofWord]

theorem ofWord_toWord (f : StatusReg) : StatusReg.ofWord f.toWord = f := by
  have hi : f.toWord.extractLsb' 8 3 = f.i := by
    refine BitVec.eq_of_getLsbD_eq fun k hk => ?_
    rw [BitVec.getLsbD_extractLsb', getLsbD_toWord]
    simp only [BitVec.getLsbD_append]
    interval_cases k <;> simp
  unfold StatusReg.ofWord
  rw [hi]
  simp only [getLsbD_toWord, BitVec.getLsbD_append]
  simp

/-- Settles O16, bit by bit. -/
theorem statusRegisterMask : Obligations.StatusRegisterMask := ⟨toWord_ofWord, ofWord_toWord⟩

/-! ### Flags -/

/-- Settles O17: the result is off from the integer by at most one carry or borrow. -/
theorem carryAndOverflow : Obligations.CarryAndOverflow := by
  intro sz s d x sum diff
  have hsum : sum = d + s + bit sz.bits x := (add_add_bit s d x).symm
  have hdiff : diff = d - s - bit sz.bits x := (sub_sub_bit s d x).symm
  have hx := x.toNat_le
  have hd := d.isLt
  have hs := s.isLt
  rw [hsum, hdiff]
  refine ⟨overflowAdd_eq_not_fits (bits_pos sz) s d x, overflowSub_eq_not_fits (bits_pos sz) s d x, ?_, ?_⟩
  · have hcarry := toNat_add_add_bit s d x
    have hlt := (d + s + bit sz.bits x).isLt
    rw [carryAdd, ← decide_not, decide_eq_decide]
    omega
  · have hborrow := toNat_sub_sub_bit s d x
    have hlt := (d - s - bit sz.bits x).isLt
    rw [borrowSub, ← decide_not, decide_eq_decide]
    omega

theorem decide_bne (p q : Prop) [Decidable p] [Decidable q] : (decide p != decide q) = decide (¬(p ↔ q)) := by
  by_cases hp : p <;> by_cases hq : q <;> simp [hp, hq]

/-- The signed order of two operands: N differs from V after a compare exactly if the destination is less (R46). -/
theorem sign_ne_overflow {n : Nat} (hn : 0 < n) (s d : BitVec n) :
    ((d - s).msb != overflowSub s d (d - s)) = decide (d.toInt < s.toInt) := by
  have hr := toNat_sub_sub_bit s d false
  rw [bit_false, BitVec.sub_zero] at hr
  have hs := s.isLt
  have hd := d.isLt
  have hrlt := (d - s).isLt
  simp only [overflowSub, BitVec.msb_eq_decide, BitVec.toInt_eq_toNat_cond, decide_bne, ← Bool.decide_and, decide_eq_decide,
    two_pow_eq hn, Bool.toNat_false] at *
  generalize 2 ^ (n - 1) = half at *
  split_ifs <;> omega

/-- Settles O18: Z says that the operands are equal, C orders them unsigned, and N with V signed. -/
theorem conditionsAfterCompare : Obligations.ConditionsAfterCompare := by
  intro sz s d f g
  have hc : g.c = decide (d.toNat < s.toNat) := rfl
  have hz : g.z = decide (d = s) := decide_eq_decide.2 sub_eq_zero
  have hnv : (g.n != g.v) = decide (d.toInt < s.toInt) := sign_ne_overflow (bits_pos sz) s d
  have hnv' : (g.n == g.v) = !decide (d.toInt < s.toInt) := by rw [← hnv, bne, Bool.not_not]
  have hnat : d = s ↔ d.toNat = s.toNat := BitVec.toNat_inj.symm
  have hint : d = s ↔ d.toInt = s.toInt := BitVec.toInt_inj.symm
  refine ⟨?hi, ?ls, ?cc, ?cs, ?ne, ?eq, ?ge, ?lt, ?gt, ?le⟩
  all_goals simp only [condHolds, hc, hz, hnv, hnv', Bool.and_eq_true, Bool.or_eq_true, Bool.not_eq_true', decide_eq_true_eq,
    decide_eq_false_iff_not, ne_eq]
  case hi => rw [hnat]; omega
  case ls => rw [hnat]; omega
  case cc => omega
  case ge => omega
  case gt => rw [hint]; omega
  case le => rw [hint]; omega

end Sys2Proof.Proofs.StateViews
end

section
/-! PROOF. Obligation O32: the decimal difference (`49_not_documented.md` R607). -/

namespace Sys2Proof.Proofs.DecimalSubtract

open Sys2Proof.Machine Sys2Proof.Claims Sys2Proof.Proofs.Shapes Sys2Proof.Proofs.Decimal

/-- A packed BCD byte stands for a number below 100. -/
theorem bcdValue_lt {v : Byte} (h : isBcd v = true) : bcdValue v < 100 := by
  simp only [isBcd, Bool.and_eq_true, decide_eq_true_eq] at h
  obtain ⟨htens, hunits⟩ := h
  unfold bcdValue
  omega

/-- The model adds 100 so as not to subtract below zero. -/
theorem decimalDifference_bcdSub (v w : Byte) (x : Bool) : DecimalDifference v w x (bcdSub v w x).1 (bcdSub v w x).2 := by
  intro hv hw
  have hvlt := bcdValue_lt hv
  have hwlt := bcdValue_lt hw
  have hx := x.toNat_le
  have hlt := Nat.mod_lt (100 + bcdValue w - bcdValue v - x.toNat) (by decide : 0 < 100)
  refine ⟨isBcd_bcdByte hlt, ?_, decide_eq_decide.2 (by omega)⟩
  rw [bcdSub, bcdValue_bcdByte hlt]
  omega

theorem decimalDifference_of_result {v w r : Byte} {x c : Bool} (h : DecimalResult bcdSub v w x (r, c)) :
    DecimalDifference v w x r c := fun hv hw => by
  obtain ⟨rfl, rfl⟩ := Prod.mk.inj (h hv hw)
  exact decimalDifference_bcdSub v w x hv hw

/-- Settles O32: on each kind of operand the result is one that `bcdSub` allows; NBCD subtracts from zero. -/
theorem decimalSubtractResults : Obligations.DecimalSubtractResults := by
  intro y x ea s
  refine ⟨?reg, ?mem, ?negate⟩
  case reg =>
    obtain ⟨n, o, c, k, r, hresult, hrun⟩ := decimalPair_reg bcdSub y x s
    exact ⟨n, o, c, k, r, decimalDifference_of_result hresult, run_of_ok hrun⟩
  case mem =>
    intro b t a u hb ha hw
    obtain ⟨n, o, c, k, r, hresult, hrun⟩ := decimalPair_mem bcdSub (u := u) rfl rfl rfl hb ha hw
    exact ⟨n, o, c, k, r, decimalDifference_of_result hresult, run_of_ok hrun⟩
  case negate =>
    intro p hr hw
    have hsr : p.2.sr = s.sr := evalEA_sr (s.npc 1) .b ea s
    obtain ⟨n, o, c, k, r, hresult, hrun⟩ :=
      decimalOp_run bcdSub (p.1.value .b p.2) 0 (1 + ea.words .b) (writeError_of_writes hw)
    rw [hsr] at hresult hrun
    refine ⟨n, o, c, k, r, decimalDifference_of_result hresult, run_of_ok ?_⟩
    exact (Exec.bind_ok _ (run_place 0 .b ea s)).trans ((Exec.bind_ok _ (readLoc_ok (readError_of_reads hr))).trans hrun)

end Sys2Proof.Proofs.DecimalSubtract
end

section
/-! PROOF. Obligations O37, O38, O39 and O42: MOVE, MOVEM, LINK, UNLK and PEA. -/

namespace Sys2Proof.Proofs.Transfers

open Sys2Proof.Machine Sys2Proof.Claims Sys2Proof.Proofs.Shapes Sys2Proof.Proofs.RegisterList Sys2Proof.Proofs.Endings
  Sys2Proof.Proofs.DataMovement

/-! ### The fetch of extension words -/

theorem checkFetch_succ (n : Nat) (a : Long) (s : State) : (checkFetch (n + 1) a).run s =
    match s.accessError .fetch .program 2 a with
    | some e => .error e s
    | none => (checkFetch n (a + 2)).run s := by
  rw [checkFetch, EStateM.run_bind, EStateM.run_get]
  simp only
  cases s.accessError .fetch .program 2 a <;> rfl

/-- A word of the stream after the next one is a word of the stream. -/
theorem add_two_mul (a : Long) (k : Nat) : a + 2 + BitVec.ofNat 32 (2 * k) = a + BitVec.ofNat 32 (2 * (k + 1)) := by
  rw [add_right_comm]
  exact offset_two a (2 * k)

/-- Words that answer are fetched before the first that does not (R78). -/
theorem checkFetch_after {a : Long} {s : State} {k : Nat} (n : Nat)
    (h : ∀ j < k, s.accessError .fetch .program 2 (a + BitVec.ofNat 32 (2 * j)) = none) :
    (checkFetch (k + n) a).run s = (checkFetch n (a + BitVec.ofNat 32 (2 * k))).run s := by
  induction k generalizing a with
  | zero => rw [Nat.zero_add, Nat.mul_zero, BitVec.add_zero]
  | succ k ih =>
    have hfirst : s.accessError .fetch .program 2 a = none := by simpa using h 0 (Nat.succ_pos k)
    rw [Nat.succ_add, checkFetch_succ, hfirst, ← add_two_mul]
    exact ih fun j hj => by
      rw [add_two_mul]
      exact h (j + 1) (Nat.succ_lt_succ hj)

theorem fetchError_of_streams {s : State} {n : Nat} {a : Long} (h : streams s n a = true) :
    ∀ j < n, s.accessError .fetch .program 2 (a + BitVec.ofNat 32 (2 * j)) = none := fun j hj =>
  accessError_of_answers (sz := .w) (List.all_eq_true.1 h j (List.mem_range.2 hj)) .program

theorem checkFetch_of_streams {s : State} {n : Nat} {a : Long} (h : streams s n a = true) :
    (checkFetch n a).run s = .ok () s := checkFetch_after 0 (fetchError_of_streams h)

/-! ### MOVE (R383) -/

theorem exec_moveOf (sz : Size) (src dst : EA) (s : State) : exec (moveOf sz src dst) s = run (move sz src dst) s := by
  cases sz <;> rfl

/-- MOVE after its source has been read. -/
theorem move_run {sz : Size} {src dst : EA} {s t : State} {l : Loc} (he : evalEA (s.npc 1) sz src s = (l, t))
    (hr : reads sz l t = true) : (move sz src dst).run s =
      (do checkFetch (dst.words sz) (s.npc (1 + src.words sz))
          let m ← place (src.words sz) sz dst
          writeLoc sz m (l.value sz t)
          modify fun s => (s.setSr (s.sr.logicFlags (l.value sz t))).advance (1 + src.words sz + dst.words sz) :
        Exec Unit).run t := by
  have hnpc : t.npc (1 + src.words sz) = s.npc (1 + src.words sz) := by
    simpa [he] using evalEA_npc (s.npc 1) sz src s (1 + src.words sz)
  rw [← hnpc]
  exact Exec.bind_ok _ (source_ok (own := 0) he (readError_of_reads hr))

/-- Settles O37: the destination is evaluated in the state that reading the source leaves. -/
theorem moveResults : Obligations.MoveResults := by
  intro sz src dst s p q v hr hf hw
  have hnpc : p.2.npc (1 + src.words sz) = s.npc (1 + src.words sz) := evalEA_npc _ _ _ _ _
  have hq : evalEA (p.2.npc (1 + src.words sz)) sz dst p.2 = q := by rw [hnpc]
  have hsr : (q.1.put sz v q.2).sr = s.sr := by rw [Loc.put_sr, evalEA_sr, evalEA_sr]
  rw [exec_moveOf, ← hsr]
  refine run_of_ok ((move_run rfl hr).trans ((Exec.bind_ok _ (checkFetch_of_streams hf)).trans ?_))
  refine (Exec.bind_ok _ (run_place (src.words sz) sz dst p.2)).trans ?_
  rw [hq]
  exact Exec.bind_ok _ (writeLoc_ok (writeError_of_writes hw))

/-! ### MOVEM (R385, R386) -/

section

variable {sz : Size} {gs : List GReg} {a : Long} {s : State}

theorem getG_mem (s : State) (m : Memory) (g : GReg) : { s with mem := m }.getG g = s.getG g := by
  cases g <;> rfl

/-- A register stored upward, and the address after it. -/
def stepUp (sz : Size) (s : State) (p : Memory × Long) (g : GReg) : Memory × Long :=
  (p.1.store sz p.2 ((s.getG g).setWidth sz.bits), p.2 + BitVec.ofNat 32 sz.bytes)

/-- A register stored downward, and its address. -/
def stepDown (sz : Size) (s : State) (p : Memory × Long) (g : GReg) : Memory × Long :=
  (p.1.store sz (p.2 - BitVec.ofNat 32 sz.bytes) ((s.getG g).setWidth sz.bits), p.2 - BitVec.ofNat 32 sz.bytes)

theorem stepUp_addrBits (sz : Size) (s : State) (p : Memory × Long) (g : GReg) :
    (stepUp sz s p g).1.addrBits = p.1.addrBits := Memory.store_addrBits _ _ _ _

theorem stepDown_addrBits (sz : Size) (s : State) (p : Memory × Long) (g : GReg) :
    (stepDown sz s p g).1.addrBits = p.1.addrBits := Memory.store_addrBits _ _ _ _

/-- Registers stored upward to bytes that answer. -/
theorem storeUp_ok {m : Memory} (hm : m.addrBits = s.mem.addrBits)
    (h : ∀ j < gs.length, s.accessError .write .data sz.bytes (a + BitVec.ofNat 32 (j * sz.bytes)) = none) :
    (storeUp sz gs a).run { s with mem := m } = .ok () { s with mem := (gs.foldl (stepUp sz s) (m, a)).1 } := by
  induction gs generalizing a m with
  | nil => rfl
  | cons g gs ih =>
    have hfirst : { s with mem := m }.accessError .write .data sz.bytes a = none :=
      (State.accessError_congr (s := s) (t := { s with mem := m }) rfl rfl hm _ _ _ _).trans (by simpa using h 0 (Nat.succ_pos _))
    have hrest := ih (a := a + BitVec.ofNat 32 sz.bytes) ((stepUp_addrBits sz s (m, a) g).trans hm) fun j hj => by
      have hnext := h (j + 1) (Nat.succ_lt_succ hj)
      rwa [Nat.succ_mul, Nat.add_comm, BitVec.ofNat_add, ← BitVec.add_assoc] at hnext
    refine (Exec.bind_ok (m := get) _ rfl).trans ((Exec.bind_ok _ (writeMem_ok hfirst)).trans ?_)
    rw [getG_mem]
    exact hrest

/-- Registers stored downward to bytes that answer. -/
theorem storeDown_ok {m : Memory} (hm : m.addrBits = s.mem.addrBits)
    (h : ∀ j < gs.length, s.accessError .write .data sz.bytes (a - BitVec.ofNat 32 ((j + 1) * sz.bytes)) = none) :
    (storeDown sz gs a).run { s with mem := m } =
      .ok (gs.foldl (stepDown sz s) (m, a)).2 { s with mem := (gs.foldl (stepDown sz s) (m, a)).1 } := by
  induction gs generalizing a m with
  | nil => rfl
  | cons g gs ih =>
    have hfirst : { s with mem := m }.accessError .write .data sz.bytes (a - BitVec.ofNat 32 sz.bytes) = none :=
      (State.accessError_congr (s := s) (t := { s with mem := m }) rfl rfl hm _ _ _ _).trans (by simpa using h 0 (Nat.succ_pos _))
    have hrest := ih (a := a - BitVec.ofNat 32 sz.bytes) ((stepDown_addrBits sz s (m, a) g).trans hm) fun j hj => by
      have hnext := h (j + 1) (Nat.succ_lt_succ hj)
      rwa [Nat.succ_mul (j + 1), Nat.add_comm, BitVec.ofNat_add, ← BitVec.sub_sub] at hnext
    refine (Exec.bind_ok (m := get) _ rfl).trans ((Exec.bind_ok _ (writeMem_ok hfirst)).trans ?_)
    rw [getG_mem]
    exact hrest

/-- A register loaded, and the address after its operand. -/
def stepLoad (sz : Size) (m : Memory) (p : State × Long) (g : GReg) : State × Long :=
  (p.1.setG g ((m.load sz p.2).signExtend 32), p.2 + BitVec.ofNat 32 sz.bytes)

/-- What decides which accesses answer, and what they read. -/
def answering (s : State) : Memory × Bool × List Hole := (s.mem, s.sr.s, s.holes)

theorem answering_setG (s : State) (g : GReg) (v : Long) : answering (s.setG g v) = answering s := by
  cases g <;> simp [answering, State.setG]

/-- Registers loaded upward from bytes that answer. -/
theorem loadUp_ok {sp : Space} {t : State} (ht : answering t = answering s)
    (h : ∀ j < gs.length, s.accessError .read sp sz.bytes (a + BitVec.ofNat 32 (j * sz.bytes)) = none) :
    (loadUp sz sp gs a).run t =
      .ok (a + BitVec.ofNat 32 (gs.length * sz.bytes)) (gs.foldl (stepLoad sz s.mem) (t, a)).1 := by
  induction gs generalizing a t with
  | nil =>
    show EStateM.Result.ok a t = .ok (a + BitVec.ofNat 32 (0 * sz.bytes)) t
    rw [Nat.zero_mul, BitVec.add_zero]
  | cons g gs ih =>
    have hfields := ht
    simp only [answering, Prod.mk.injEq] at hfields
    obtain ⟨hmem, hsup, hholes⟩ := hfields
    have hfirst : t.accessError .read sp sz.bytes a = none :=
      (State.accessError_congr (s := s) hsup hholes (by rw [hmem]) _ _ _ _).trans (by simpa using h 0 (Nat.succ_pos _))
    have hrest := ih (a := a + BitVec.ofNat 32 sz.bytes) ((answering_setG t g ((s.mem.load sz a).signExtend 32)).trans ht)
      fun j hj => by
        have hnext := h (j + 1) (Nat.succ_lt_succ hj)
        rwa [Nat.succ_mul, Nat.add_comm, BitVec.ofNat_add, ← BitVec.add_assoc] at hnext
    refine (Exec.bind_ok _ (readMem_ok hfirst)).trans ((Exec.bind_ok (m := modify _) _ rfl).trans ?_)
    rw [hmem]
    refine hrest.trans ?_
    rw [List.length_cons, Nat.succ_mul, Nat.add_comm, BitVec.ofNat_add, ← BitVec.add_assoc]
    rfl

end

/-- Settles O38: the registers of the mask, upward in its order, downward in the reverse one. -/
theorem movemStoreResults : Obligations.MovemStoreResults := by
  intro long mask ea r s sz bytes
  obtain ⟨hforward, hbackward⟩ := length_selected mask
  constructor
  · intro l hea h
    rw [Bool.and_eq_true] at hea
    have hne : ∀ q, ea ≠ .pre q := by
      rintro q rfl
      cases hea.1
    have hstate : (evalEA (s.npc 2) sz ea s).2 = s := evalEA_control _ _ _ _ hea.1
    have hstore := storeUp_ok (s := s) (gs := selected mask forwardOrder) (a := l.addr) rfl fun j hj =>
      accessError_of_answers (h j (hforward ▸ hj)) .data
    rw [selected_forward, List.foldl_map] at hstore
    refine run_of_ok ?_
    rw [storeRegisters_eq hne, selected_forward]
    refine (Exec.bind_ok _ (run_place 1 sz ea s)).trans ?_
    rw [show evalEA (s.npc (1 + 1)) sz ea s = (l, s) from Prod.ext rfl hstate]
    exact Exec.bind_ok _ hstore
  · intro h q
    have hstore := storeDown_ok (s := s) (gs := selected mask backwardOrder) (a := s.getA r) rfl fun j hj =>
      accessError_of_answers (h j (hbackward ▸ hj)) .data
    rw [selected_backward, List.foldl_map] at hstore
    refine run_of_ok ?_
    rw [storeRegisters, selected_backward]
    exact (Exec.bind_ok (m := get) _ rfl).trans ((Exec.bind_ok _ hstore).trans (Exec.bind_ok (m := modify _) _ rfl))

/-- Settles O39: the registers of the mask in its order; for `(An)+` the address register is written last. -/
theorem movemLoadResults : Obligations.MovemLoadResults := by
  intro long mask ea r s sz bytes load
  obtain ⟨hforward, -⟩ := length_selected mask
  constructor
  · intro l hea h
    have hne : ∀ q, ea ≠ .post q := by
      rintro q rfl
      cases hea
    have hstate : (evalEA (s.npc 2) sz ea s).2 = s := evalEA_control _ _ _ _ hea
    have hload := loadUp_ok (s := s) (t := s) (gs := selected mask forwardOrder) (a := l.addr) rfl fun j hj =>
      accessError_of_answers (h j (hforward ▸ hj)) l.space
    rw [selected_forward, List.foldl_map] at hload
    refine run_of_ok ?_
    rw [loadRegisters_eq hne, selected_forward]
    refine (Exec.bind_ok _ (run_place 1 sz ea s)).trans ?_
    rw [show evalEA (s.npc (1 + 1)) sz ea s = (l, s) from Prod.ext rfl hstate]
    exact Exec.bind_ok _ hload
  · intro h
    have hload := loadUp_ok (s := s) (t := s) (gs := selected mask forwardOrder) (a := s.getA r) rfl fun j hj =>
      accessError_of_answers (h j (hforward ▸ hj)) .data
    rw [hforward, selected_forward, List.foldl_map] at hload
    refine run_of_ok ?_
    rw [loadRegisters, selected_forward]
    exact (Exec.bind_ok (m := get) _ rfl).trans ((Exec.bind_ok _ hload).trans (Exec.bind_ok (m := modify _) _ rfl))

/-! ### LINK, UNLK and PEA (R605, R606) -/

/-- LINK once the stack pointer has moved. -/
theorem link_run {r : Reg} (d : Word) {s t : State} (ht : t = s.setSp (s.sp - 4))
    (h : t.accessError .write .data Size.l.bytes t.sp = none) :
    let u := { t with mem := t.mem.setLong t.sp (t.getA r) }.setA r t.sp
    (link r d).run s = .ok () ((u.setSp (u.sp + d.signExtend 32)).advance 2) := by
  intro u
  have hu : u = { t with mem := t.mem.store .l t.sp (t.getA r) }.setA r t.sp := rfl
  unfold link
  simp only [EStateM.run_bind, EStateM.run_modify, EStateM.run_get, ← ht]
  rw [writeMem_ok h]
  simp only [hu]
  rfl

theorem exec_link {r : Reg} {d : Word} {s : State} (h : answers s .write .l (s.sp - 4) = true) :
    let t := s.setSp (s.sp - 4)
    let u := { t with mem := s.mem.setLong t.sp (t.getA r) }.setA r t.sp
    exec (.link r d) s = .next ((u.setSp (u.sp + d.signExtend 32)).advance 2) := by
  have hwrite : (s.setSp (s.sp - 4)).accessError .write .data Size.l.bytes (s.setSp (s.sp - 4)).sp = none := by
    rw [State.sp_setSp]
    exact (State.accessError_congr (s := s) (by simp) (by simp) (by simp) _ _ _ _).trans (accessError_of_answers h .data)
  have hrun := link_run (r := r) d rfl hwrite
  rw [State.setSp_mem] at hrun
  exact run_of_ok hrun

theorem exec_unlk {r : Reg} {s : State} (h : answers s .read .l (s.getA r) = true) :
    let t := (s.setSp (s.getA r)).setA r (s.mem.long (s.getA r))
    exec (.unlk r) s = .next ((t.setSp (t.sp + 4)).advance 1) := by
  intro t
  have hread : (s.setSp (s.getA r)).accessError .read .data Size.l.bytes (s.setSp (s.getA r)).sp = none := by
    rw [State.sp_setSp]
    exact (State.accessError_congr (s := s) (by simp) (by simp) (by simp) _ _ _ _).trans (accessError_of_answers h .data)
  refine run_of_ok ((Exec.bind_ok (m := modify _) _ rfl).trans ((Exec.bind_ok (m := get) _ rfl).trans
    ((Exec.bind_ok _ (readMem_ok hread)).trans ?_)))
  rw [State.sp_setSp, State.setSp_mem]
  rfl

theorem exec_pea {ea : EA} {s : State} (hea : ea.mode.isControl = true) (h : answers s .write .l (s.sp - 4) = true) :
    exec (.pea ea) s = .next
      ({ s.setSp (s.sp - 4) with mem := s.mem.setLong (s.sp - 4) (evalEA (s.npc 1) .l ea s).1.addr }.advance
        (1 + ea.words .l)) := by
  have hstate : (evalEA (s.npc 1) .l ea s).2 = s := evalEA_control _ _ _ _ hea
  show run _ (evalEA (s.npc 1) .l ea s).2 = _
  rw [hstate]
  exact run_of_ok (Exec.bind_ok _ (push_ok (accessError_of_answers h .data)))

/-- Settles O42: each by its assignments, in order. -/
theorem linkUnlkPeaResults : Obligations.LinkUnlkPeaResults := fun _ _ _ _ => ⟨exec_link, exec_unlk, exec_pea⟩

end Sys2Proof.Proofs.Transfers
end

section
/-! PROOF. Obligations O46 to O51: the traps of undefined and privileged words, RTE, the instructions on CCR, SR and USP, STOP,
RESET, TAS, RTR and CHK. -/

namespace Sys2Proof.Proofs.Privileged

open Sys2Proof.Machine Sys2Proof.Claims Sys2Proof.Proofs.Shapes Sys2Proof.Proofs.MultiplyDivide
  Sys2Proof.Proofs.SystemControl Sys2Proof.Proofs.StateViews Sys2Proof.Proofs.Decimal

/-! ### Exceptions in place of an instruction (R433, R437, R439) -/

/-- Entering an exception does not depend on the trace latch. -/
theorem run_abortTo {v : Nat} {s : State} (h : canEnter v s = true) :
    run (abortTo v) s = .next (entered v s.pc { s with traceDue := false }) :=
  run_exception (s := { s with traceDue := false }) s.pc h

/-- Settles O46: each is the exception and nothing else. -/
theorem unimplementedResults : Obligations.UnimplementedResults := fun _ _ => ⟨run_abortTo, run_abortTo, run_abortTo⟩

theorem run_privileged_of_supervisor (m : Exec Unit) {s : State} (hs : s.sr.s = true) :
    run (privileged m) s = run m s := by
  show run (if s.sr.s = true then m else abortTo 8) s = run m s
  rw [if_pos hs]

theorem run_privileged_of_user (m : Exec Unit) {s : State} (hs : s.sr.s = false) (h : canEnter 8 s = true) :
    run (privileged m) s = .next (entered 8 s.pc { s with traceDue := false }) := by
  show run (if s.sr.s = true then m else abortTo 8) s = _
  rw [if_neg (Bool.eq_false_iff.1 hs), run_abortTo h]

/-- Settles O49: each of the eight is `privileged` of what it does. -/
theorem privilegeViolation : Obligations.PrivilegeViolation := by
  intro v b r ea s hs h i hi
  have htrap (m : Exec Unit) := run_privileged_of_user m hs h
  simp only [List.mem_cons, List.not_mem_nil, or_false] at hi
  obtain rfl | rfl | rfl | rfl | rfl | rfl | rfl | rfl := hi <;> exact htrap _

/-! ### RTE (R412) -/

theorem exec_rte {s : State} (hs : s.sr.s = true) (hsr : answers s .read .w s.ssp = true)
    (hpc : answers s .read .l (s.ssp + 2) = true) :
    exec .rte s = .next
      ({ s with ssp := s.ssp + 6, sr := StatusReg.ofWord (s.mem.word s.ssp) }.jump (s.mem.long (s.ssp + 2))) := by
  refine (run_privileged_of_supervisor returnFromException hs).trans (run_of_ok ?_)
  exact (Exec.bind_ok (m := get) _ rfl).trans ((Exec.bind_ok _ (readMem_ok (accessError_of_answers hsr .data))).trans
    (Exec.bind_ok _ (readMem_ok (accessError_of_answers hpc .data))))

/-- Settles O47, by the two reads of RTE. -/
theorem returnFromExceptionResult : Obligations.ReturnFromExceptionResult := fun _ => exec_rte

/-- The frame of an exception holds SR, and the saved PC above it (R441). -/
theorem frame_reads {m : Memory} (hm : m.addressable) (p savedPc : Long) (w : Word) :
    ((m.setLong (p - 4) savedPc).setWord (p - 6) w).word (p - 6) = w ∧
    ((m.setLong (p - 4) savedPc).setWord (p - 6) w).long (p - 4) = savedPc := by
  have hm' : (m.setLong (p - 4) savedPc).addressable := by simpa [Memory.addressable] using hm
  have hbase : p - 6 = p - 6 + BitVec.ofNat 32 0 := (BitVec.add_zero _).symm
  have hpc : p - 4 = p - 6 + BitVec.ofNat 32 2 := by bv_omega
  refine ⟨Memory.word_setWord hm' _ _, ?_⟩
  have hlong := Memory.long_setWord_offset hm' (p - 6) w 0 2 (by decide) (by decide) (by decide)
  rw [← hbase, ← hpc] at hlong
  rw [hlong, Memory.long_setLong hm]

/-- Settles O48: RTE reads back what the entry has pushed. -/
theorem returnUndoesEntry : Obligations.ReturnUndoesEntry := by
  intro v savedPc s hm _ hsr hpc
  obtain ⟨hword, hlong⟩ := frame_reads hm s.ssp savedPc s.sr.toWord
  have hsp : (entered v savedPc s).ssp = s.ssp - 6 := rfl
  have hnext : s.ssp - 6 + 2 = s.ssp - 4 := by bv_omega
  have hback : s.ssp - 6 + 6 = s.ssp := BitVec.sub_add_cancel _ _
  have hrte := exec_rte (s := entered v savedPc s) rfl hsr (by rw [hsp, hnext]; exact hpc)
  have hw : (entered v savedPc s).mem.word (s.ssp - 6) = s.sr.toWord := hword
  have hl : (entered v savedPc s).mem.long (s.ssp - 4) = savedPc := hlong
  rw [hsp, hnext, hback, hw, hl, ofWord_toWord] at hrte
  exact hrte

/-! ### CCR, SR and USP (R603) -/

/-- A word whose upper byte is SR's: CCR takes the low five bits of the lower one. -/
theorem ofWord_low (f : StatusReg) (x : Word) :
    StatusReg.ofWord ((f.toWord &&& 0xFF00) ||| (x &&& 0x001F)) = f.setCcr x := by
  have hi : ((f.toWord &&& 0xFF00) ||| (x &&& 0x001F)).extractLsb' 8 3 = f.toWord.extractLsb' 8 3 := by
    refine BitVec.eq_of_getLsbD_eq fun k hk => ?_
    simp only [BitVec.getLsbD_extractLsb', BitVec.getLsbD_or, BitVec.getLsbD_and]
    interval_cases k <;> simp
  rw [← congrArg (StatusReg.setCcr · x) (ofWord_toWord f)]
  unfold StatusReg.ofWord StatusReg.setCcr
  simp only [hi]
  simp

theorem setCcr_congr {f : StatusReg} {v w : Word} (h : ∀ k < 5, v.getLsbD k = w.getLsbD k) : f.setCcr v = f.setCcr w := by
  unfold StatusReg.setCcr
  rw [h 4 (by decide), h 3 (by decide), h 2 (by decide), h 1 (by decide), h 0 (by decide)]

theorem getLsbD_append_low {m n l : Nat} (hl : l = m + n) (a : BitVec m) (b : BitVec n) {k : Nat} (hk : k < n) :
    ((a ++ b).cast hl.symm).getLsbD k = b.getLsbD k := by
  rw [BitVec.getLsbD_cast, BitVec.getLsbD_append, if_pos hk]

/-- CCR is the low part of SR. -/
theorem getLsbD_ccr (f : StatusReg) {k : Nat} (hk : k < 5) : f.ccr.getLsbD k = f.toWord.getLsbD k :=
  (getLsbD_append_low (l := 16) rfl (0#11) f.flags hk).trans (getLsbD_append_low (l := 16) rfl _ f.flags hk).symm

/-- Settles O50: CCR takes its bits from a word that agrees with CCR's own in the low five bits. -/
theorem statusInstructionResults : Obligations.StatusInstructionResults := by
  intro v r ea s w ccr
  have hccr (x : Word) : ccr x = s.sr.setCcr x := ofWord_low s.sr x
  have hsuper (m : Exec Unit) := run_privileged_of_supervisor m (s := s)
  refine ⟨?ori, ?andi, ?eori, ?toCcr, ?fromSr, fun hs => ?privileged⟩
  case ori =>
    rw [hccr, ← setCcr_congr (v := s.sr.ccr ||| v) fun k hk => by rw [BitVec.getLsbD_or, BitVec.getLsbD_or, getLsbD_ccr _ hk]]
    rfl
  case andi =>
    rw [hccr, ← setCcr_congr (v := s.sr.ccr &&& v) fun k hk => by rw [BitVec.getLsbD_and, BitVec.getLsbD_and, getLsbD_ccr _ hk]]
    rfl
  case eori =>
    rw [hccr, ← setCcr_congr (v := s.sr.ccr ^^^ v) fun k hk => by rw [BitVec.getLsbD_xor, BitVec.getLsbD_xor, getLsbD_ccr _ hk]]
    rfl
  case toCcr =>
    have htests : Tests (.moveToCcr ea) 0 .w ea (fun x f => f.setCcr x) s := tests_of_exec rfl
    exact fun hr => (htests hr).trans (by simp only [hccr])
  case fromSr =>
    intro p hw
    exact run_of_ok ((Exec.bind_ok _ (run_place 0 .w ea s)).trans (Exec.bind_ok _ (writeLoc_ok (writeError_of_writes hw))))
  case privileged =>
    exact ⟨hsuper _ hs, hsuper _ hs, hsuper _ hs, tests_of_exec (own := 0) (hsuper _ hs), hsuper _ hs, hsuper _ hs, hsuper _ hs,
      hsuper _ hs⟩

/-! ### RTR and CHK (R604, R611) -/

theorem setSp_setSp (s : State) (v w : Long) : (s.setSp v).setSp w = s.setSp w := by
  unfold State.setSp
  cases hs : s.sr.s <;> simp [hs]

theorem setSr_setSp (s : State) {f : StatusReg} (hf : f.s = s.sr.s) (v : Long) : (s.setSr f).setSp v = (s.setSp v).setSr f := by
  unfold State.setSp
  cases hs : s.sr.s <;> simp [hf, hs] <;> rfl

theorem exec_rtr {s : State} (hccr : answers s .read .w s.sp = true) (hpc : answers s .read .l (s.sp + 2) = true) :
    exec .rtr s = .next (((s.setSp (s.sp + 6)).setSr (s.sr.setCcr (s.mem.word s.sp))).jump (s.mem.long (s.sp + 2))) := by
  let f := s.sr.setCcr (s.mem.word s.sp)
  let t := (s.setSp (s.sp + 2)).setSr f
  have hsp : t.sp = s.sp + 2 := (State.sp_setSr _ f (by simp [f, StatusReg.setCcr])).trans (State.sp_setSp _ _)
  have hread : t.accessError .read .data Size.l.bytes t.sp = none := by
    rw [hsp]
    exact (State.accessError_congr (s := s) (by simp [t, f, StatusReg.setCcr]) (by simp [t]) (by simp [t]) _ _ _ _).trans
      (accessError_of_answers hpc .data)
  have hend : t.setSp (s.sp + 2 + 4) = (s.setSp (s.sp + 6)).setSr f := by
    rw [setSr_setSp _ (by simp [f, StatusReg.setCcr]), setSp_setSp, BitVec.add_assoc]
    rfl
  have hmem : t.mem = s.mem := State.setSp_mem s _
  have hpop := pop_ok hread
  rw [hsp, hmem] at hpop
  have hsr : (s.setSp (s.sp + 2)).sr = s.sr := State.setSp_sr s _
  have hflags : (modify fun u => u.setSr (u.sr.setCcr (s.mem.word s.sp)) : Exec Unit).run (s.setSp (s.sp + 2)) = .ok () t := by
    show EStateM.Result.ok () ((s.setSp (s.sp + 2)).setSr ((s.setSp (s.sp + 2)).sr.setCcr (s.mem.word s.sp))) = .ok () t
    rw [hsr]
  have hrun : returnRestore.run s = .ok () ((t.setSp (s.sp + 2 + 4)).jump (s.mem.long (s.sp + 2))) :=
    (Exec.bind_ok _ (pop_ok (accessError_of_answers hccr .data))).trans
      ((Exec.bind_ok _ hflags).trans (Exec.bind_ok _ hpop))
  rw [hend] at hrun
  exact run_of_ok hrun

/-- What CHK's test does, after four free flags. -/
theorem checkBound_run (bound : Word) (d : Reg) (words : Nat) (s : State) : ∃ (n z o c : Bool) (k : Nat),
    ((s.getDn .w d).msb = true → bound.slt (s.getDn .w d) = false → n = true) ∧
    ((s.getDn .w d).msb = false → bound.slt (s.getDn .w d) = true → n = false) ∧
    (checkBound bound d words).run s =
      (if (s.getDn .w d).msb || bound.slt (s.getDn .w d) then exception 6 (s.npc words)
       else modify fun s => s.advance words : Exec Unit).run
        ({ s with draws := k }.setSr { s.sr with n := n, z := z, v := o, c := c }) := by
  refine ⟨if (s.getDn .w d).msb != bound.slt (s.getDn .w d) then (s.getDn .w d).msb else freeFlag s.draws,
    freeFlag (s.draws + 1), freeFlag (s.draws + 2), freeFlag (s.draws + 3), s.draws + 4, fun h1 h2 => by simp [h1, h2],
    fun h1 h2 => by simp [h1, h2], ?_⟩
  unfold checkBound
  simp only [EStateM.run_bind, EStateM.run_get, drawFlag_run, EStateM.run_modify]
  split
  · exact (Exec.bind_ok (fun u : State => exception 6 (u.npc words)) (EStateM.run_get _)).trans rfl
  · rfl

/-- Settles O51: CHK compares as integers, and its exception is entered from a state that differs from the operand's in the
flags and the counter of free values. -/
theorem tasRtrChkResults : Obligations.TasRtrChkResults := by
  intro ea d s
  refine ⟨modifies_of_exec rfl, exec_rtr, ?_⟩
  intro p v bound hr
  have hd : p.2.getDn .w d = s.getDn .w d := evalEA_getDn _ _ _ _ _ _
  have hsr : p.2.sr = s.sr := evalEA_sr _ _ _ _
  have hnpc : p.2.npc (1 + ea.words .w) = s.npc (1 + ea.words .w) := evalEA_npc _ _ _ _ _
  have hbelow : (s.getDn .w d).msb = decide (v < 0) := BitVec.msb_eq_toInt
  have habove : (p.1.value .w p.2).slt (s.getDn .w d) = decide (bound < v) := BitVec.slt_eq_decide
  obtain ⟨n, z, o, c, k, hn1, hn0, hrun⟩ := checkBound_run (p.1.value .w p.2) d (1 + ea.words .w) p.2
  rw [hd, hbelow, habove] at hn1 hn0 hrun
  rw [hnpc, hsr] at hrun
  have hexec : (do let v ← source 0 .w ea; checkBound v d (1 + ea.words .w) : Exec Unit).run s = _ :=
    (Exec.bind_ok _ (source_ok (own := 0) rfl (readError_of_reads hr))).trans hrun
  refine ⟨n, z, o, c, k, fun h1 h2 => hn1 (by simpa using h1) (by simpa using h2),
    fun h1 h2 => hn0 (by simpa using h1) (by simpa using h2), ?_⟩
  intro t
  constructor
  · intro h1 h2
    refine run_of_ok (hexec.trans ?_)
    rw [if_neg (by simp [h1, h2])]
    rfl
  · intro h henter
    refine run_of_ok (hexec.trans ?_)
    rw [if_pos (by simpa using h)]
    exact exception_ok henter

end Sys2Proof.Proofs.Privileged
end

section
/-! PROOF. Obligations O6, O7, O55 to O59: what a step does at each boundary (`70_reset_and_hazards.md` R510). -/

namespace Sys2Proof.Proofs.Boundaries

open Sys2Proof.Machine Sys2Proof.Claims Sys2Proof.Proofs.Shapes Sys2Proof.Proofs.Privileged Sys2Proof.Proofs.Endings
  Sys2Proof.Proofs.Entries Sys2Proof.Proofs.Frames Sys2Proof.Proofs.MultiplyDivide

/-! ### The boundary -/

section

variable {s : State}

theorem step_of_fetch (h : boundary s = .fetch) : step s = instructionStep s.consumeInput := by
  unfold step
  rw [h]

theorem step_of_waiting (h : boundary s = .waiting) : step s = .next s.consumeInput := by
  unfold step
  rw [h]

theorem step_of_final (h : boundary s = .final) : step s = .next s := by
  unfold step
  rw [h]

theorem step_of_reset (h : boundary s = .reset) : step s = .next (resetProcessor s.consumeInput) := by
  unfold step
  rw [h]

theorem step_of_interrupt {level : BitVec 3} {v : Nat} (h : boundary s = .interrupt level v) :
    step s = .next (complete (interrupt level v) s.consumeInput) := by
  unfold step
  rw [h]

/-- `halt_addr` is reached by a processor that has not halted. -/
theorem atHalt_eq_false_iff : s.atHalt = false ↔ s.run = .halted ∨ s.haltAddr ≠ some (s.pc &&& s.mem.addrMask) := by
  simp only [State.atHalt, Bool.and_eq_false_iff, decide_eq_false_iff_not, not_not, ne_eq]

theorem takesInterrupt_iff : s.takesInterrupt = true ↔ s.sr.i < s.input.ipl ∨ (s.input.ipl = 7 ∧ s.lastIpl ≠ 7) := by
  simp only [State.takesInterrupt, Bool.or_eq_true, Bool.and_eq_true, decide_eq_true_eq]

theorem boundary_of_final (h : s.atHalt = true) : boundary s = .final := if_pos h

theorem boundary_of_reset (h : s.atHalt = false) (hr : s.input.reset = true) : boundary s = .reset := by
  simp [boundary, h, hr]

theorem boundary_of_halted (h : s.run = .halted) (hr : s.input.reset = false) : boundary s = .waiting := by
  simp [boundary, atHalt_eq_false_iff.2 (.inl h), h, hr]

theorem boundary_of_interrupt (h : s.atHalt = false) (hr : s.input.reset = false) (hrun : s.run ≠ .halted)
    (hi : s.takesInterrupt = true) :
    boundary s = .interrupt s.input.ipl (s.input.ack.vectorNumber s.input.ipl) := by
  simp [boundary, h, hr, hrun, hi]

theorem boundary_of_stopped (h : s.atHalt = false) (hr : s.input.reset = false) (hrun : s.run = .stopped)
    (hi : s.takesInterrupt = false) : boundary s = .waiting := by
  simp [boundary, h, hr, hrun, hi]

theorem boundary_of_fetches (h : fetches s = true) : boundary s = .fetch := by
  simp only [fetches, Bool.and_eq_true, Bool.not_eq_true', decide_eq_true_eq, decide_eq_false_iff_not] at h
  obtain ⟨⟨⟨⟨hrun, hhalt⟩, hreset⟩, hlevel⟩, hseven⟩ := h
  have hi : s.takesInterrupt = false := by
    rw [State.takesInterrupt, decide_eq_false hlevel, hseven, Bool.or_self]
  simp [boundary, atHalt_eq_false_iff.2 (.inr hhalt), hreset, hrun, hi]

theorem step_of_fetches (h : fetches s = true) : step s = instructionStep s.consumeInput := step_of_fetch (boundary_of_fetches h)

end

/-- Settles O58: a boundary at which nothing is taken. -/
theorem stoppedWaits : Obligations.StoppedWaits := by
  intro s
  constructor
  · intro hrun hhalt hreset hi
    have hno : s.takesInterrupt = false := Bool.eq_false_iff.2 fun h => hi (takesInterrupt_iff.1 h)
    exact step_of_waiting (boundary_of_stopped (atHalt_eq_false_iff.2 (.inr hhalt)) hreset hrun hno)
  · intro hrun hhalt
    refine step_of_final (boundary_of_final ?_)
    simp [State.atHalt, hrun, hhalt]

/-! ### The fetch of an instruction -/

section

variable {s : State}

/-- The words at `pc` are the stream's. -/
theorem streamAt_consumeInput (s : State) : s.consumeInput.streamAt = wordsAt s := by
  have hstep (k : Nat) : s.pc + BitVec.ofNat 32 (2 * k) + 2 = s.pc + BitVec.ofNat 32 (2 * (k + 1)) := offset_two s.pc (2 * k)
  have h0 : s.pc + BitVec.ofNat 32 (2 * 0) = s.pc := BitVec.add_zero _
  have h1 := hstep 0
  rw [h0] at h1
  unfold wordsAt State.streamAt
  rw [h1, hstep 1, hstep 2, hstep 3]
  simp only [maxWords, List.range_succ_eq_map, List.range_zero, List.map_cons, List.map_nil]
  rw [show s.consumeInput.pc = s.pc from rfl, h0]
  rfl

theorem queueCurrent_of_fresh (h : queueFresh s = true) : s.consumeInput.queueCurrent := fun p hp =>
  beq_iff_eq.1 (List.all_eq_true.1 h p hp)

theorem mapped_of_allMapped (h : allMapped s = true) (kind : AccessKind) (a : Long) : s.consumeInput.mapped kind a = true :=
  State.mapped_of_no_holes (s := s.consumeInput) (List.isEmpty_iff.1 h) kind a

/-- Settles O6: the fetch meets no error, and its words are those of memory. -/
theorem stepRunsDecodedInstruction : Obligations.StepRunsDecodedInstruction := by
  intro s i rest hfetches hmapped hpc hfresh hdecode
  have hfetch : fetch.run s.consumeInput = .ok (some i) (s.consumeInput.afterFetch i) :=
    fetch_ok (queueCurrent_of_fresh hfresh) hpc (mapped_of_allMapped hmapped .fetch) (by rwa [streamAt_consumeInput])
  rw [step_of_fetches hfetches, instructionStep, hfetch]
  rfl

/-- Settles O7: the fetch finds no instruction, and vector 4 is taken in its place. -/
theorem undefinedWordTakesVectorFour : Obligations.UndefinedWordTakesVectorFour := by
  intro s hfetches hmapped hpc hfresh hdecode henter
  have hfetch := fetch_illegal (queueCurrent_of_fresh hfresh) hpc (mapped_of_allMapped hmapped .fetch)
    ((congrArg decodeWords (streamAt_consumeInput s)).trans hdecode)
  rw [step_of_fetches hfetches, instructionStep, hfetch]
  exact run_abortTo (s := { s.consumeInput with ir := s.mem.word s.pc, traceDue := s.sr.t }) henter

/-- A trace exception whose frame and vector answer. -/
theorem finish_of_due {u : State} (hdue : u.traceDue = true) (h : canEnter 9 u = true) :
    finish u = entered 9 u.pc { u with traceDue := false } := by
  have htrace : complete traceException u = complete (exception 9 u.pc) { u with traceDue := false } := rfl
  rw [finish, if_pos hdue, htrace]
  exact complete_of_ok (exception_ok h)

/-- Settles O57: an instruction does not set the latch, so T was set; and the latch is taken after it. -/
theorem traceFollowsInstruction : Obligations.TraceFollowsInstruction := by
  intro s u i rest hfetches hmapped hpc hfresh hdecode hexec hdue henter
  have hkeep : KeepsTraceOff (fetched i s) u :=
    closed_exec closedTrap_keepsTraceOff (fun _ _ _ _ => id) (fun _ _ => id) hexec
  constructor
  · by_contra ht
    have hoff := hkeep (Bool.eq_false_iff.2 ht)
    rw [hdue] at hoff
    cases hoff
  · rw [stepRunsDecodedInstruction s i rest hfetches hmapped hpc hfresh hdecode, hexec, ← finish_of_due hdue henter]
    rfl

end

/-! ### Words read ahead (R92) -/

theorem queued_eq_none {s : State} {a : Long} (h : ∀ p ∈ s.prefetch, p.1 ≠ a) : s.queued a = none := by
  rw [State.queued, Option.map_eq_none_iff, List.find?_eq_none]
  exact fun p hp => by simpa using h p hp

theorem queued_eq_some {s : State} {a : Long} {w : Word} (hex : ∃ p ∈ s.prefetch, p.1 = a)
    (h : ∀ p ∈ s.prefetch, p.1 = a → p.2 = w) : s.queued a = some w := by
  obtain ⟨p, hp, hpa⟩ := hex
  cases hf : s.prefetch.find? fun q => q.1 == a with
  | none => exact absurd hpa (by simpa using List.find?_eq_none.1 hf p hp)
  | some q =>
    have hqa : q.1 = a := by simpa using List.find?_some hf
    rw [State.queued, hf, Option.map_some, h q (List.mem_of_find?_eq_some hf) hqa]

/-- Settles O59, by whether the word is queued and still memory's. -/
theorem staleFetchSeesOldOrNew : Obligations.StaleFetchSeesOldOrNew := by
  intro s t a v hrun
  refine ⟨fun hno => ?_, fun w hex hw => ?_, ?_⟩
  · rw [streamWord_run, queued_eq_none hno] at hrun
    cases hrun
    exact ⟨rfl, rfl⟩
  · rw [streamWord_run, queued_eq_some hex hw] at hrun
    by_cases hfresh : w = s.mem.word a
    · simp only [if_pos hfresh] at hrun
      cases hrun
      exact ⟨.inl rfl, fun _ => rfl⟩
    · simp only [if_neg hfresh] at hrun
      cases hrun
      refine ⟨?_, fun h => absurd h hfresh⟩
      split
      · exact .inl rfl
      · exact .inr rfl
  · rw [readAhead, EStateM.run_bind, hrun]
    rfl

/-! ### Reset (R490) -/

/-- The reset vectors are read in supervisor state. -/
theorem accessError_resetBase (s : State) (a : Long) : (resetBase s.consumeInput).accessError .read .program Size.l.bytes a =
    (inSupervisor s).accessError .read .program Size.l.bytes a := State.accessError_congr rfl rfl rfl _ _ _ _

theorem vectorAddress_zero : vectorAddress 0 = 0 := by decide

theorem vectorAddress_one : vectorAddress 1 = 4 := by decide

/-- A reset whose vectors answer. -/
theorem resetProcessor_ok {s : State} (h0 : answers (inSupervisor s) .read .l 0 = true)
    (h1 : answers (inSupervisor s) .read .l 4 = true) :
    resetProcessor s.consumeInput = { resetBase s.consumeInput with ssp := s.mem.long 0 }.jump (s.mem.long 4) := by
  rw [resetProcessor_eq, resetVectors_run, accessError_resetBase, accessError_resetBase, vectorAddress_zero, vectorAddress_one,
    accessError_of_answers h0 .program, accessError_of_answers h1 .program]
  rfl

/-- Settles O56: each component of the state after the vectors have been read. -/
theorem externalReset : Obligations.ExternalReset := by
  intro s hreset hhalt h0 h1
  refine ⟨_, step_of_reset (boundary_of_reset (atHalt_eq_false_iff.2 hhalt) hreset), ?_⟩
  rw [resetProcessor_ok h0 h1]
  exact ⟨rfl, rfl, rfl, rfl, rfl, rfl, rfl, rfl, rfl, rfl, rfl, rfl, rfl, rfl⟩

/-! ### Interrupts (R460, R461) -/

/-- An interrupt saves `pc` as it is. -/
theorem complete_interrupt (level : BitVec 3) (v : Nat) (s : State) :
    complete (interrupt level v) s = complete (enterException (fun f => { f.enter with i := level }) v s.pc) s := by
  unfold complete interrupt
  rw [EStateM.run_bind, EStateM.run_get]

/-- Settles O55: the exception entry with the mask raised. -/
theorem interruptTaken : Obligations.InterruptTaken := by
  intro s hrun hhalt hreset hi v henter t
  have hboundary := boundary_of_interrupt (atHalt_eq_false_iff.2 (.inr hhalt)) hreset hrun (takesInterrupt_iff.2 hi)
  have hv : s.input.ack.vectorNumber s.input.ipl = v := by
    unfold Acknowledge.vectorNumber
    rfl
  have hvector : vectorAddress v = 4 * BitVec.ofNat 32 v := BitVec.zero_add _
  simp only [canEnter, Bool.and_eq_true, ← hvector] at henter
  obtain ⟨⟨hpc, hsr⟩, hload⟩ := henter
  rw [step_of_interrupt hboundary, hv, complete_interrupt]
  have hrun := enterException_ok (s := s.consumeInput) (enter := fun f => { f.enter with i := s.input.ipl })
    (savedPc := s.pc) (v := v) rfl
    (accessError_of_answers (s := inSupervisor s) hpc .data) (accessError_of_answers (s := inSupervisor s) hsr .data)
    (accessError_of_answers (s := inSupervisor s) hload .data)
  rw [State.enteredBy, hvector] at hrun
  exact congrArg Host.Outcome.next (complete_of_ok hrun)

end Sys2Proof.Proofs.Boundaries
end

section
/-! PROOF. Obligations O52, O53, O54 and O60: bus and address errors (`60_exceptions.md` R431, R432, R443, R452). One lemma says
what the exception of an access error leaves, whatever the access was; each statement then finds its access. -/

namespace Sys2Proof.Proofs.AccessErrors

open Sys2Proof.Machine Sys2Proof.Claims Sys2Proof.Proofs.Shapes Sys2Proof.Proofs.Transfers Sys2Proof.Proofs.Boundaries
  Sys2Proof.Proofs.Entries Sys2Proof.Proofs.Frames

/-! ### The exception of an access error -/

theorem vectorAddress_eq (v : Nat) : vectorAddress v = 4 * BitVec.ofNat 32 v := BitVec.zero_add _

/-- An access meets no error exactly if memory answers it. -/
theorem accessError_eq_none_iff_answers (s : State) (kind : AccessKind) (sp : Space) (sz : Size) (a : Long) :
    s.accessError kind sp sz.bytes a = none ↔ answers s kind sz a = true := by
  refine ⟨fun h => ?_, fun h => accessError_of_answers h sp⟩
  obtain ⟨haligned, hmapped⟩ := (State.accessError_eq_none_iff s kind sp sz.bytes a).1 h
  simp only [answers, Bool.and_eq_true, Bool.or_eq_true, decide_eq_true_eq, Bool.not_eq_true', List.all_eq_true, List.mem_range]
  refine ⟨?_, hmapped⟩
  by_cases hsz : sz = .b
  · exact .inl hsz
  · refine .inr (haligned ?_)
    cases sz with
    | b => exact absurd rfl hsz
    | w | l => decide

/-- What the exception of an access error needs to meet no other (R452). -/
theorem canEnterError_iff (v : Nat) (s : State) : canEnterError v s = true ↔
    s.ssp.getLsbD 0 = false ∧
    (∀ i, i < 14 → { s with sr := s.sr.enter }.mapped .write (s.ssp - 14 + BitVec.ofNat 32 i) = true) ∧
    { s with sr := s.sr.enter }.accessError .read .data Size.l.bytes (vectorAddress v) = none := by
  rw [accessError_eq_none_iff_answers, vectorAddress_eq]
  simp only [canEnterError, Bool.and_eq_true, Bool.not_eq_true', List.all_eq_true, List.mem_range, and_assoc]
  rfl

theorem groupZero_of_ok {e : AccessError} {s t : State} (h : (groupZeroEntry e).run s = .ok () t) : groupZero e s = t := by
  rw [groupZero, h]

/-- The exception of an access error, when it meets no other (R443). -/
theorem errorEntered_groupZero {e : AccessError} {sp : Space} {s : State} (hfc : e.fc = functionCode sp s.sr.s)
    (hm : s.mem.addressable) (h : canEnterError e.vector s = true) :
    ErrorEntered e.vector e.address e.kind sp s (groupZero e s) := by
  obtain ⟨heven, hframe, hvector⟩ := (canEnterError_iff e.vector s).1 h
  have hrun := groupZeroEntry_ok heven hframe hvector
  obtain ⟨haccess, haddress, hir, hsr⟩ := Memory.longFrame_reads hm s.ssp (Config.free s.draws) s.sr s.ir e.address
    (accessWord (Config.free (s.draws + 1)) e)
  obtain ⟨hwrite, hfetch, hcode⟩ := accessWord_fields (Config.free (s.draws + 1)) e
  rw [groupZero_of_ok hrun]
  have hcode' := (congrArg (fun w : Word => w.extractLsb' 0 3) haccess).trans (hcode.trans hfc)
  refine ⟨rfl, (congrArg (fun w : Word => w.getLsbD 4) haccess).trans hwrite,
    (congrArg (fun w : Word => w.getLsbD 3) haccess).trans hfetch, ?code, haddress, hir, hsr,
    fun b hb => Memory.byte_longFrame _ _ _ _ _ _ b hb, ?vector, rfl, rfl, rfl, rfl, rfl, rfl, rfl⟩
  case code =>
    unfold functionCode at hcode'
    exact hcode'
  case vector => rw [← vectorAddress_eq]

/-- The step past an instruction whose access has failed. -/
theorem run_of_error {m : Exec Unit} {e : AccessError} {s t : State} (h : m.run s = .error e t) :
    run m s = .next (groupZero e t) := congrArg Host.Outcome.next (complete_of_error h)

theorem bind_error {α β : Type} {m : Exec α} (f : α → Exec β) {e : AccessError} {s t : State} (h : m.run s = .error e t) :
    (m >>= f).run s = .error e t := by rw [EStateM.run_bind, h]

/-! ### The errors of an access -/

/-- An access of which a byte is not mapped is a bus error (R74, R75, R78). -/
theorem accessError_of_unmapped {s : State} {kind : AccessKind} {sp : Space} {n k : Nat} {a : Long}
    (ha : n < 2 ∨ a.getLsbD 0 = false) (hk : k < n) (hunmapped : s.mapped kind (a + BitVec.ofNat 32 k) = false)
    (hmapped : ∀ j < k, s.mapped kind (a + BitVec.ofNat 32 j) = true) :
    s.accessError kind sp n a = some
      { vector := 2, kind := kind, fc := functionCode sp s.sr.s
        address := if kind = .fetch then a else (a + BitVec.ofNat 32 k) &&& s.mem.addrMask } := by
  have hfind : (List.range n).find? (fun i => !s.mapped kind (a + BitVec.ofNat 32 i)) = some k := by
    rw [List.find?_range_eq_some]
    exact ⟨by simp [hunmapped], List.mem_range.2 hk, fun j hj => by simp [hmapped j hj]⟩
  have haligned : ¬ (2 ≤ n ∧ a.getLsbD 0 = true) := by
    rintro ⟨hn, hodd⟩
    rcases ha with hsmall | heven
    · omega
    · rw [heven] at hodd
      cases hodd
  rw [State.accessError, if_neg haligned, hfind]

/-- A word at an even address that cannot be fetched is a bus error, at the word's address (R78). -/
theorem fetchError_of_even {s : State} {a : Long} (ha : a.getLsbD 0 = false)
    (h : (s.mapped .fetch a && s.mapped .fetch (a + 1)) = false) :
    s.accessError .fetch .program 2 a =
      some { vector := 2, address := a, kind := .fetch, fc := functionCode .program s.sr.s } := by
  cases h0 : s.mapped .fetch a with
  | false => exact accessError_of_unmapped (k := 0) (.inr ha) (by decide) (by rwa [BitVec.add_zero]) fun j hj => by omega
  | true =>
    rw [h0, Bool.true_and] at h
    refine accessError_of_unmapped (k := 1) (.inr ha) (by decide) h fun j hj => ?_
    obtain rfl : j = 0 := by omega
    rwa [BitVec.add_zero]

/-! ### MOVE from and to memory -/

/-- The errors of MOVE in either direction, by that of its access. -/
theorem exec_transfers {write : Bool} {sz : Size} {ea : EA} {d : Reg} {a : Long} {sp : Space} {i : Instr} {kind : AccessKind}
    {s u : State} {e : AccessError} (hi : transfers write sz ea d s = some (i, kind))
    (hea : evalEA (s.npc 1) sz ea s = (.mem a sp, u))
    (he : u.accessError kind (if write then .data else sp) sz.bytes a = some e) : exec i s = .next (groupZero e u) := by
  cases write with
  | false =>
    obtain ⟨rfl, rfl⟩ : moveOf sz ea (.dn d) = i ∧ AccessKind.read = kind := by simpa [transfers] using hi
    have hread : (readLoc sz (.mem a sp)).run u = .error e u := by
      rw [readLoc_run, show (Loc.mem a sp).readError sz u = some e from he]
    have hsource : (source 0 sz ea).run s = .error e u := by
      rw [source, EStateM.run_bind, run_place, hea]
      exact hread
    exact (exec_moveOf sz ea (.dn d) s).trans (run_of_error (bind_error _ hsource))
  | true =>
    have hstreams : streams s (ea.words sz) (s.npc 1) = true := by
      by_contra hno
      simp [transfers, hno] at hi
    obtain ⟨rfl, rfl⟩ : moveOf sz (.dn d) ea = i ∧ AccessKind.write = kind := by simpa [transfers, hstreams] using hi
    have hwrite : (writeLoc sz (.mem a sp) (s.getDn sz d)).run u = .error e u := by
      rw [writeLoc_run, show (Loc.mem a sp).writeError sz u = some e from he]
    have hmove := move_run (sz := sz) (src := .dn d) (dst := ea) (s := s) rfl rfl
    refine (exec_moveOf sz (.dn d) ea s).trans (run_of_error (hmove.trans ((Exec.bind_ok _ (checkFetch_of_streams hstreams)).trans
      ((Exec.bind_ok _ (run_place 0 sz ea s)).trans ?_))))
    rw [hea]
    exact bind_error _ hwrite

/-- Settles O52: the operand's address is odd. -/
theorem addressErrorFrame : Obligations.AddressErrorFrame := by
  intro write long ea d a sp i kind s u sz hi hea hodd hm henter
  have hsz : 2 ≤ sz.bytes := by cases long <;> decide
  have he := State.accessError_of_odd u kind (if write then .data else sp) sz.bytes a hsz hodd
  have hu : (evalEA (s.npc 1) sz ea s).2 = u := by rw [hea]
  have hmem : u.mem = s.mem := hu ▸ evalEA_mem _ _ _ _
  exact ⟨_, exec_transfers hi hea he, errorEntered_groupZero rfl (hmem ▸ hm) henter⟩

/-! ### The fetch of an instruction -/

/-- An operation word that cannot be fetched. -/
theorem step_of_fetchError {s : State} {e : AccessError} (hfetches : fetches s = true)
    (he : s.accessError .fetch .program 2 s.pc = some e) : step s = .next (groupZero e s.consumeInput) := by
  have he' : s.consumeInput.accessError .fetch .program 2 s.pc = some e :=
    (State.accessError_congr (s := s) rfl rfl rfl _ _ _ _).trans he
  have hcheck : (checkFetch 1 s.pc).run s.consumeInput = .error e s.consumeInput := by rw [checkFetch_succ, he']
  have hfetch : fetch.run s.consumeInput = .error e s.consumeInput := by
    unfold fetch
    rw [EStateM.run_bind, EStateM.run_get]
    exact bind_error _ hcheck
  rw [step_of_fetches hfetches, instructionStep, hfetch]

/-- Settles O53: the operation word's address is odd. -/
theorem oddFetchTakesAddressError : Obligations.OddFetchTakesAddressError := fun s hfetches hodd hm henter =>
  ⟨_, step_of_fetchError hfetches (State.accessError_of_odd s .fetch .program 2 s.pc le_rfl hodd),
    errorEntered_groupZero (s := s.consumeInput) rfl hm henter⟩

theorem kind_of_transfers {write : Bool} {sz : Size} {ea : EA} {d : Reg} {s : State} {i : Instr} {kind : AccessKind}
    (hi : transfers write sz ea d s = some (i, kind)) : kind ≠ .fetch := by
  unfold transfers at hi
  split_ifs at hi <;> (cases hi; decide)

theorem getLsbD_zero_add_even (a : Long) (k : Nat) : (a + BitVec.ofNat 32 (2 * k)).getLsbD 0 = a.getLsbD 0 := by
  simp only [BitVec.getLsbD, BitVec.toNat_add, BitVec.toNat_ofNat, Nat.testBit_zero, decide_eq_decide]
  omega

/-- The words of the stream up to the first that does not answer are fetched, and that one is a bus error. -/
theorem checkFetch_of_unanswered {s : State} {n k : Nat} {a : Long} (hk : k < n) (hstreams : streams s k a = true)
    (ha : a.getLsbD 0 = false) (hno : answers s .fetch .w (a + BitVec.ofNat 32 (2 * k)) = false) :
    (checkFetch n a).run s = .error
      { vector := 2, address := a + BitVec.ofNat 32 (2 * k), kind := .fetch, fc := functionCode .program s.sr.s } s := by
  obtain ⟨m, rfl⟩ : ∃ m, n = k + (m + 1) := ⟨n - k - 1, by omega⟩
  have heven : (a + BitVec.ofNat 32 (2 * k)).getLsbD 0 = false := (getLsbD_zero_add_even a k).trans ha
  have hunmapped : (s.mapped .fetch (a + BitVec.ofNat 32 (2 * k)) &&
      s.mapped .fetch (a + BitVec.ofNat 32 (2 * k) + 1)) = false := by
    by_contra hmapped
    rw [Bool.not_eq_false, Bool.and_eq_true] at hmapped
    obtain ⟨h0, h1⟩ := hmapped
    have hyes : s.accessError .fetch .program 2 (a + BitVec.ofNat 32 (2 * k)) = none := by
      refine (State.accessError_eq_none_iff _ _ _ _ _).2 ⟨fun _ => heven, fun j hj => ?_⟩
      interval_cases j
      · rwa [BitVec.add_zero]
      · exact h1
    rw [(accessError_eq_none_iff_answers s .fetch .program .w _).1 hyes] at hno
    cases hno
  rw [checkFetch_after _ (fetchError_of_streams hstreams), checkFetch_succ, fetchError_of_even heven hunmapped]

/-- Settles O60: an operand's byte, an operation word, an extension word of MOVE's destination. -/
theorem busErrorFrame : Obligations.BusErrorFrame := by
  refine ⟨?operand, ?operation, ?extension⟩
  case operand =>
    intro write sz ea d a sp k i kind s u hi hea haligned hk hunmapped hmapped hm henter
    have hsz : sz.bytes < 2 ∨ a.getLsbD 0 = false := haligned.imp_left fun h => by rw [h]; decide
    have he := accessError_of_unmapped (sp := if write then .data else sp) hsz hk hunmapped hmapped
    have hu : (evalEA (s.npc 1) sz ea s).2 = u := by rw [hea]
    have hmem : u.mem = s.mem := hu ▸ evalEA_mem _ _ _ _
    rw [if_neg (kind_of_transfers hi), hmem] at he
    exact ⟨_, exec_transfers hi hea he, errorEntered_groupZero rfl (hmem ▸ hm) henter⟩
  case operation =>
    intro s hfetches heven hunmapped hm henter
    exact ⟨_, step_of_fetchError hfetches (fetchError_of_even heven hunmapped),
      errorEntered_groupZero (s := s.consumeInput) rfl hm henter⟩
  case extension =>
    intro sz src dst k s p xp hr hk hstreams heven hno hm henter
    have hcheck := checkFetch_of_unanswered hk hstreams heven hno
    have hmem : p.2.mem = s.mem := evalEA_mem _ _ _ _
    exact ⟨_, (exec_moveOf sz src dst s).trans (run_of_error ((move_run rfl hr).trans (bind_error _ hcheck))),
      errorEntered_groupZero rfl (hmem ▸ hm) henter⟩

/-! ### The halted processor (R452) -/

theorem groupZero_run (e : AccessError) (s : State) :
    (groupZero e s).run = if canEnterError e.vector s then .running else .halted := by
  cases h : canEnterError e.vector s with
  | true =>
    obtain ⟨heven, hframe, hvector⟩ := (canEnterError_iff e.vector s).1 h
    rw [groupZero, groupZeroEntry_ok heven hframe hvector]
    rfl
  | false =>
    rw [groupZero]
    cases hr : (groupZeroEntry e).run s with
    | ok _ t =>
      rw [(canEnterError_iff e.vector s).2 (groupZeroEntry_inv hr)] at h
      cases h
    | error _ t => rfl

/-- A push of a word or long on an odd supervisor stack fails after the pointer has moved (R85). -/
theorem push_of_odd {sz : Size} (hsz : sz ≠ .b) (v : BitVec sz.bits) {s : State} (hs : s.sr.s = true)
    (h : s.ssp.getLsbD 0 = true) :
    (s.ssp - BitVec.ofNat 32 sz.bytes).getLsbD 0 = true ∧
      ∃ e, (push sz v).run s = .error e { s with ssp := s.ssp - BitVec.ofNat 32 sz.bytes } := by
  have hsp : s.sp = s.ssp := if_pos hs
  have hset : s.setSp (s.ssp - BitVec.ofNat 32 sz.bytes) = { s with ssp := s.ssp - BitVec.ofNat 32 sz.bytes } := if_pos hs
  have hbytes : 2 ≤ sz.bytes ∧ sz.bytes % 2 = 0 ∧ sz.bytes ≤ 4 := by
    cases sz with
    | b => exact absurd rfl hsz
    | w | l => decide
  have hodd : (s.ssp - BitVec.ofNat 32 sz.bytes).getLsbD 0 = true := by
    simp only [BitVec.getLsbD, BitVec.toNat_sub, BitVec.toNat_ofNat, Nat.testBit_zero, decide_eq_true_eq] at h ⊢
    omega
  refine ⟨hodd, { vector := 3, kind := .write, fc := functionCode .data s.sr.s
                  address := s.ssp - BitVec.ofNat 32 sz.bytes }, ?_⟩
  have hsp' : State.sp { s with ssp := s.ssp - BitVec.ofNat 32 sz.bytes } = s.ssp - BitVec.ofNat 32 sz.bytes := if_pos hs
  rw [push, EStateM.run_bind, EStateM.run_modify, hsp, hset]
  simp only [EStateM.run_bind, EStateM.run_get]
  rw [writeMem_run, hsp', State.accessError_of_odd _ _ _ _ _ hbytes.1 hodd]

/-- An exception whose frame is at an odd address halts the processor: its own exception meets the same. -/
theorem exception_odd (v : Nat) (pc : Long) {s : State} (h : s.ssp.getLsbD 0 = true) :
    (complete (exception v pc) s).run = .halted := by
  obtain ⟨hodd, e, he⟩ := push_of_odd (sz := .l) (by decide) pc (s := raised s) rfl h
  have hentry : (shortEntry v pc s.sr).run (raised s) = .error e _ := bind_error _ he
  rw [complete_exception, complete_of_error hentry]
  exact groupZero_odd hodd

theorem resetProcessor_run (s : State) : (resetProcessor s.consumeInput).run =
    if answers (inSupervisor s) .read .l 0 && answers (inSupervisor s) .read .l 4 then .running else .halted := by
  rw [resetProcessor_eq, resetVectors_run, accessError_resetBase, accessError_resetBase, vectorAddress_zero, vectorAddress_one]
  have hanswers (a : Long) := accessError_eq_none_iff_answers (inSupervisor s) .read .program .l a
  cases h0 : (inSupervisor s).accessError .read .program Size.l.bytes 0 with
  | some e =>
    have hno : answers (inSupervisor s) .read .l 0 = false := Bool.eq_false_iff.2 fun h => by
      rw [(hanswers 0).2 h] at h0
      cases h0
    rw [hno]
    rfl
  | none =>
    rw [(hanswers 0).1 h0, Bool.true_and]
    cases h1 : (inSupervisor s).accessError .read .program Size.l.bytes 4 with
    | some e =>
      have hno : answers (inSupervisor s) .read .l 4 = false := Bool.eq_false_iff.2 fun h => by
        rw [(hanswers 4).2 h] at h1
        cases h1
      rw [hno]
      rfl
    | none =>
      rw [(hanswers 4).1 h1]
      rfl

/-- Settles O54: the exception of an access error halts exactly where its entry meets an error. -/
theorem doubleFaultHalts : Obligations.DoubleFaultHalts := by
  refine ⟨groupZero_run, fun n s h => ⟨_, rfl, exception_odd _ _ h⟩, ?reset, ?halted⟩
  case reset =>
    intro s hreset hhalt
    exact ⟨_, step_of_reset (boundary_of_reset (atHalt_eq_false_iff.2 hhalt) hreset), resetProcessor_run s⟩
  case halted => exact fun s hrun hreset => step_of_waiting (boundary_of_halted hrun hreset)

end Sys2Proof.Proofs.AccessErrors
end
